-- ==== Sys2Proof/Word.lean ====
section
/-! DEFINITION. The machine's basic quantities (rules R2, R3, R10): characters, words, addresses, register numbers,
masks and immediates, each at the width the spec gives it. -/

namespace Sys2Proof

/-- A character, the addressable unit of memory: 8 bits (R2). The source never says "byte". -/
abbrev Byte := BitVec 8

/-- A word, the content of a general register: 32 bits (R2, R10). -/
abbrev Word := BitVec 32

/-- An address of one character: 16 bits, so every sum of addresses is reduced modulo 2^16 (R2, R37). -/
abbrev Addr := BitVec 16

/-- A general register's number, 0 to 15 (R10). -/
abbrev Reg := Fin 16

/-- A 4-bit mask (field M1), or the stride of CCS and MCS (R53). -/
abbrev Mask := BitVec 4

/-- The 20-bit immediate operand I20 (R55). -/
abbrev Imm := BitVec 20

/-- A 7-bit operation code, bits 1 to 7 of an instruction (R51). -/
abbrev Opcode := BitVec 7

end Sys2Proof
end

