-- ==== Sys2Proof/Config.lean ====
section
/-! DEFINITION. The named parameters of the spec (R2's table, 93_implementation_defined.md part 2): the two it decides, the
types of the two it leaves open and State carries, and REAL, the real-number interface, a constant without a value. -/

namespace Sys2Proof

/-- `CCR_BIT_ORDER`: the order of the flags in the CCR read as a 4-bit number (R22). -/
inductive CcrBitOrder where
  /-- 8 tests O, 4 tests G, 2 tests L, 1 tests E. -/
  | ogle
  /-- 8 tests O, 4 tests L, 2 tests G, 1 tests E. -/
  | olge
  deriving DecidableEq, Repr

/-- The spec decides `OGLE` (R22, D10, C1). -/
def Config.ccrBitOrder : CcrBitOrder := .ogle

/-- `CH_LOGIC_CCR_SCOPE`: what ANDC, ORC, XORC and NOTC classify (R220). -/
inductive ChLogicScope where
  /-- the 8-bit result -/
  | char8
  /-- the whole final register -/
  | word32
  deriving DecidableEq, Repr

/-- The spec decides `char8` (R220, D18, C11). -/
def Config.chLogicScope : ChLogicScope := .char8

/-- `REG_MEM_ALIAS`: whether the general registers are also the words of memory at addresses 0 to 63 (R14). -/
inductive RegMemAlias where
  /-- registers are a separate file -/
  | none
  /-- the character at an address a below 64 is character a mod 4 of register a div 4 -/
  | low64
  deriving DecidableEq, Repr

/-- The parameters the spec leaves OPEN and that are plain data; State carries them and no step changes them (log 5). -/
structure Params where
  /-- `MEM_SIZE`: how many characters of memory exist (R38). -/
  memSize : Nat
  /-- `REG_MEM_ALIAS` (R14). -/
  regMemAlias : RegMemAlias
  deriving DecidableEq, Repr

/-- `MEM_SIZE` is "1 to 65536 characters" (93_implementation_defined.md part 2). -/
def Params.wf (p : Params) : Bool := 1 ≤ p.memSize && p.memSize ≤ 65536

/-! ### REAL: the real-number interface (R223 to R229) -/

/-- The sign of a real compared to zero: `REAL.sign` (R224). -/
inductive RealSign where
  | negative
  | zero
  | positive
  deriving DecidableEq, Repr

/-- The sign of an integer. -/
def RealSign.ofInt (n : Int) : RealSign := if n < 0 then .negative else if n = 0 then .zero else .positive

/-- The sign of a rational number. -/
def RealSign.ofRat (q : ℚ) : RealSign := if q < 0 then .negative else if q = 0 then .zero else .positive

/-- `Rres` of R224. -/
inductive RealResult where
  | ok (w : Word)
  | realFormat
  | zeroDivisor
  deriving DecidableEq, Repr

/-- A member that can fail only with `RealFormat` (R224: "`add`, `sub`, `mul` never return `ZeroDivisor`"). -/
def RealResult.ofOption : Option Word → RealResult
  | some w => .ok w
  | none => .realFormat

/-- The members of `REAL` (R224), with the sign, exponent and fraction that R223 (3) and R214 speak of and the validity and
value that R2's parameter table speaks of. -/
structure RealOps where
  /-- is the word an acceptable real? (R223 (4)) -/
  valid : Word → Bool
  /-- the sign kept apart from the magnitude (R223 (3)) -/
  negative : Word → Bool
  /-- the power of 16 that multiplies the fraction read as an integer (R223 (3)) -/
  exponent : Word → Int
  /-- the fraction's hexadecimal digits read as one integer (R223 (3)) -/
  fraction : Word → Nat
  /-- the number of hexadecimal digits of the fraction -/
  digits : Nat
  /-- "the real zero" of R214 -/
  zero : Word
  sign : Word → RealSign
  add : Word → Word → Option Word
  sub : Word → Word → Option Word
  mul : Word → Word → Option Word
  div : Word → Word → RealResult
  short : Imm → Word
  /-- the argument is the two's complement integer the word holds -/
  float : Word → Word
  fix : Word → Int
  floor : Word → Word
  ceil : Word → Word
  shiftr : Word → Int → Option Word

/-- The value a real stands for: sign and magnitude, a fraction of hexadecimal digits, an exponent that counts powers of 16
(R223 (3); DEDUCED, log 11). -/
def RealOps.value (R : RealOps) (a : Word) : ℚ :=
  (if R.negative a then -1 else 1) * (R.fraction a : ℚ) * (16 : ℚ) ^ R.exponent a

/-- The fraction moved left by n hexadecimal digits if n is positive, right by -n if negative, logically, zeros filling
(R214). -/
def RealOps.shiftedFraction (R : RealOps) (a : Word) (n : Int) : Nat :=
  if 0 ≤ n then (R.fraction a * 16 ^ n.toNat) % 16 ^ R.digits else R.fraction a / 16 ^ (-n).toNat

/-- An instance of `REAL`: its members together with what the spec demands of every instance. -/
structure RealModel extends RealOps where
  /-- R224: "`div(a, b)` returns `ZeroDivisor` only if `REAL.sign(b) = 0`". -/
  div_zeroDivisor : ∀ a b, div a b = .zeroDivisor → sign b = .zero
  /-- R195: "the zero divisor exception is raised for a real divisor that compares equal to zero", the operands being
  acceptable. -/
  div_zero : ∀ a b, sign b = .zero → valid a → valid b → div a b = .zeroDivisor
  /-- R264: "a real divide whose operands are both badly formed and zero reports X7, not X6" (D14; DEDUCED, log 19). -/
  div_zero_badlyFormed : ∀ a b, sign b = .zero → ¬(valid a ∧ valid b) → div a b = .realFormat
  /-- R224: "`REAL.sign(REAL.float(n))` is the sign of n". -/
  sign_float : ∀ n, sign (float n) = RealSign.ofInt n.toInt
  /-- R223 (3): "a zero fraction means the value zero". -/
  fraction_zero : fraction zero = 0
  sign_zero : sign zero = .zero
  /-- The fraction is `digits` hexadecimal digits (R223 (3)). -/
  fraction_lt : ∀ a, fraction a < 16 ^ digits
  /-- R224: `REAL.sign(a)` is "the sign of a compared to zero". -/
  sign_value : ∀ a, valid a → sign a = RealSign.ofRat (toRealOps.value a)
  /-- R228: "truncated toward zero". -/
  fix_value : ∀ a, valid a → fix a = (toRealOps.value a).num.tdiv (toRealOps.value a).den
  /-- R207: "The real format integer not greater algebraically than the real number", the greatest such. -/
  floor_value : ∀ a, valid a → valid (floor a) ∧ (toRealOps.value (floor a)).den = 1 ∧
    toRealOps.value (floor a) ≤ toRealOps.value a ∧
    ∀ w, valid w → (toRealOps.value w).den = 1 → toRealOps.value w ≤ toRealOps.value a →
      toRealOps.value w ≤ toRealOps.value (floor a)
  /-- R208: "The real format integer not smaller algebraically than the real number", the least such. -/
  ceil_value : ∀ a, valid a → valid (ceil a) ∧ (toRealOps.value (ceil a)).den = 1 ∧
    toRealOps.value a ≤ toRealOps.value (ceil a) ∧
    ∀ w, valid w → (toRealOps.value w).den = 1 → toRealOps.value a ≤ toRealOps.value w →
      toRealOps.value (ceil a) ≤ toRealOps.value w
  /-- R214: "If the resulting fraction is zero, so is the result." -/
  shiftr_zero : ∀ a n w, shiftr a n = some w → toRealOps.shiftedFraction a n = 0 → w = zero
  /-- R214: "Otherwise the shift count is subtracted from the exponent and the resulting value stored with the original sign". -/
  shiftr_parts : ∀ a n w, shiftr a n = some w → toRealOps.shiftedFraction a n ≠ 0 →
    negative w = negative a ∧ fraction w = toRealOps.shiftedFraction a n ∧ exponent w = exponent a - n
  /-- R214: "A count of zero returns the value unchanged (subject to the instance's validity check)"; a zero fraction is under
  `shiftr_zero` (log 12). -/
  shiftr_same : ∀ a w, shiftr a 0 = some w → fraction a ≠ 0 → w = a

/-- A witness that the demands on an instance can be met together, in which every word is the integer it holds. It is NOT the
EC-1's real format, and no meaning and no statement uses it. -/
def RealOps.integers : RealOps where
  valid _ := true
  negative a := a.toInt < 0
  exponent _ := 0
  fraction a := a.toInt.natAbs
  digits := 8
  zero := 0
  sign a := RealSign.ofInt a.toInt
  add a b := some (a + b)
  sub a b := some (a - b)
  mul a b := some (a * b)
  div a b := if b.toInt = 0 then .zeroDivisor else .ok (BitVec.ofInt 32 (a.toInt.tdiv b.toInt))
  short i := i.signExtend 32
  float n := n
  fix a := a.toInt
  floor a := a
  ceil a := a
  shiftr a n := if n = 0 then some a else if a.toInt.natAbs = 0 then some 0 else none

theorem RealOps.integers_value (a : Word) : RealOps.integers.value a = (a.toInt : ℚ) := by
  simp only [RealOps.value, RealOps.integers, zpow_zero, mul_one]
  by_cases h : a.toInt < 0
  · have : (a.toInt.natAbs : ℚ) = -(a.toInt : ℚ) := by
      rw [← Int.cast_natCast, Int.ofNat_natAbs_of_nonpos h.le, Int.cast_neg]
    simp [h, this]
  · have : (a.toInt.natAbs : ℚ) = (a.toInt : ℚ) := by
      rw [← Int.cast_natCast, Int.natAbs_of_nonneg (not_lt.mp h)]
    simp [h, this]

theorem RealOps.integers_fraction_lt (a : Word) : a.toInt.natAbs < 16 ^ 8 := by
  have h := BitVec.toInt_lt (x := a)
  have h' := BitVec.le_toInt (x := a)
  omega

/-- The members of `RealOps.integers` meet every demand. -/
def RealModel.integers : RealModel where
  toRealOps := RealOps.integers
  div_zeroDivisor a b h := by
    simp only [RealOps.integers] at h ⊢
    by_cases hb : b.toInt = 0
    · simp [RealSign.ofInt, hb]
    · simp [hb] at h
  div_zero a b h _ _ := by
    simp only [RealOps.integers, RealSign.ofInt] at h ⊢
    by_cases hb : b.toInt = 0
    · simp [hb]
    · simp only [hb, if_false] at h
      split at h <;> simp at h
  div_zero_badlyFormed _ _ _ h := absurd ⟨rfl, rfl⟩ h
  sign_float _ := rfl
  fraction_zero := by decide
  sign_zero := by decide
  fraction_lt := RealOps.integers_fraction_lt
  sign_value a _ := by
    rw [RealOps.integers_value]
    simp [RealOps.integers, RealSign.ofInt, RealSign.ofRat]
  fix_value a _ := by
    rw [RealOps.integers_value]
    simp [RealOps.integers]
  floor_value a _ := by
    refine ⟨rfl, ?_, le_refl _, fun w _ _ h => h⟩
    rw [RealOps.integers_value]
    simp
  ceil_value a _ := by
    refine ⟨rfl, ?_, le_refl _, fun w _ _ h => h⟩
    rw [RealOps.integers_value]
    simp
  shiftr_zero a n w h hz := by
    simp only [RealOps.integers, RealOps.shiftedFraction] at h hz ⊢
    have hlt := RealOps.integers_fraction_lt a
    by_cases hn : n = 0
    · subst hn
      simp only [if_true, Option.some.injEq] at h
      simp only [le_refl, if_true, Int.toNat_zero, pow_zero, mul_one, Nat.mod_eq_of_lt hlt, Int.natAbs_eq_zero] at hz
      subst h
      exact BitVec.eq_of_toInt_eq (by simpa using hz)
    · simp only [hn, if_false] at h
      split at h
      · simpa using h.symm
      · simp at h
  shiftr_parts a n w h hz := by
    simp only [RealOps.integers, RealOps.shiftedFraction] at h hz ⊢
    have hlt := RealOps.integers_fraction_lt a
    by_cases hn : n = 0
    · subst hn
      simp only [if_true, Option.some.injEq] at h
      subst h
      simp only [le_refl, if_true, Int.toNat_zero, pow_zero, mul_one, Nat.mod_eq_of_lt hlt, sub_zero, and_self]
    · simp only [hn, if_false] at h
      split at h
      · rename_i h0
        simp [h0] at hz
      · simp at h
  shiftr_same a w h _ := by
    simpa [RealOps.integers] using h.symm

/-- An instance of `REAL`, given only that there is one. It has no body: nothing can evaluate it or prove of it more than the
laws of `RealModel`. -/
opaque Config.realOf (h : Inhabited RealModel) : RealModel

/-- `REAL` (R224): left OPEN by the spec (D25, log 10). -/
def Config.real : RealModel := Config.realOf ⟨RealModel.integers⟩

end Sys2Proof
end

