-- ==== Sys2Proof/Syntax.lean ====
section
/-! DEFINITION. The 114 instructions, one constructor per row of the opcode table (R65), with the operands their formats give
them (R53 to R56). Fields an instruction ignores (`ign`, and bits 8 to 11 of EX) are kept, so that no bit of an encoding is
lost (R67). -/

namespace Sys2Proof

/-- The address fields of an RS or CH instruction (R54, R56): the indirect bit, the index register designator (`none` for the
value 0, which "means no indexing", R11) and the address field A. -/
structure MemOperand where
  indirect : Bool
  index : Option Reg
  addr : Addr
  deriving DecidableEq, Repr

/-- An instruction. `ind` is the indirect bit, `ign` an indirect bit the instruction ignores, `r1` and `r2` register
designators, `m1` a mask (in CCS and MCS the stride), `op` the address fields, `imm` the immediate operand. -/
inductive Instr where
  /-- LR, Load Register: RR, opcode 0x00 (R101) -/
  | lr (ind : Bool) (r1 r2 : Reg)
  /-- L, Load: RS, opcode 0x20 (R102) -/
  | l (r1 : Reg) (op : MemOperand)
  /-- LI, Load Immediate: IM, opcode 0x40 (R103) -/
  | li (ign : Bool) (r1 : Reg) (imm : Imm)
  /-- LC, Load Character: CH, opcode 0x60 (R104) -/
  | lc (r1 : Reg) (op : MemOperand)
  /-- LNR, Load Negative Register: RR, opcode 0x01 (R105) -/
  | lnr (ind : Bool) (r1 r2 : Reg)
  /-- LN, Load Negative: RS, opcode 0x21 (R106) -/
  | ln (r1 : Reg) (op : MemOperand)
  /-- LNI, Load Negative Immediate: IM, opcode 0x41 (R107) -/
  | lni (ign : Bool) (r1 : Reg) (imm : Imm)
  /-- LNC, Load Negative Character: CH, opcode 0x61 (R108) -/
  | lnc (r1 : Reg) (op : MemOperand)
  /-- STR, Store Register: RR, opcode 0x02 (R109) -/
  | str (ind : Bool) (r1 r2 : Reg)
  /-- ST, Store: RS, opcode 0x22 (R110) -/
  | st (r1 : Reg) (op : MemOperand)
  /-- STC, Store Character: CH, opcode 0x62 (R111) -/
  | stc (r1 : Reg) (op : MemOperand)
  /-- SWAPR, Swap Register: RR, opcode 0x03 (R112) -/
  | swapr (ind : Bool) (r1 r2 : Reg)
  /-- SWAP, Swap: RS, opcode 0x23 (R113) -/
  | swap (r1 : Reg) (op : MemOperand)
  /-- SWAPC, Swap Character: CH, opcode 0x63 (R114) -/
  | swapc (r1 : Reg) (op : MemOperand)
  /-- ANDR, AND Register: RR, opcode 0x04 (R115) -/
  | andr (ind : Bool) (r1 r2 : Reg)
  /-- AND, AND: RS, opcode 0x24 (R116) -/
  | and (r1 : Reg) (op : MemOperand)
  /-- ANDI, AND Immediate: IM, opcode 0x44 (R117) -/
  | andi (ign : Bool) (r1 : Reg) (imm : Imm)
  /-- ANDC, AND Character: CH, opcode 0x64 (R118) -/
  | andc (r1 : Reg) (op : MemOperand)
  /-- ORR, OR Register: RR, opcode 0x05 (R119) -/
  | orr (ind : Bool) (r1 r2 : Reg)
  /-- OR, OR: RS, opcode 0x25 (R120) -/
  | or (r1 : Reg) (op : MemOperand)
  /-- ORI, OR Immediate: IM, opcode 0x45 (R121) -/
  | ori (ign : Bool) (r1 : Reg) (imm : Imm)
  /-- ORC, OR Character: CH, opcode 0x65 (R122) -/
  | orc (r1 : Reg) (op : MemOperand)
  /-- XORR, Exclusive OR Register: RR, opcode 0x06 (R123) -/
  | xorr (ind : Bool) (r1 r2 : Reg)
  /-- XOR, Exclusive OR: RS, opcode 0x26 (R124) -/
  | xor (r1 : Reg) (op : MemOperand)
  /-- XORI, Exclusive OR Immediate: IM, opcode 0x46 (R125) -/
  | xori (ign : Bool) (r1 : Reg) (imm : Imm)
  /-- XORC, Exclusive OR Character: CH, opcode 0x66 (R126) -/
  | xorc (r1 : Reg) (op : MemOperand)
  /-- NOTR, NOT Register: RR, opcode 0x07 (R127) -/
  | notr (ind : Bool) (r1 r2 : Reg)
  /-- NOT, NOT: RS, opcode 0x27 (R128) -/
  | not (r1 : Reg) (op : MemOperand)
  /-- NOTI, NOT Immediate: IM, opcode 0x47 (R129) -/
  | noti (ign : Bool) (r1 : Reg) (imm : Imm)
  /-- NOTC, NOT Character: CH, opcode 0x67 (R130) -/
  | notc (r1 : Reg) (op : MemOperand)
  /-- BCSR, Branch Conditions Set Register: RR, opcode 0x08 (R131) -/
  | bcsr (ind : Bool) (m1 : Mask) (r2 : Reg)
  /-- BCS, Branch Conditions Set: RS, opcode 0x28 (R132) -/
  | bcs (m1 : Mask) (op : MemOperand)
  /-- BCRR, Branch Conditions Reset Register: RR, opcode 0x09 (R133) -/
  | bcrr (ind : Bool) (m1 : Mask) (r2 : Reg)
  /-- BCR, Branch Condition Reset: RS, opcode 0x29 (R134) -/
  | bcr (m1 : Mask) (op : MemOperand)
  /-- BALR, Branch and Link Register: RR, opcode 0x0A (R135) -/
  | balr (ind : Bool) (r1 r2 : Reg)
  /-- BAL, Branch and Link: RS, opcode 0x2A (R136) -/
  | bal (r1 : Reg) (op : MemOperand)
  /-- SACR, Save Condition Register: RR, opcode 0x0B (R137) -/
  | sacr (ind : Bool) (m1 : Mask) (r2 : Reg)
  /-- SAC, Save Condition: RS, opcode 0x2B (R138) -/
  | sac (m1 : Mask) (op : MemOperand)
  /-- SACC, Save Condition Character: CH, opcode 0x6B (R139) -/
  | sacc (m1 : Mask) (op : MemOperand)
  /-- CR, Compare Register: RR, opcode 0x0C (R140) -/
  | cr (ind : Bool) (r1 r2 : Reg)
  /-- C, Compare: RS, opcode 0x2C (R141) -/
  | c (r1 : Reg) (op : MemOperand)
  /-- CI, Compare Immediate: IM, opcode 0x4C (R142) -/
  | ci (ign : Bool) (r1 : Reg) (imm : Imm)
  /-- CC, Compare Character: CH, opcode 0x6C (R143) -/
  | cc (r1 : Reg) (op : MemOperand)
  /-- CCS, Compare Character String: RR, opcode 0x0E (R144) -/
  | ccs (ign : Bool) (m1 : Mask) (r2 : Reg)
  /-- MCS, Move Character String: RR, opcode 0x0F (R145) -/
  | mcs (ign : Bool) (m1 : Mask) (r2 : Reg)
  /-- SVC, Supervisor Call: RS, opcode 0x2E (R146) -/
  | svc (r1 : Reg) (op : MemOperand)
  /-- EX, Execute: RS, opcode 0x2F (R147) -/
  | ex (r1 : Reg) (op : MemOperand)
  /-- LA, Load Address: RS, opcode 0x4E (R148) -/
  | la (r1 : Reg) (op : MemOperand)
  /-- LM, Load Multiple: RS, opcode 0x6E (R149) -/
  | lm (ind : Bool) (r1 r2 : Reg) (addr : Addr)
  /-- STM, Store Multiple: RS, opcode 0x6F (R150) -/
  | stm (ind : Bool) (r1 r2 : Reg) (addr : Addr)
  /-- AR, Add Register: RR, opcode 0x10 (R151) -/
  | ar (ind : Bool) (r1 r2 : Reg)
  /-- A, Add: RS, opcode 0x30 (R152) -/
  | a (r1 : Reg) (op : MemOperand)
  /-- AI, Add Immediate: IM, opcode 0x50 (R153) -/
  | ai (ign : Bool) (r1 : Reg) (imm : Imm)
  /-- AC, Add Character: CH, opcode 0x70 (R154) -/
  | ac (r1 : Reg) (op : MemOperand)
  /-- SR, Subtract Register: RR, opcode 0x11 (R155) -/
  | sr (ind : Bool) (r1 r2 : Reg)
  /-- S, Subtract: RS, opcode 0x31 (R156) -/
  | s (r1 : Reg) (op : MemOperand)
  /-- SI, Subtract Immediate: IM, opcode 0x51 (R157) -/
  | si (ign : Bool) (r1 : Reg) (imm : Imm)
  /-- SC, Subtract Character: CH, opcode 0x71 (R158) -/
  | sc (r1 : Reg) (op : MemOperand)
  /-- RSR, Reverse Subtract Register: RR, opcode 0x12 (R159) -/
  | rsr (ind : Bool) (r1 r2 : Reg)
  /-- RS, Reverse Subtract: RS, opcode 0x32 (R160) -/
  | rs (r1 : Reg) (op : MemOperand)
  /-- RSI, Reverse Subtract Immediate: IM, opcode 0x52 (R161) -/
  | rsi (ign : Bool) (r1 : Reg) (imm : Imm)
  /-- RSC, Reverse Subtract Character: CH, opcode 0x72 (R162) -/
  | rsc (r1 : Reg) (op : MemOperand)
  /-- MR, Multiply Register: RR, opcode 0x13 (R163) -/
  | mr (ind : Bool) (r1 r2 : Reg)
  /-- M, Multiply: RS, opcode 0x33 (R164) -/
  | m (r1 : Reg) (op : MemOperand)
  /-- MI, Multiply Immediate: IM, opcode 0x53 (R165) -/
  | mi (ign : Bool) (r1 : Reg) (imm : Imm)
  /-- MC, Multiply Character: CH, opcode 0x73 (R166) -/
  | mc (r1 : Reg) (op : MemOperand)
  /-- DR, Divide Register: RR, opcode 0x14 (R167) -/
  | dr (ind : Bool) (r1 r2 : Reg)
  /-- D, Divide: RS, opcode 0x34 (R168) -/
  | d (r1 : Reg) (op : MemOperand)
  /-- DI, Divide Immediate: IM, opcode 0x54 (R169) -/
  | di (ign : Bool) (r1 : Reg) (imm : Imm)
  /-- DC, Divide Character: CH, opcode 0x74 (R170) -/
  | dc (r1 : Reg) (op : MemOperand)
  /-- RDR, Reverse Divide Register: RR, opcode 0x15 (R171) -/
  | rdr (ind : Bool) (r1 r2 : Reg)
  /-- RD, Reverse Divide: RS, opcode 0x35 (R172) -/
  | rd (r1 : Reg) (op : MemOperand)
  /-- RDI, Reverse Divide Immediate: IM, opcode 0x55 (R173) -/
  | rdi (ign : Bool) (r1 : Reg) (imm : Imm)
  /-- RDC, Reverse Divide Character: CH, opcode 0x75 (R174) -/
  | rdc (r1 : Reg) (op : MemOperand)
  /-- REMR, Remainder Register: RR, opcode 0x16 (R175) -/
  | remr (ind : Bool) (r1 r2 : Reg)
  /-- REM, Remainder: RS, opcode 0x36 (R176) -/
  | rem (r1 : Reg) (op : MemOperand)
  /-- REMI, Remainder Immediate: IM, opcode 0x56 (R177) -/
  | remi (ign : Bool) (r1 : Reg) (imm : Imm)
  /-- REMC, Remainder Character: CH, opcode 0x76 (R178) -/
  | remc (r1 : Reg) (op : MemOperand)
  /-- RREMR, Reverse Remainder Register: RR, opcode 0x17 (R179) -/
  | rremr (ind : Bool) (r1 r2 : Reg)
  /-- RREM, Reverse Remainder: RS, opcode 0x37 (R180) -/
  | rrem (r1 : Reg) (op : MemOperand)
  /-- RREMI, Reverse Remainder Immediate: IM, opcode 0x57 (R181) -/
  | rremi (ign : Bool) (r1 : Reg) (imm : Imm)
  /-- RREMC, Reverse Remainder Character: CH, opcode 0x77 (R182) -/
  | rremc (r1 : Reg) (op : MemOperand)
  /-- FAR, Real Add Register: RR, opcode 0x18 (R183) -/
  | far (ind : Bool) (r1 r2 : Reg)
  /-- FA, Real Add: RS, opcode 0x38 (R184) -/
  | fa (r1 : Reg) (op : MemOperand)
  /-- FAI, Real Add Immediate: IM, opcode 0x58 (R185) -/
  | fai (ign : Bool) (r1 : Reg) (imm : Imm)
  /-- FSR, Real Subtract Register: RR, opcode 0x19 (R186) -/
  | fsr (ind : Bool) (r1 r2 : Reg)
  /-- FS, Real Subtract: RS, opcode 0x39 (R187) -/
  | fs (r1 : Reg) (op : MemOperand)
  /-- FSI, Real Subtract Immediate: IM, opcode 0x59 (R188) -/
  | fsi (ign : Bool) (r1 : Reg) (imm : Imm)
  /-- RFSR, Reverse Real Subtract Register: RR, opcode 0x1A (R189) -/
  | rfsr (ind : Bool) (r1 r2 : Reg)
  /-- RFS, Reverse Real Subtract: RS, opcode 0x3A (R190) -/
  | rfs (r1 : Reg) (op : MemOperand)
  /-- RFSI, Reverse Real Subtract Immediate: IM, opcode 0x5A (R191) -/
  | rfsi (ign : Bool) (r1 : Reg) (imm : Imm)
  /-- FMR, Real Multiply Register: RR, opcode 0x1B (R192) -/
  | fmr (ind : Bool) (r1 r2 : Reg)
  /-- FM, Real Multiply: RS, opcode 0x3B (R193) -/
  | fm (r1 : Reg) (op : MemOperand)
  /-- FMI, Real Multiply Immediate: IM, opcode 0x5B (R194) -/
  | fmi (ign : Bool) (r1 : Reg) (imm : Imm)
  /-- FDR, Real Divide Register: RR, opcode 0x1C (R195) -/
  | fdr (ind : Bool) (r1 r2 : Reg)
  /-- FD, Real Divide: RS, opcode 0x3C (R196) -/
  | fd (r1 : Reg) (op : MemOperand)
  /-- FDI, Real Divide Immediate: IM, opcode 0x5C (R197) -/
  | fdi (ign : Bool) (r1 : Reg) (imm : Imm)
  /-- RFDR, Reverse Real Divide Register: RR, opcode 0x1D (R198) -/
  | rfdr (ind : Bool) (r1 r2 : Reg)
  /-- RFD, Reverse Real Divide: RS, opcode 0x3D (R199) -/
  | rfd (r1 : Reg) (op : MemOperand)
  /-- RFDI, Reverse Real Divide Immediate: IM, opcode 0x5D (R200) -/
  | rfdi (ign : Bool) (r1 : Reg) (imm : Imm)
  /-- FLOATR, Convert To Real Register: RR, opcode 0x1E (R201) -/
  | floatr (ind : Bool) (r1 r2 : Reg)
  /-- FLOAT, Convert To Real: RS, opcode 0x3E (R202) -/
  | float (r1 : Reg) (op : MemOperand)
  /-- FLOATI, Convert To Real Immediate: IM, opcode 0x5E (R203) -/
  | floati (ign : Bool) (r1 : Reg) (imm : Imm)
  /-- FIXR, Convert To Integer Register: RR, opcode 0x1F (R204) -/
  | fixr (ind : Bool) (r1 r2 : Reg)
  /-- FIX, Convert To Integer: RS, opcode 0x3F (R205) -/
  | fix (r1 : Reg) (op : MemOperand)
  /-- FIXI, Convert to Integer Immediate: IM, opcode 0x5F (R206) -/
  | fixi (ign : Bool) (r1 : Reg) (imm : Imm)
  /-- FLOOR, Real Floor: RS, opcode 0x78 (R207) -/
  | floor (r1 : Reg) (op : MemOperand)
  /-- CEIL, Real Ceiling: RS, opcode 0x79 (R208) -/
  | ceil (r1 : Reg) (op : MemOperand)
  /-- MIN, Minimum: RS, opcode 0x7A (R209) -/
  | min (r1 : Reg) (op : MemOperand)
  /-- MAX, Maximum: RS, opcode 0x7B (R210) -/
  | max (r1 : Reg) (op : MemOperand)
  /-- SHIFTL, Shift Logical: RS, opcode 0x7C (R211) -/
  | shiftl (r1 : Reg) (op : MemOperand)
  /-- SHIFTC, Shift Circular: RS, opcode 0x7D (R212) -/
  | shiftc (r1 : Reg) (op : MemOperand)
  /-- SHIFTA, Shift Arithmetic: RS, opcode 0x7E (R213) -/
  | shifta (r1 : Reg) (op : MemOperand)
  /-- SHIFTR, Shift Real: RS, opcode 0x7F (R214) -/
  | shiftr (r1 : Reg) (op : MemOperand)
  deriving DecidableEq, Repr

end Sys2Proof
end

