-- ==== Sys2Proof/WellFormed.lean ====
section
/-! DEFINITION. Which terms of `Instr` are instructions. Field widths are fixed by the types; what is left to check is that
no term names register 0 as an index register, since the value 0 of the designator means no indexing (R11, R59). -/

namespace Sys2Proof

/-- Register 0 "cannot be an index register" (R11). -/
def MemOperand.wf (op : MemOperand) : Bool := op.index != some 0

/-- The check of an instruction: that of its address fields, where it has an index register designator. -/
def Instr.wf : Instr → Bool
  | .lr _ _ _ => true
  | .l _ op => op.wf
  | .li _ _ _ => true
  | .lc _ op => op.wf
  | .lnr _ _ _ => true
  | .ln _ op => op.wf
  | .lni _ _ _ => true
  | .lnc _ op => op.wf
  | .str _ _ _ => true
  | .st _ op => op.wf
  | .stc _ op => op.wf
  | .swapr _ _ _ => true
  | .swap _ op => op.wf
  | .swapc _ op => op.wf
  | .andr _ _ _ => true
  | .and _ op => op.wf
  | .andi _ _ _ => true
  | .andc _ op => op.wf
  | .orr _ _ _ => true
  | .or _ op => op.wf
  | .ori _ _ _ => true
  | .orc _ op => op.wf
  | .xorr _ _ _ => true
  | .xor _ op => op.wf
  | .xori _ _ _ => true
  | .xorc _ op => op.wf
  | .notr _ _ _ => true
  | .not _ op => op.wf
  | .noti _ _ _ => true
  | .notc _ op => op.wf
  | .bcsr _ _ _ => true
  | .bcs _ op => op.wf
  | .bcrr _ _ _ => true
  | .bcr _ op => op.wf
  | .balr _ _ _ => true
  | .bal _ op => op.wf
  | .sacr _ _ _ => true
  | .sac _ op => op.wf
  | .sacc _ op => op.wf
  | .cr _ _ _ => true
  | .c _ op => op.wf
  | .ci _ _ _ => true
  | .cc _ op => op.wf
  | .ccs _ _ _ => true
  | .mcs _ _ _ => true
  | .svc _ op => op.wf
  | .ex _ op => op.wf
  | .la _ op => op.wf
  | .lm _ _ _ _ => true
  | .stm _ _ _ _ => true
  | .ar _ _ _ => true
  | .a _ op => op.wf
  | .ai _ _ _ => true
  | .ac _ op => op.wf
  | .sr _ _ _ => true
  | .s _ op => op.wf
  | .si _ _ _ => true
  | .sc _ op => op.wf
  | .rsr _ _ _ => true
  | .rs _ op => op.wf
  | .rsi _ _ _ => true
  | .rsc _ op => op.wf
  | .mr _ _ _ => true
  | .m _ op => op.wf
  | .mi _ _ _ => true
  | .mc _ op => op.wf
  | .dr _ _ _ => true
  | .d _ op => op.wf
  | .di _ _ _ => true
  | .dc _ op => op.wf
  | .rdr _ _ _ => true
  | .rd _ op => op.wf
  | .rdi _ _ _ => true
  | .rdc _ op => op.wf
  | .remr _ _ _ => true
  | .rem _ op => op.wf
  | .remi _ _ _ => true
  | .remc _ op => op.wf
  | .rremr _ _ _ => true
  | .rrem _ op => op.wf
  | .rremi _ _ _ => true
  | .rremc _ op => op.wf
  | .far _ _ _ => true
  | .fa _ op => op.wf
  | .fai _ _ _ => true
  | .fsr _ _ _ => true
  | .fs _ op => op.wf
  | .fsi _ _ _ => true
  | .rfsr _ _ _ => true
  | .rfs _ op => op.wf
  | .rfsi _ _ _ => true
  | .fmr _ _ _ => true
  | .fm _ op => op.wf
  | .fmi _ _ _ => true
  | .fdr _ _ _ => true
  | .fd _ op => op.wf
  | .fdi _ _ _ => true
  | .rfdr _ _ _ => true
  | .rfd _ op => op.wf
  | .rfdi _ _ _ => true
  | .floatr _ _ _ => true
  | .float _ op => op.wf
  | .floati _ _ _ => true
  | .fixr _ _ _ => true
  | .fix _ op => op.wf
  | .fixi _ _ _ => true
  | .floor _ op => op.wf
  | .ceil _ op => op.wf
  | .min _ op => op.wf
  | .max _ op => op.wf
  | .shiftl _ op => op.wf
  | .shiftc _ op => op.wf
  | .shifta _ op => op.wf
  | .shiftr _ op => op.wf

end Sys2Proof
end

