-- ==== Sys2Proof/Decode.lean ====
section
/-! DEFINITION. The decoder and the encoder, both written from the formats of R51 to R56 and the opcode map of R65: characters
to raw fields, raw fields to an instruction, and back. -/

namespace Sys2Proof

/-! ### Raw fields -/

/-- The fields every format shares (R51): the indirect bit (bit 0), the opcode (bits 1 to 7), bits 8 to 11 and 12 to 15, and
bits 16 to 31 (zero in a short instruction, which has none). -/
structure Fields where
  indirect : Bool
  opcode : Opcode
  n1 : BitVec 4
  n2 : BitVec 4
  low : BitVec 16
  deriving DecidableEq, Repr

/-- "the operation code (the opcode) in bits 1 through 7" of the first character (R51). -/
def opcodeOf (c0 : Byte) : Opcode := c0.extractLsb' 0 7

/-- "the indirect bit in bit 0" (R51). -/
def indirectOf (c0 : Byte) : Bool := c0.msb

/-- The fields of a long instruction from its four characters, the first character leftmost (R31, R54). -/
def Fields.ofBytes (c0 c1 c2 c3 : Byte) : Fields :=
  ⟨indirectOf c0, opcodeOf c0, c1.extractLsb' 4 4, c1.extractLsb' 0 4, c2 ++ c3⟩

/-- The fields of a short instruction (R53). -/
def Fields.ofShort (c0 c1 : Byte) : Fields :=
  ⟨indirectOf c0, opcodeOf c0, c1.extractLsb' 4 4, c1.extractLsb' 0 4, 0⟩

/-- A register designator as a register number. -/
def regOfBits (n : BitVec 4) : Reg := ⟨n.toNat, n.isLt⟩

/-- A register number as a register designator. -/
def bitsOfReg (r : Reg) : BitVec 4 := BitVec.ofNat 4 r.val

/-- The index register designator: "0 means no index" (R54, R59). -/
def indexOfBits (n : BitVec 4) : Option Reg := if n = 0 then none else some (regOfBits n)

/-- The designator of an index register, 0 for none. -/
def bitsOfIndex : Option Reg → BitVec 4
  | none => 0
  | some r => bitsOfReg r

/-- R1 of an instruction. -/
def Fields.r1 (f : Fields) : Reg := regOfBits f.n1

/-- R2 of an instruction. -/
def Fields.r2 (f : Fields) : Reg := regOfBits f.n2

/-- The address fields of an RS or CH instruction (R54, R56). -/
def Fields.operand (f : Fields) : MemOperand := ⟨f.indirect, indexOfBits f.n2, f.low⟩

/-- The immediate operand: instruction bits 12 to 31 (R62). -/
def Fields.imm (f : Fields) : Imm := f.n2 ++ f.low

/-! ### Lengths and unassigned opcodes -/

/-- "an instruction is short exactly when its format is RR", opcodes 0x00 to 0x1F (R52). -/
def isShort (op : Opcode) : Bool := op.toNat ≤ 0x1F

/-- The length of an instruction in characters (R50, R64 step 4). -/
def instrLength (op : Opcode) : Nat := if isShort op then 2 else 4

/-- The fourteen unimplemented opcodes (R66). -/
def unassignedOpcodes : List Opcode :=
  [0x0D, 0x2D, 0x42, 0x43, 0x48, 0x49, 0x4A, 0x4B, 0x4D, 0x4F, 0x68, 0x69, 0x6A, 0x6D]

/-- Is the opcode one of the 114 (R64 step 3)? -/
def isAssigned (op : Opcode) : Bool := !unassignedOpcodes.contains op

/-! ### Decoding -/

/-- The instruction with given fields, by the opcode map of R65; `none` for an unassigned opcode. -/
def Fields.instr? (f : Fields) : Option Instr :=
  match f.opcode with
  | 0x00#7 => some (.lr f.indirect f.r1 f.r2)
  | 0x01#7 => some (.lnr f.indirect f.r1 f.r2)
  | 0x02#7 => some (.str f.indirect f.r1 f.r2)
  | 0x03#7 => some (.swapr f.indirect f.r1 f.r2)
  | 0x04#7 => some (.andr f.indirect f.r1 f.r2)
  | 0x05#7 => some (.orr f.indirect f.r1 f.r2)
  | 0x06#7 => some (.xorr f.indirect f.r1 f.r2)
  | 0x07#7 => some (.notr f.indirect f.r1 f.r2)
  | 0x08#7 => some (.bcsr f.indirect f.n1 f.r2)
  | 0x09#7 => some (.bcrr f.indirect f.n1 f.r2)
  | 0x0A#7 => some (.balr f.indirect f.r1 f.r2)
  | 0x0B#7 => some (.sacr f.indirect f.n1 f.r2)
  | 0x0C#7 => some (.cr f.indirect f.r1 f.r2)
  | 0x0E#7 => some (.ccs f.indirect f.n1 f.r2)
  | 0x0F#7 => some (.mcs f.indirect f.n1 f.r2)
  | 0x10#7 => some (.ar f.indirect f.r1 f.r2)
  | 0x11#7 => some (.sr f.indirect f.r1 f.r2)
  | 0x12#7 => some (.rsr f.indirect f.r1 f.r2)
  | 0x13#7 => some (.mr f.indirect f.r1 f.r2)
  | 0x14#7 => some (.dr f.indirect f.r1 f.r2)
  | 0x15#7 => some (.rdr f.indirect f.r1 f.r2)
  | 0x16#7 => some (.remr f.indirect f.r1 f.r2)
  | 0x17#7 => some (.rremr f.indirect f.r1 f.r2)
  | 0x18#7 => some (.far f.indirect f.r1 f.r2)
  | 0x19#7 => some (.fsr f.indirect f.r1 f.r2)
  | 0x1A#7 => some (.rfsr f.indirect f.r1 f.r2)
  | 0x1B#7 => some (.fmr f.indirect f.r1 f.r2)
  | 0x1C#7 => some (.fdr f.indirect f.r1 f.r2)
  | 0x1D#7 => some (.rfdr f.indirect f.r1 f.r2)
  | 0x1E#7 => some (.floatr f.indirect f.r1 f.r2)
  | 0x1F#7 => some (.fixr f.indirect f.r1 f.r2)
  | 0x20#7 => some (.l f.r1 f.operand)
  | 0x21#7 => some (.ln f.r1 f.operand)
  | 0x22#7 => some (.st f.r1 f.operand)
  | 0x23#7 => some (.swap f.r1 f.operand)
  | 0x24#7 => some (.and f.r1 f.operand)
  | 0x25#7 => some (.or f.r1 f.operand)
  | 0x26#7 => some (.xor f.r1 f.operand)
  | 0x27#7 => some (.not f.r1 f.operand)
  | 0x28#7 => some (.bcs f.n1 f.operand)
  | 0x29#7 => some (.bcr f.n1 f.operand)
  | 0x2A#7 => some (.bal f.r1 f.operand)
  | 0x2B#7 => some (.sac f.n1 f.operand)
  | 0x2C#7 => some (.c f.r1 f.operand)
  | 0x2E#7 => some (.svc f.r1 f.operand)
  | 0x2F#7 => some (.ex f.r1 f.operand)
  | 0x30#7 => some (.a f.r1 f.operand)
  | 0x31#7 => some (.s f.r1 f.operand)
  | 0x32#7 => some (.rs f.r1 f.operand)
  | 0x33#7 => some (.m f.r1 f.operand)
  | 0x34#7 => some (.d f.r1 f.operand)
  | 0x35#7 => some (.rd f.r1 f.operand)
  | 0x36#7 => some (.rem f.r1 f.operand)
  | 0x37#7 => some (.rrem f.r1 f.operand)
  | 0x38#7 => some (.fa f.r1 f.operand)
  | 0x39#7 => some (.fs f.r1 f.operand)
  | 0x3A#7 => some (.rfs f.r1 f.operand)
  | 0x3B#7 => some (.fm f.r1 f.operand)
  | 0x3C#7 => some (.fd f.r1 f.operand)
  | 0x3D#7 => some (.rfd f.r1 f.operand)
  | 0x3E#7 => some (.float f.r1 f.operand)
  | 0x3F#7 => some (.fix f.r1 f.operand)
  | 0x40#7 => some (.li f.indirect f.r1 f.imm)
  | 0x41#7 => some (.lni f.indirect f.r1 f.imm)
  | 0x44#7 => some (.andi f.indirect f.r1 f.imm)
  | 0x45#7 => some (.ori f.indirect f.r1 f.imm)
  | 0x46#7 => some (.xori f.indirect f.r1 f.imm)
  | 0x47#7 => some (.noti f.indirect f.r1 f.imm)
  | 0x4C#7 => some (.ci f.indirect f.r1 f.imm)
  | 0x4E#7 => some (.la f.r1 f.operand)
  | 0x50#7 => some (.ai f.indirect f.r1 f.imm)
  | 0x51#7 => some (.si f.indirect f.r1 f.imm)
  | 0x52#7 => some (.rsi f.indirect f.r1 f.imm)
  | 0x53#7 => some (.mi f.indirect f.r1 f.imm)
  | 0x54#7 => some (.di f.indirect f.r1 f.imm)
  | 0x55#7 => some (.rdi f.indirect f.r1 f.imm)
  | 0x56#7 => some (.remi f.indirect f.r1 f.imm)
  | 0x57#7 => some (.rremi f.indirect f.r1 f.imm)
  | 0x58#7 => some (.fai f.indirect f.r1 f.imm)
  | 0x59#7 => some (.fsi f.indirect f.r1 f.imm)
  | 0x5A#7 => some (.rfsi f.indirect f.r1 f.imm)
  | 0x5B#7 => some (.fmi f.indirect f.r1 f.imm)
  | 0x5C#7 => some (.fdi f.indirect f.r1 f.imm)
  | 0x5D#7 => some (.rfdi f.indirect f.r1 f.imm)
  | 0x5E#7 => some (.floati f.indirect f.r1 f.imm)
  | 0x5F#7 => some (.fixi f.indirect f.r1 f.imm)
  | 0x60#7 => some (.lc f.r1 f.operand)
  | 0x61#7 => some (.lnc f.r1 f.operand)
  | 0x62#7 => some (.stc f.r1 f.operand)
  | 0x63#7 => some (.swapc f.r1 f.operand)
  | 0x64#7 => some (.andc f.r1 f.operand)
  | 0x65#7 => some (.orc f.r1 f.operand)
  | 0x66#7 => some (.xorc f.r1 f.operand)
  | 0x67#7 => some (.notc f.r1 f.operand)
  | 0x6B#7 => some (.sacc f.n1 f.operand)
  | 0x6C#7 => some (.cc f.r1 f.operand)
  | 0x6E#7 => some (.lm f.indirect f.r1 f.r2 f.low)
  | 0x6F#7 => some (.stm f.indirect f.r1 f.r2 f.low)
  | 0x70#7 => some (.ac f.r1 f.operand)
  | 0x71#7 => some (.sc f.r1 f.operand)
  | 0x72#7 => some (.rsc f.r1 f.operand)
  | 0x73#7 => some (.mc f.r1 f.operand)
  | 0x74#7 => some (.dc f.r1 f.operand)
  | 0x75#7 => some (.rdc f.r1 f.operand)
  | 0x76#7 => some (.remc f.r1 f.operand)
  | 0x77#7 => some (.rremc f.r1 f.operand)
  | 0x78#7 => some (.floor f.r1 f.operand)
  | 0x79#7 => some (.ceil f.r1 f.operand)
  | 0x7A#7 => some (.min f.r1 f.operand)
  | 0x7B#7 => some (.max f.r1 f.operand)
  | 0x7C#7 => some (.shiftl f.r1 f.operand)
  | 0x7D#7 => some (.shiftc f.r1 f.operand)
  | 0x7E#7 => some (.shifta f.r1 f.operand)
  | 0x7F#7 => some (.shiftr f.r1 f.operand)
  | _ => none

/-- Why characters are no instruction. -/
inductive DecodeError where
  /-- there is no character at all -/
  | noCharacters
  /-- "An illegal opcode" (R66), decided on the first character alone -/
  | unimplemented (op : Opcode)
  /-- the opcode is assigned and characters of the instruction are missing -/
  | truncated (op : Opcode)
  deriving DecidableEq, Repr

/-- The instruction with given fields, or the rejection of its opcode. -/
def Fields.decoded (f : Fields) (rest : List Byte) : Except DecodeError (Instr × List Byte) :=
  match f.instr? with
  | some i => .ok (i, rest)
  | none => .error (.unimplemented f.opcode)

/-- The first instruction of a list of characters and the characters after it (R64 steps 2 to 4). -/
def decode : List Byte → Except DecodeError (Instr × List Byte)
  | [] => .error .noCharacters
  | c0 :: tail =>
    if !isAssigned (opcodeOf c0) then .error (.unimplemented (opcodeOf c0))
    else if isShort (opcodeOf c0) then
      match tail with
      | c1 :: rest => (Fields.ofShort c0 c1).decoded rest
      | [] => .error (.truncated (opcodeOf c0))
    else
      match tail with
      | c1 :: c2 :: c3 :: rest => (Fields.ofBytes c0 c1 c2 c3).decoded rest
      | _ => .error (.truncated (opcodeOf c0))

/-! ### Encoding -/

/-- The fields of an RR instruction (R53). -/
def Fields.ofRR (opcode : Opcode) (ind : Bool) (n1 : BitVec 4) (r2 : Reg) : Fields := ⟨ind, opcode, n1, bitsOfReg r2, 0⟩

/-- The fields of an RS or CH instruction (R54, R56). -/
def Fields.ofMem (opcode : Opcode) (n1 : BitVec 4) (op : MemOperand) : Fields :=
  ⟨op.indirect, opcode, n1, bitsOfIndex op.index, op.addr⟩

/-- The fields of an IM instruction (R55). -/
def Fields.ofImm (opcode : Opcode) (ign : Bool) (r1 : Reg) (imm : Imm) : Fields :=
  ⟨ign, opcode, bitsOfReg r1, imm.extractLsb' 16 4, imm.extractLsb' 0 16⟩

/-- The fields of an instruction, by the opcode map of R65. -/
def Instr.fields : Instr → Fields
  | .lr ind r1 r2 => .ofRR 0x00 ind (bitsOfReg r1) r2
  | .l r1 op => .ofMem 0x20 (bitsOfReg r1) op
  | .li ign r1 imm => .ofImm 0x40 ign r1 imm
  | .lc r1 op => .ofMem 0x60 (bitsOfReg r1) op
  | .lnr ind r1 r2 => .ofRR 0x01 ind (bitsOfReg r1) r2
  | .ln r1 op => .ofMem 0x21 (bitsOfReg r1) op
  | .lni ign r1 imm => .ofImm 0x41 ign r1 imm
  | .lnc r1 op => .ofMem 0x61 (bitsOfReg r1) op
  | .str ind r1 r2 => .ofRR 0x02 ind (bitsOfReg r1) r2
  | .st r1 op => .ofMem 0x22 (bitsOfReg r1) op
  | .stc r1 op => .ofMem 0x62 (bitsOfReg r1) op
  | .swapr ind r1 r2 => .ofRR 0x03 ind (bitsOfReg r1) r2
  | .swap r1 op => .ofMem 0x23 (bitsOfReg r1) op
  | .swapc r1 op => .ofMem 0x63 (bitsOfReg r1) op
  | .andr ind r1 r2 => .ofRR 0x04 ind (bitsOfReg r1) r2
  | .and r1 op => .ofMem 0x24 (bitsOfReg r1) op
  | .andi ign r1 imm => .ofImm 0x44 ign r1 imm
  | .andc r1 op => .ofMem 0x64 (bitsOfReg r1) op
  | .orr ind r1 r2 => .ofRR 0x05 ind (bitsOfReg r1) r2
  | .or r1 op => .ofMem 0x25 (bitsOfReg r1) op
  | .ori ign r1 imm => .ofImm 0x45 ign r1 imm
  | .orc r1 op => .ofMem 0x65 (bitsOfReg r1) op
  | .xorr ind r1 r2 => .ofRR 0x06 ind (bitsOfReg r1) r2
  | .xor r1 op => .ofMem 0x26 (bitsOfReg r1) op
  | .xori ign r1 imm => .ofImm 0x46 ign r1 imm
  | .xorc r1 op => .ofMem 0x66 (bitsOfReg r1) op
  | .notr ind r1 r2 => .ofRR 0x07 ind (bitsOfReg r1) r2
  | .not r1 op => .ofMem 0x27 (bitsOfReg r1) op
  | .noti ign r1 imm => .ofImm 0x47 ign r1 imm
  | .notc r1 op => .ofMem 0x67 (bitsOfReg r1) op
  | .bcsr ind m1 r2 => .ofRR 0x08 ind m1 r2
  | .bcs m1 op => .ofMem 0x28 m1 op
  | .bcrr ind m1 r2 => .ofRR 0x09 ind m1 r2
  | .bcr m1 op => .ofMem 0x29 m1 op
  | .balr ind r1 r2 => .ofRR 0x0A ind (bitsOfReg r1) r2
  | .bal r1 op => .ofMem 0x2A (bitsOfReg r1) op
  | .sacr ind m1 r2 => .ofRR 0x0B ind m1 r2
  | .sac m1 op => .ofMem 0x2B m1 op
  | .sacc m1 op => .ofMem 0x6B m1 op
  | .cr ind r1 r2 => .ofRR 0x0C ind (bitsOfReg r1) r2
  | .c r1 op => .ofMem 0x2C (bitsOfReg r1) op
  | .ci ign r1 imm => .ofImm 0x4C ign r1 imm
  | .cc r1 op => .ofMem 0x6C (bitsOfReg r1) op
  | .ccs ign m1 r2 => .ofRR 0x0E ign m1 r2
  | .mcs ign m1 r2 => .ofRR 0x0F ign m1 r2
  | .svc r1 op => .ofMem 0x2E (bitsOfReg r1) op
  | .ex r1 op => .ofMem 0x2F (bitsOfReg r1) op
  | .la r1 op => .ofMem 0x4E (bitsOfReg r1) op
  | .lm ind r1 r2 addr => ⟨ind, 0x6E, bitsOfReg r1, bitsOfReg r2, addr⟩
  | .stm ind r1 r2 addr => ⟨ind, 0x6F, bitsOfReg r1, bitsOfReg r2, addr⟩
  | .ar ind r1 r2 => .ofRR 0x10 ind (bitsOfReg r1) r2
  | .a r1 op => .ofMem 0x30 (bitsOfReg r1) op
  | .ai ign r1 imm => .ofImm 0x50 ign r1 imm
  | .ac r1 op => .ofMem 0x70 (bitsOfReg r1) op
  | .sr ind r1 r2 => .ofRR 0x11 ind (bitsOfReg r1) r2
  | .s r1 op => .ofMem 0x31 (bitsOfReg r1) op
  | .si ign r1 imm => .ofImm 0x51 ign r1 imm
  | .sc r1 op => .ofMem 0x71 (bitsOfReg r1) op
  | .rsr ind r1 r2 => .ofRR 0x12 ind (bitsOfReg r1) r2
  | .rs r1 op => .ofMem 0x32 (bitsOfReg r1) op
  | .rsi ign r1 imm => .ofImm 0x52 ign r1 imm
  | .rsc r1 op => .ofMem 0x72 (bitsOfReg r1) op
  | .mr ind r1 r2 => .ofRR 0x13 ind (bitsOfReg r1) r2
  | .m r1 op => .ofMem 0x33 (bitsOfReg r1) op
  | .mi ign r1 imm => .ofImm 0x53 ign r1 imm
  | .mc r1 op => .ofMem 0x73 (bitsOfReg r1) op
  | .dr ind r1 r2 => .ofRR 0x14 ind (bitsOfReg r1) r2
  | .d r1 op => .ofMem 0x34 (bitsOfReg r1) op
  | .di ign r1 imm => .ofImm 0x54 ign r1 imm
  | .dc r1 op => .ofMem 0x74 (bitsOfReg r1) op
  | .rdr ind r1 r2 => .ofRR 0x15 ind (bitsOfReg r1) r2
  | .rd r1 op => .ofMem 0x35 (bitsOfReg r1) op
  | .rdi ign r1 imm => .ofImm 0x55 ign r1 imm
  | .rdc r1 op => .ofMem 0x75 (bitsOfReg r1) op
  | .remr ind r1 r2 => .ofRR 0x16 ind (bitsOfReg r1) r2
  | .rem r1 op => .ofMem 0x36 (bitsOfReg r1) op
  | .remi ign r1 imm => .ofImm 0x56 ign r1 imm
  | .remc r1 op => .ofMem 0x76 (bitsOfReg r1) op
  | .rremr ind r1 r2 => .ofRR 0x17 ind (bitsOfReg r1) r2
  | .rrem r1 op => .ofMem 0x37 (bitsOfReg r1) op
  | .rremi ign r1 imm => .ofImm 0x57 ign r1 imm
  | .rremc r1 op => .ofMem 0x77 (bitsOfReg r1) op
  | .far ind r1 r2 => .ofRR 0x18 ind (bitsOfReg r1) r2
  | .fa r1 op => .ofMem 0x38 (bitsOfReg r1) op
  | .fai ign r1 imm => .ofImm 0x58 ign r1 imm
  | .fsr ind r1 r2 => .ofRR 0x19 ind (bitsOfReg r1) r2
  | .fs r1 op => .ofMem 0x39 (bitsOfReg r1) op
  | .fsi ign r1 imm => .ofImm 0x59 ign r1 imm
  | .rfsr ind r1 r2 => .ofRR 0x1A ind (bitsOfReg r1) r2
  | .rfs r1 op => .ofMem 0x3A (bitsOfReg r1) op
  | .rfsi ign r1 imm => .ofImm 0x5A ign r1 imm
  | .fmr ind r1 r2 => .ofRR 0x1B ind (bitsOfReg r1) r2
  | .fm r1 op => .ofMem 0x3B (bitsOfReg r1) op
  | .fmi ign r1 imm => .ofImm 0x5B ign r1 imm
  | .fdr ind r1 r2 => .ofRR 0x1C ind (bitsOfReg r1) r2
  | .fd r1 op => .ofMem 0x3C (bitsOfReg r1) op
  | .fdi ign r1 imm => .ofImm 0x5C ign r1 imm
  | .rfdr ind r1 r2 => .ofRR 0x1D ind (bitsOfReg r1) r2
  | .rfd r1 op => .ofMem 0x3D (bitsOfReg r1) op
  | .rfdi ign r1 imm => .ofImm 0x5D ign r1 imm
  | .floatr ind r1 r2 => .ofRR 0x1E ind (bitsOfReg r1) r2
  | .float r1 op => .ofMem 0x3E (bitsOfReg r1) op
  | .floati ign r1 imm => .ofImm 0x5E ign r1 imm
  | .fixr ind r1 r2 => .ofRR 0x1F ind (bitsOfReg r1) r2
  | .fix r1 op => .ofMem 0x3F (bitsOfReg r1) op
  | .fixi ign r1 imm => .ofImm 0x5F ign r1 imm
  | .floor r1 op => .ofMem 0x78 (bitsOfReg r1) op
  | .ceil r1 op => .ofMem 0x79 (bitsOfReg r1) op
  | .min r1 op => .ofMem 0x7A (bitsOfReg r1) op
  | .max r1 op => .ofMem 0x7B (bitsOfReg r1) op
  | .shiftl r1 op => .ofMem 0x7C (bitsOfReg r1) op
  | .shiftc r1 op => .ofMem 0x7D (bitsOfReg r1) op
  | .shifta r1 op => .ofMem 0x7E (bitsOfReg r1) op
  | .shiftr r1 op => .ofMem 0x7F (bitsOfReg r1) op

/-- The characters of an instruction with given fields, in ascending address order (R31, R51). -/
def Fields.toBytes (f : Fields) : List Byte :=
  let first : Byte := BitVec.ofBool f.indirect ++ f.opcode
  let second : Byte := f.n1 ++ f.n2
  if isShort f.opcode then [first, second] else [first, second, f.low.extractLsb' 8 8, f.low.extractLsb' 0 8]

/-- The characters of an instruction. -/
def encode (i : Instr) : List Byte := i.fields.toBytes

/-! ### Words of the opcode table -/

/-- The characters of the instruction whose bits the opcode table numbers as `w`: a row is one number of 16 or 32 bits whose
leftmost character is the instruction's first, laid out as the hardware stores it (R31), with zeros up to the longest
instruction. -/
def tableBytes (nbits w : Nat) : List Byte :=
  let n := (nbits + 7) / 8
  ((List.range n).map (fun j => BitVec.ofNat 8 (w >>> (8 * (n - 1 - j)))) ++ [0, 0, 0, 0]).take (max n 4)

/-- The instruction the decoder reads from a word of the opcode table. -/
def decodeTableWord (nbits w : Nat) : Option Instr :=
  match decode (tableBytes nbits w) with
  | .ok (i, _) => some i
  | .error _ => none

end Sys2Proof
end

