-- ==== Sys2Proof/Machine/State.lean ====
section
/-! DEFINITION. The state of the EC-1 (10_state.md), the outcome of a run (R262), the reasons the model itself stops, and the
state a run starts from. -/

namespace Sys2Proof.Machine

/-- The condition code register: O (Overflow), G (Greater than), L (Less than), E (Equal) (R18). -/
structure Ccr where
  o : Bool
  g : Bool
  l : Bool
  e : Bool
  deriving DecidableEq, Repr

/-- The seven exceptions, each with the detail the spec records for it (R260). -/
inductive Exception where
  /-- X1: the ILC is odd at the beginning of a cycle; the odd pc -/
  | illegalInstructionAddress (pc : Addr)
  /-- X2: an illegal opcode; the address of the character and its opcode bits -/
  | unimplementedInstruction (addr : Addr) (op : Opcode)
  /-- X3: the indirect field does not begin on an even boundary; the odd A -/
  | indirectAddress (a : Addr)
  /-- X4: a word operand not on a word boundary; the misaligned effective address -/
  | wordAddressing (ea : Addr)
  /-- X5: the effective address of EX is odd; that address -/
  | executeAddress (ea : Addr)
  /-- X6: the divisor is zero -/
  | zeroDivisor
  /-- X7: the `REAL` member called returns `RealFormat` (R226) -/
  | realFormat
  deriving DecidableEq, Repr

/-- The outcome of a run (R262). -/
inductive RunOutcome where
  /-- may take another cycle -/
  | running
  /-- the instruction at `ia` raised an exception and the run has ended (R263) -/
  | fault (e : Exception) (ia : Addr)
  /-- the SVC at `ia` was executed and the run has ended (R267) -/
  | supervisorCall (ia : Addr) (r1 : Reg) (ea : Addr)
  deriving DecidableEq, Repr

/-- The characters of memory that differ from what an unlisted address reads as: (address, character) pairs, addresses
strictly rising, none equal to the unlisted character (`Memory.wf`). -/
abbrev Memory := List Host.Cell

/-- The state of the machine. -/
structure State where
  /-- the general registers x[0] to x[15] (R10) -/
  regs : Vector Word 16
  /-- the ILC (R15) -/
  pc : Addr
  /-- the condition code register (R18) -/
  ccr : Ccr
  /-- memory (R25) -/
  mem : Memory
  /-- the outcome of the run (R262) -/
  outcome : RunOutcome
  /-- the address of the instruction being executed (R64 step 5, R263): under EX the outermost EX -/
  ia : Addr
  /-- the open parameters (R2's table), which no step changes: the model's own field (log 5) -/
  params : Params
  deriving DecidableEq, Repr

/-- Why the machine stops without a next state. -/
inductive Fault where
  /-- An access touched an address at or above `MEM_SIZE`, for which there is no rule (R38, U2). Raised by any fetch, read or
  write of memory; `a` is the address of the access. Safe: the machine takes no step. -/
  | absentMemory (a : Addr)
  /-- A chain of EX returned to an address already visited: "the machine makes no further step and no exception is defined
  for it" (R147, U7). Raised by EX alone. Safe: the machine takes no step. -/
  | executeNeverCompletes
  /-- The run has ended: "A machine whose outcome is not `Running` takes no further cycle" (R262, U5, U6). Raised by `step`
  alone. Safe: what the environment does next is not the machine's. -/
  | runEnded
  deriving DecidableEq, Repr

/-- Why an instruction has no meaning. -/
inductive Refusal where
  /-- An instruction without a meaning. No arm of `exec` answers it. Safe: the machine takes no step. -/
  | notModelled (mnemonic : String)
  deriving DecidableEq, Repr

/-- The outcome of one step of this machine. -/
abbrev Result := Host.Outcome State Fault Refusal

/-- A run's start: the outcome is Running (R27). Every other value is unspecified (R27, R290) and is the model's choice: pc
and ia 0x0100, registers zero, no flag set, every character of memory zero, the open parameters at the spec's defaults (logs
1 to 5). -/
def State.reset : State where
  regs := Vector.replicate 16 0
  pc := 0x0100
  ccr := ⟨false, false, false, false⟩
  mem := []
  outcome := .running
  ia := 0x0100
  params := ⟨65536, .none⟩

end Sys2Proof.Machine
end

