-- ==== Sys2Proof/Machine/Ops.lean ====
section
/-! DEFINITION. The named operations over memory and registers (20_memory.md), taking an exception (R261, R262), and how an
instruction's work becomes the outcome of a step. -/

namespace Sys2Proof.Machine

/-! ### Slices of a word (R3, R31) -/

/-- `v[16:31]`: the low-order 16 bits, where a register holds an address (R13). -/
def lowHalf (v : Word) : BitVec 16 := v.extractLsb' 0 16

/-- `v[0:15]`: the high-order 16 bits. -/
def highHalf (v : Word) : BitVec 16 := v.extractLsb' 16 16

/-- `v[24:31]`: the low-order character. -/
def lowChar (v : Word) : Byte := v.extractLsb' 0 8

/-- `v[0:23] ++ c`: the word with its low-order character replaced. -/
def withLowChar (v : Word) (c : Byte) : Word := v.extractLsb' 8 24 ++ c

/-- `v[8k : 8k+7]`: character k of a word, k = 0 the leftmost (R31). -/
def charOfWord (v : Word) (k : Nat) : Byte := v.extractLsb' (24 - 8 * k) 8

/-- Four characters as a word, the first leftmost (R31). -/
def wordOfChars (c0 c1 c2 c3 : Byte) : Word := c0 ++ c1 ++ c2 ++ c3

/-- The word with its character k replaced. -/
def withCharOfWord (v : Word) (k : Nat) (c : Byte) : Word :=
  wordOfChars (if k = 0 then c else charOfWord v 0) (if k = 1 then c else charOfWord v 1)
    (if k = 2 then c else charOfWord v 2) (if k = 3 then c else charOfWord v 3)

/-! ### Memory as a list of characters (R25, R30) -/

/-- What an address that is not listed reads as: R27 leaves the launch contents unspecified (DESIGN CHOICE, log 4). -/
def Memory.unlisted : Byte := 0

/-- The character at an address. -/
def Memory.read : Memory → Nat → Byte
  | [], _ => Memory.unlisted
  | (b, v) :: m, a => if a = b then v else if a < b then Memory.unlisted else Memory.read m a

/-- Memory with the character at an address replaced; the form stays canonical. -/
def Memory.write : Memory → Nat → Byte → Memory
  | [], a, v => if v = Memory.unlisted then [] else [(a, v)]
  | (b, w) :: m, a, v =>
    if a < b then (if v = Memory.unlisted then (b, w) :: m else (a, v) :: (b, w) :: m)
    else if a = b then (if v = Memory.unlisted then m else (b, v) :: m)
    else (b, w) :: Memory.write m a v

/-- The canonical form from an address on: addresses strictly rising and below 65536, no unlisted character. -/
def Memory.wfFrom : Nat → Memory → Bool
  | _, [] => true
  | lo, (a, v) :: m => lo ≤ a && a < 65536 && v != Memory.unlisted && Memory.wfFrom (a + 1) m

/-- The canonical form. -/
def Memory.wf (m : Memory) : Bool := Memory.wfFrom 0 m

/-! ### Registers and flags -/

/-- `x[r]` (R10: no register is hardwired, every one can be read). -/
def State.reg (s : State) (r : Reg) : Word := s.regs[r]

/-- `x[r] <- v`. -/
def State.setReg (s : State) (r : Reg) (v : Word) : State := { s with regs := s.regs.set r v }

/-- `CCR <- c`: all four flags are written (R19). -/
def State.setCcr (s : State) (c : Ccr) : State := { s with ccr := c }

/-- `pc <- t`. -/
def State.setPc (s : State) (t : Addr) : State := { s with pc := t }

/-! ### Characters of memory under either value of `REG_MEM_ALIAS` (R14) -/

/-- Is the character at this address a character of a general register? -/
def State.inRegs (s : State) (a : Addr) : Bool := s.params.regMemAlias == .low64 && a.toNat < 64

/-- The register that holds the character at an address below 64: "register a div 4" (R14). -/
def regAt (a : Addr) : Reg := Fin.ofNat 16 (a.toNat / 4)

/-- The character at an address (R30, R14). -/
def State.byteAt (s : State) (a : Addr) : Byte :=
  if s.inRegs a then charOfWord (s.reg (regAt a)) (a.toNat % 4) else Memory.read s.mem a.toNat

/-- The state with the character at an address replaced (R30, R14). -/
def State.putByte (s : State) (a : Addr) (c : Byte) : State :=
  if s.inRegs a then s.setReg (regAt a) (withCharOfWord (s.reg (regAt a)) (a.toNat % 4) c)
  else { s with mem := Memory.write s.mem a.toNat c }

/-- The two characters from an address on (R30). -/
def State.halfAt (s : State) (a : Addr) : BitVec 16 := s.byteAt a ++ s.byteAt (a + 1)

/-- The four characters from an address on (R30). -/
def State.wordAt (s : State) (a : Addr) : Word :=
  wordOfChars (s.byteAt a) (s.byteAt (a + 1)) (s.byteAt (a + 2)) (s.byteAt (a + 3))

/-- The state with the four characters from an address on replaced (R30). -/
def State.putWord (s : State) (a : Addr) (v : Word) : State :=
  (((s.putByte a (charOfWord v 0)).putByte (a + 1) (charOfWord v 1)).putByte (a + 2) (charOfWord v 2)).putByte (a + 3)
    (charOfWord v 3)

/-- Characters stored at ascending addresses. -/
def State.putBytes (s : State) : Addr → List Byte → State
  | _, [] => s
  | a, c :: cs => (s.putByte a c).putBytes (a + 1) cs

/-- Do the n characters from an address on all exist (R38)? -/
def State.present (s : State) (a : Addr) (n : Nat) : Bool :=
  (List.range n).all fun k => (a + BitVec.ofNat 16 k).toNat < s.params.memSize

/-! ### Why an instruction does not complete -/

/-- What ends an instruction before it has an effect. -/
inductive Stop where
  /-- `raise` (R261) -/
  | raise (e : Exception)
  /-- an access outside `MEM_SIZE` (R38) -/
  | absent (a : Addr)
  /-- an endless chain of EX (R147) -/
  | endless
  deriving DecidableEq, Repr

/-- `MemRead(a, 1)` (R30, R38). -/
def State.memRead1 (s : State) (a : Addr) : Except Stop Byte :=
  if s.present a 1 then .ok (s.byteAt a) else .error (.absent a)

/-- `MemRead(a, 2)` (R30, R38). -/
def State.memRead2 (s : State) (a : Addr) : Except Stop (BitVec 16) :=
  if s.present a 2 then .ok (s.halfAt a) else .error (.absent a)

/-- `MemRead(a, 4)` (R30, R38). -/
def State.memRead4 (s : State) (a : Addr) : Except Stop Word :=
  if s.present a 4 then .ok (s.wordAt a) else .error (.absent a)

/-- `MemWrite(a, 1, c)` (R30, R38). -/
def State.memWrite1 (s : State) (a : Addr) (c : Byte) : Except Stop State :=
  if s.present a 1 then .ok (s.putByte a c) else .error (.absent a)

/-- `MemWrite(a, 4, v)` (R30, R38). -/
def State.memWrite4 (s : State) (a : Addr) (v : Word) : Except Stop State :=
  if s.present a 4 then .ok (s.putWord a v) else .error (.absent a)

/-! ### Taking an exception, and the end of an instruction -/

/-- Taking an exception: nothing of the instruction takes effect, pc is "restored to the address of the faulting
instruction", and the outcome becomes `Fault(Xk, ia, detail)` (R261, R262, R263). There is no vector, no saved state and no
mode (R265), and no instruction returns from an exception (R266). -/
def State.takeException (s : State) (e : Exception) : State := { s with pc := s.ia, outcome := .fault e s.ia }

/-- How a stopped instruction ends the step, from the state before it. -/
def State.stop (s : State) : Stop → Result
  | .raise e => .next (s.takeException e)
  | .absent a => .fault (.absentMemory a)
  | .endless => .fault .executeNeverCompletes

/-- The outcome of an instruction executed in state s whose work gave r: its new state, or, with nothing of it written, what
stopped it (R261). -/
def State.finish (s : State) (r : Except Stop State) : Result :=
  match r with
  | .ok t => .next t
  | .error e => s.stop e

end Sys2Proof.Machine
end

