-- ==== Sys2Proof/Machine/Flags.lean ====
section
/-! DEFINITION. The values an instruction gives the condition code register: comparison, classification, overflow, the real
comparison, and the mask test (R18 to R22, R221, R225). -/

namespace Sys2Proof.Machine

/-- `{}`: no flag set. -/
def Ccr.empty : Ccr := ⟨false, false, false, false⟩
/-- `{O}` -/
def Ccr.onlyO : Ccr := ⟨true, false, false, false⟩
/-- `{G}` -/
def Ccr.onlyG : Ccr := ⟨false, true, false, false⟩
/-- `{L}` -/
def Ccr.onlyL : Ccr := ⟨false, false, true, false⟩
/-- `{E}` -/
def Ccr.onlyE : Ccr := ⟨false, false, false, true⟩

/-- `(if o then {O} else {}) union c`, for a c without O (R211, R213). -/
def Ccr.withO (c : Ccr) (o : Bool) : Ccr := { c with o := o }

/-- `cmpS(a, b)`: two's complement comparison (R20). -/
def cmpS (a b : Word) : Ccr :=
  if a.toInt < b.toInt then .onlyL else if a.toInt = b.toInt then .onlyE else .onlyG

/-- `cmpU(a, b)` of two characters: unsigned comparison (R20). -/
def cmpU (a b : Byte) : Ccr :=
  if a.toNat < b.toNat then .onlyL else if a.toNat = b.toNat then .onlyE else .onlyG

/-- `classify(v, n)`: all ones, all zeros, or mixed (R21). -/
def classify {n : Nat} (v : BitVec n) : Ccr :=
  if v = BitVec.allOnes n then .onlyG else if v = 0 then .onlyE else .onlyL

/-- Is an exact integer a 32-bit two's complement integer? If not, the operation overflows (R221). -/
def fitsWord (n : Int) : Bool := -2 ^ 31 ≤ n && n ≤ 2 ^ 31 - 1

/-- `W(n)`: the low-order 32 bits of an integer. -/
def wordOfInt (n : Int) : Word := BitVec.ofInt 32 n

/-- The CCR after an operation whose exact result is n: "If overflow occurs, only the O bit of the CCR is set" (R221). -/
def arithCcr (n : Int) : Ccr := if fitsWord n then cmpS (wordOfInt n) 0 else .onlyO

/-- `rcmp0(w)`: a real result compared to zero (R225). -/
def rcmp0 (w : Word) : Ccr :=
  match Config.real.sign w with
  | .positive => .onlyG
  | .negative => .onlyL
  | .zero => .onlyE

/-- The CCR as a 4-bit number in a given order of its flags (R22). -/
def Ccr.bits (c : Ccr) : CcrBitOrder → BitVec 4
  | .ogle => BitVec.ofBool c.o ++ BitVec.ofBool c.g ++ BitVec.ofBool c.l ++ BitVec.ofBool c.e
  | .olge => BitVec.ofBool c.o ++ BitVec.ofBool c.l ++ BitVec.ofBool c.g ++ BitVec.ofBool c.e

/-- `masktest(M)` (R22), in the order the spec decides. -/
def Ccr.masktest (c : Ccr) (m : Mask) : Bool := (c.bits Config.ccrBitOrder &&& m) != 0

end Sys2Proof.Machine
end

