-- ==== Sys2Proof/Machine/Operands.lean ====
section
/-! DEFINITION. Operand locations and effective addresses of the four formats (R57 to R63), and how an instruction reads its
operand. -/

namespace Sys2Proof.Machine

/-- A word operand's location: a register or the word at an address (R57). -/
inductive WordLoc where
  | reg (r : Reg)
  | mem (a : Addr)
  deriving DecidableEq, Repr

/-- `RRloc(I, R2)` (R57). -/
def State.rrLoc (s : State) (ind : Bool) (r2 : Reg) : WordLoc :=
  if ind then .mem (lowHalf (s.reg r2)) else .reg r2

/-- "an address divisible by 4" (R33). -/
def onWordBoundary (a : Addr) : Bool := a.toNat % 4 == 0

/-- "an even-character boundary" (R33). -/
def isEven (a : Addr) : Bool := a.toNat % 2 == 0

/-- `ReadW(loc)` with the word-addressing check (R58). -/
def State.readW (s : State) : WordLoc → Except Stop Word
  | .reg r => .ok (s.reg r)
  | .mem a => if onWordBoundary a then s.memRead4 a else .error (.raise (.wordAddressing a))

/-- `WriteW(loc, v)` with the word-addressing check (R58). -/
def State.writeW (s : State) (loc : WordLoc) (v : Word) : Except Stop State :=
  match loc with
  | .reg r => .ok (s.setReg r v)
  | .mem a => if onWordBoundary a then s.memWrite4 a v else .error (.raise (.wordAddressing a))

/-- What the index register designator adds: bits 16 to 31 of the register, nothing for designator 0 (R59, R11). -/
def State.indexValue (s : State) : Option Reg → Addr
  | none => 0
  | some r => if r = 0 then 0 else lowHalf (s.reg r)

/-- `EA_RS(I, X, A)`: the effective address of an RS or CH instruction (R59). -/
def State.ea (s : State) (op : MemOperand) : Except Stop Addr :=
  if op.indirect then
    if isEven op.addr then do
      let field ← s.memRead2 op.addr
      return field + s.indexValue op.index
    else .error (.raise (.indirectAddress op.addr))
  else .ok (op.addr + s.indexValue op.index)

/-- `EA_NX(I, A)`: the effective address of LM and STM, calculated "by assuming that the index register designator is zero"
(R61). -/
def State.eaNoIndex (s : State) (ind : Bool) (addr : Addr) : Except Stop Addr := s.ea ⟨ind, none, addr⟩

/-- `RRaddr(I, R2)`: the effective address of BCSR, BCRR and BALR as a number (R60). -/
def State.rrAddr (s : State) (ind : Bool) (r2 : Reg) : Addr :=
  if ind then lowHalf (s.reg r2) else BitVec.ofNat 16 (4 * r2.val)

/-- The word operand of an RR instruction (R57, R58). -/
def State.wordRR (s : State) (ind : Bool) (r2 : Reg) : Except Stop Word := s.readW (s.rrLoc ind r2)

/-- The word operand of an RS instruction: "the location is always `MemW(EA)`" (R58). -/
def State.wordRS (s : State) (op : MemOperand) : Except Stop Word := do
  let ea ← s.ea op
  s.readW (.mem ea)

/-- The character operand of a CH instruction (R63). -/
def State.charCH (s : State) (op : MemOperand) : Except Stop Byte := do
  let ea ← s.ea op
  s.memRead1 ea

/-- `simm`: the immediate with "its sign bit extended left 12 bits" (R62). -/
def simm (imm : Imm) : Word := imm.signExtend 32

/-- `zimm`: the immediate "extended on the left with 12 zero bits" (R62). -/
def zimm (imm : Imm) : Word := imm.setWidth 32

/-- `rimm`: "a short-format real number" (R62, R227). -/
def rimm (imm : Imm) : Word := Config.real.short imm

/-- A character "extended leftward 24 bits with zeros" (R63). -/
def wordOfChar (c : Byte) : Word := c.setWidth 32

/-- An address in a register: "bits 0 through 15 ... become zero" (R135, R148, D8). -/
def wordOfAddr (a : Addr) : Word := a.setWidth 32

/-- An RR instruction that reads its word operand. -/
def State.withRR (s : State) (ind : Bool) (r2 : Reg) (work : Word → Except Stop State) : Result :=
  s.finish (s.wordRR ind r2 >>= work)

/-- An RS instruction that reads its word operand. -/
def State.withRS (s : State) (op : MemOperand) (work : Word → Except Stop State) : Result :=
  s.finish (s.wordRS op >>= work)

/-- A CH instruction that reads its character operand. -/
def State.withCH (s : State) (op : MemOperand) (work : Byte → Except Stop State) : Result :=
  s.finish (s.charCH op >>= work)

/-- An RS or CH instruction that uses its effective address. -/
def State.withEA (s : State) (op : MemOperand) (work : Addr → Except Stop State) : Result :=
  s.finish (s.ea op >>= work)

end Sys2Proof.Machine
end

