-- ==== Sys2Proof/Machine/Arith.lean ====
section
/-! DEFINITION. Integer add, subtract, reverse subtract, multiply (45_integer_arithmetic.md, R151 to R166): an exact integer,
narrowed once. -/

namespace Sys2Proof.Machine

/-- `arith(R1, n)`: the low-order 32 bits of the exact result, and the CCR from it (R221). -/
def State.arith (s : State) (r1 : Reg) (n : Int) : State := (s.setReg r1 (wordOfInt n)).setCcr (arithCcr n)

/-- AR, Add Register (R151). -/
def execAR (ind : Bool) (r1 r2 : Reg) (s : State) : Result :=
  s.withRR ind r2 fun w => .ok (s.arith r1 ((s.reg r1).toInt + w.toInt))

/-- A, Add (R152). -/
def execA (r1 : Reg) (op : MemOperand) (s : State) : Result :=
  s.withRS op fun w => .ok (s.arith r1 ((s.reg r1).toInt + w.toInt))

/-- AI, Add Immediate (R153). -/
def execAI (_ign : Bool) (r1 : Reg) (imm : Imm) (s : State) : Result :=
  .next (s.arith r1 ((s.reg r1).toInt + imm.toInt))

/-- AC, Add Character (R154). -/
def execAC (r1 : Reg) (op : MemOperand) (s : State) : Result :=
  s.withCH op fun c => .ok (s.arith r1 ((s.reg r1).toInt + c.toNat))

/-- SR, Subtract Register (R155). -/
def execSR (ind : Bool) (r1 r2 : Reg) (s : State) : Result :=
  s.withRR ind r2 fun w => .ok (s.arith r1 ((s.reg r1).toInt - w.toInt))

/-- S, Subtract (R156). -/
def execS (r1 : Reg) (op : MemOperand) (s : State) : Result :=
  s.withRS op fun w => .ok (s.arith r1 ((s.reg r1).toInt - w.toInt))

/-- SI, Subtract Immediate (R157). -/
def execSI (_ign : Bool) (r1 : Reg) (imm : Imm) (s : State) : Result :=
  .next (s.arith r1 ((s.reg r1).toInt - imm.toInt))

/-- SC, Subtract Character (R158). -/
def execSC (r1 : Reg) (op : MemOperand) (s : State) : Result :=
  s.withCH op fun c => .ok (s.arith r1 ((s.reg r1).toInt - c.toNat))

/-- RSR, Reverse Subtract Register (R159). -/
def execRSR (ind : Bool) (r1 r2 : Reg) (s : State) : Result :=
  s.withRR ind r2 fun w => .ok (s.arith r1 (w.toInt - (s.reg r1).toInt))

/-- RS, Reverse Subtract (R160). -/
def execRS (r1 : Reg) (op : MemOperand) (s : State) : Result :=
  s.withRS op fun w => .ok (s.arith r1 (w.toInt - (s.reg r1).toInt))

/-- RSI, Reverse Subtract Immediate (R161). -/
def execRSI (_ign : Bool) (r1 : Reg) (imm : Imm) (s : State) : Result :=
  .next (s.arith r1 (imm.toInt - (s.reg r1).toInt))

/-- RSC, Reverse Subtract Character (R162). -/
def execRSC (r1 : Reg) (op : MemOperand) (s : State) : Result :=
  s.withCH op fun c => .ok (s.arith r1 (c.toNat - (s.reg r1).toInt))

/-- MR, Multiply Register (R163). -/
def execMR (ind : Bool) (r1 r2 : Reg) (s : State) : Result :=
  s.withRR ind r2 fun w => .ok (s.arith r1 ((s.reg r1).toInt * w.toInt))

/-- M, Multiply (R164). -/
def execM (r1 : Reg) (op : MemOperand) (s : State) : Result :=
  s.withRS op fun w => .ok (s.arith r1 ((s.reg r1).toInt * w.toInt))

/-- MI, Multiply Immediate (R165). -/
def execMI (_ign : Bool) (r1 : Reg) (imm : Imm) (s : State) : Result :=
  .next (s.arith r1 ((s.reg r1).toInt * imm.toInt))

/-- MC, Multiply Character (R166). -/
def execMC (r1 : Reg) (op : MemOperand) (s : State) : Result :=
  s.withCH op fun c => .ok (s.arith r1 ((s.reg r1).toInt * c.toNat))

end Sys2Proof.Machine
end

