-- ==== Sys2Proof/Machine/Branch.lean ====
section
/-! DEFINITION. Branches, branch and link, and saving conditions (42_branch_and_condition.md, R131 to R139). While an
instruction executes, pc already holds the address of the next sequential instruction (R16). None of the nine changes the CCR. -/

namespace Sys2Proof.Machine

/-- "the contents of the ILC are replaced by the effective address" when the condition holds (R131). -/
def State.branchIf (s : State) (taken : Bool) (t : Addr) : State := if taken then s.setPc t else s

/-- `x[R1] <- zext_32(pc); pc <- t`, the target computed before (R135). -/
def State.branchAndLink (s : State) (r1 : Reg) (t : Addr) : State := (s.setReg r1 (wordOfAddr s.pc)).setPc t

/-- "a word of all one bits ... otherwise a word of all zeros" (R137). -/
def State.conditionWord (s : State) (m1 : Mask) : Word := if s.ccr.masktest m1 then 0xFFFFFFFF else 0x00000000

/-- "a character of all one bits ... otherwise a character of all zero bits" (R139). -/
def State.conditionChar (s : State) (m1 : Mask) : Byte := if s.ccr.masktest m1 then 0xFF else 0x00

/-- BCSR, Branch Conditions Set Register (R131). -/
def execBCSR (ind : Bool) (m1 : Mask) (r2 : Reg) (s : State) : Result :=
  .next (s.branchIf (s.ccr.masktest m1) (s.rrAddr ind r2))

/-- BCS, Branch Conditions Set; the effective address is computed taken or not (R132, D14). -/
def execBCS (m1 : Mask) (op : MemOperand) (s : State) : Result :=
  s.withEA op fun ea => .ok (s.branchIf (s.ccr.masktest m1) ea)

/-- BCRR, Branch Conditions Reset Register (R133). -/
def execBCRR (ind : Bool) (m1 : Mask) (r2 : Reg) (s : State) : Result :=
  .next (s.branchIf (!s.ccr.masktest m1) (s.rrAddr ind r2))

/-- BCR, Branch Condition Reset; the effective address is computed taken or not (R134, D14). -/
def execBCR (m1 : Mask) (op : MemOperand) (s : State) : Result :=
  s.withEA op fun ea => .ok (s.branchIf (!s.ccr.masktest m1) ea)

/-- BALR, Branch and Link Register (R135). -/
def execBALR (ind : Bool) (r1 r2 : Reg) (s : State) : Result := .next (s.branchAndLink r1 (s.rrAddr ind r2))

/-- BAL, Branch and Link (R136). -/
def execBAL (r1 : Reg) (op : MemOperand) (s : State) : Result := s.withEA op fun ea => .ok (s.branchAndLink r1 ea)

/-- SACR, Save Condition Register (R137). -/
def execSACR (ind : Bool) (m1 : Mask) (r2 : Reg) (s : State) : Result :=
  s.finish (s.writeW (s.rrLoc ind r2) (s.conditionWord m1))

/-- SAC, Save Condition (R138). -/
def execSAC (m1 : Mask) (op : MemOperand) (s : State) : Result :=
  s.withEA op fun ea => s.writeW (.mem ea) (s.conditionWord m1)

/-- SACC, Save Condition Character (R139). -/
def execSACC (m1 : Mask) (op : MemOperand) (s : State) : Result :=
  s.withEA op fun ea => s.memWrite1 ea (s.conditionChar m1)

end Sys2Proof.Machine
end

