-- ==== Sys2Proof/Machine/Compare.lean ====
section
/-! DEFINITION. Compares and the two character-string instructions (43_compare_and_string.md, R140 to R145). -/

namespace Sys2Proof.Machine

/-- CR, Compare Register (R140). -/
def execCR (ind : Bool) (r1 r2 : Reg) (s : State) : Result :=
  s.withRR ind r2 fun w => .ok (s.setCcr (cmpS (s.reg r1) w))

/-- C, Compare (R141). -/
def execC (r1 : Reg) (op : MemOperand) (s : State) : Result :=
  s.withRS op fun w => .ok (s.setCcr (cmpS (s.reg r1) w))

/-- CI, Compare Immediate (R142). -/
def execCI (_ign : Bool) (r1 : Reg) (imm : Imm) (s : State) : Result := .next (s.setCcr (cmpS (s.reg r1) (simm imm)))

/-- CC, Compare Character: both characters unsigned (R143). -/
def execCC (r1 : Reg) (op : MemOperand) (s : State) : Result :=
  s.withCH op fun c => .ok (s.setCcr (cmpU (lowChar (s.reg r1)) c))

/-- `S4(M1)` as an address increment: "M1 as a 4-bit two's complement integer" (R144). -/
def stride (m1 : Mask) : Addr := m1.signExtend 16

/-- The second register of a pair, "(R2+1) mod 16" (R12). -/
def pairSecond (r2 : Reg) : Reg := r2 + 1

/-- The string descriptor's registers on exit: A1 alone in register P, a length and A2 in register Q (R144, R145). -/
def State.putDescriptor (s : State) (r2 : Reg) (a1 len a2 : BitVec 16) : State :=
  (s.setReg r2 ((0 : BitVec 16) ++ a1)).setReg (pairSecond r2) (len ++ a2)

/-- The internal registers A1, L and A2 of a string instruction and, for CCS, the CCR (R26, R144). -/
structure StringRegs where
  a1 : Addr
  len : Nat
  a2 : Addr
  ccr : Ccr
  deriving DecidableEq, Repr

/-- The loop of CCS from internal registers A1, L, A2, with the CCR the loop has so far: L = 0 ends it, so does the first
unequal pair, which is counted in L (R144). -/
def State.compareLoop (s : State) (step1 : Addr) : Nat → Addr → Addr → Ccr → Except Stop StringRegs
  | 0, a1, a2, c => .ok ⟨a1, 0, a2, c⟩
  | n + 1, a1, a2, _ => do
    let b1 ← s.memRead1 a1
    let b2 ← s.memRead1 a2
    if (cmpU b1 b2).e then s.compareLoop step1 n (a1 + step1) (a2 + 1) (cmpU b1 b2)
    else return ⟨a1, n + 1, a2, cmpU b1 b2⟩

/-- CCS, Compare Character String (R144). -/
def execCCS (_ign : Bool) (m1 : Mask) (r2 : Reg) (s : State) : Result :=
  s.finish do
    let d ← s.compareLoop (stride m1) (highHalf (s.reg (pairSecond r2))).toNat (lowHalf (s.reg r2))
      (lowHalf (s.reg (pairSecond r2))) .onlyE
    return (s.putDescriptor r2 d.a1 (BitVec.ofNat 16 d.len) d.a2).setCcr d.ccr

/-- The loop of MCS: L characters from A1 by the stride to A2 ascending, each written before the next is read (R145, R45). -/
def State.moveLoop (step1 : Addr) : Nat → Addr → Addr → State → Except Stop State
  | 0, _, _, s => .ok s
  | n + 1, a1, a2, s => do
    let b ← s.memRead1 a1
    let t ← s.memWrite1 a2 b
    State.moveLoop step1 n (a1 + step1) (a2 + 1) t

/-- MCS, Move Character String: on exit L = 0, A2 = old A2 + L, A1 = old A1 + L*S4(M1) (R145). -/
def execMCS (_ign : Bool) (m1 : Mask) (r2 : Reg) (s : State) : Result :=
  s.finish do
    let len := highHalf (s.reg (pairSecond r2))
    let a1 := lowHalf (s.reg r2)
    let a2 := lowHalf (s.reg (pairSecond r2))
    let t ← State.moveLoop (stride m1) len.toNat a1 a2 s
    return t.putDescriptor r2 (a1 + len * stride m1) 0 (a2 + len)

end Sys2Proof.Machine
end

