-- ==== Sys2Proof/Machine/Divide.lean ====
section
/-! DEFINITION. Integer divide, reverse divide, remainder, reverse remainder (46_integer_divide.md, R167 to R182), with the
quotient selected so that the remainder is non negative (R222). -/

namespace Sys2Proof.Machine

/-- `ediv(a, d)`: the quotient with a = q*d + r and 0 <= r < |d| (R222). -/
def ediv (a d : Int) : Int := a / d

/-- `emod(a, d)`: that remainder (R222). -/
def emod (a d : Int) : Int := a % d

/-- "If the divisor is zero, the zero divisor exception occurs and register R1 is unchanged" (R167, R222). -/
def checkDivisor (d : Int) (t : State) : Except Stop State :=
  if d = 0 then .error (.raise .zeroDivisor) else .ok t

/-- A divide that can overflow: `arith(R1, ediv(a, d))` (R167). -/
def State.divide (s : State) (r1 : Reg) (a d : Int) : Except Stop State := checkDivisor d (s.arith r1 (ediv a d))

/-- `x[R1] <- W(q); CCR <- cmpS(W(q), 0)`: a result that always fits (R170, R175). -/
def State.putInt (s : State) (r1 : Reg) (q : Int) : State := (s.setReg r1 (wordOfInt q)).setCcr (cmpS (wordOfInt q) 0)

/-- A divide for which "Overflow is not possible" (R170). -/
def State.divideFits (s : State) (r1 : Reg) (a d : Int) : Except Stop State := checkDivisor d (s.putInt r1 (ediv a d))

/-- A remainder (R175). -/
def State.remainder (s : State) (r1 : Reg) (a d : Int) : Except Stop State := checkDivisor d (s.putInt r1 (emod a d))

/-- DR, Divide Register (R167). -/
def execDR (ind : Bool) (r1 r2 : Reg) (s : State) : Result :=
  s.withRR ind r2 fun w => s.divide r1 (s.reg r1).toInt w.toInt

/-- D, Divide (R168). -/
def execD (r1 : Reg) (op : MemOperand) (s : State) : Result :=
  s.withRS op fun w => s.divide r1 (s.reg r1).toInt w.toInt

/-- DI, Divide Immediate (R169). -/
def execDI (_ign : Bool) (r1 : Reg) (imm : Imm) (s : State) : Result :=
  s.finish (s.divide r1 (s.reg r1).toInt imm.toInt)

/-- DC, Divide Character (R170). -/
def execDC (r1 : Reg) (op : MemOperand) (s : State) : Result :=
  s.withCH op fun c => s.divideFits r1 (s.reg r1).toInt c.toNat

/-- RDR, Reverse Divide Register (R171). -/
def execRDR (ind : Bool) (r1 r2 : Reg) (s : State) : Result :=
  s.withRR ind r2 fun w => s.divide r1 w.toInt (s.reg r1).toInt

/-- RD, Reverse Divide (R172). -/
def execRD (r1 : Reg) (op : MemOperand) (s : State) : Result :=
  s.withRS op fun w => s.divide r1 w.toInt (s.reg r1).toInt

/-- RDI, Reverse Divide Immediate (R173). -/
def execRDI (_ign : Bool) (r1 : Reg) (imm : Imm) (s : State) : Result :=
  s.finish (s.divideFits r1 imm.toInt (s.reg r1).toInt)

/-- RDC, Reverse Divide Character (R174). -/
def execRDC (r1 : Reg) (op : MemOperand) (s : State) : Result :=
  s.withCH op fun c => s.divideFits r1 c.toNat (s.reg r1).toInt

/-- REMR, Remainder Register (R175). -/
def execREMR (ind : Bool) (r1 r2 : Reg) (s : State) : Result :=
  s.withRR ind r2 fun w => s.remainder r1 (s.reg r1).toInt w.toInt

/-- REM, Remainder (R176). -/
def execREM (r1 : Reg) (op : MemOperand) (s : State) : Result :=
  s.withRS op fun w => s.remainder r1 (s.reg r1).toInt w.toInt

/-- REMI, Remainder Immediate (R177). -/
def execREMI (_ign : Bool) (r1 : Reg) (imm : Imm) (s : State) : Result :=
  s.finish (s.remainder r1 (s.reg r1).toInt imm.toInt)

/-- REMC, Remainder Character (R178). -/
def execREMC (r1 : Reg) (op : MemOperand) (s : State) : Result :=
  s.withCH op fun c => s.remainder r1 (s.reg r1).toInt c.toNat

/-- RREMR, Reverse Remainder Register (R179). -/
def execRREMR (ind : Bool) (r1 r2 : Reg) (s : State) : Result :=
  s.withRR ind r2 fun w => s.remainder r1 w.toInt (s.reg r1).toInt

/-- RREM, Reverse Remainder (R180). -/
def execRREM (r1 : Reg) (op : MemOperand) (s : State) : Result :=
  s.withRS op fun w => s.remainder r1 w.toInt (s.reg r1).toInt

/-- RREMI, Reverse Remainder Immediate (R181). -/
def execRREMI (_ign : Bool) (r1 : Reg) (imm : Imm) (s : State) : Result :=
  s.finish (s.remainder r1 imm.toInt (s.reg r1).toInt)

/-- RREMC, Reverse Remainder Character (R182). -/
def execRREMC (r1 : Reg) (op : MemOperand) (s : State) : Result :=
  s.withCH op fun c => s.remainder r1 c.toNat (s.reg r1).toInt

end Sys2Proof.Machine
end

