-- ==== Sys2Proof/Machine/Fetch.lean ====
section
/-! DEFINITION. The fetch of an instruction (R64 steps 1 to 4), shared by the cycle and by EX. -/

namespace Sys2Proof.Machine

/-- A fetched instruction and its length in characters. -/
structure Fetched where
  instr : Instr
  length : Nat
  deriving DecidableEq, Repr

/-- The characters of an instruction of a given length at an address (R64 step 4). -/
def State.instrBytes (s : State) (a : Addr) (len : Nat) : List Byte :=
  (List.range len).map fun k => s.byteAt (a + BitVec.ofNat 16 k)

/-- Fetching the instruction at an address (R64 steps 2 to 4): the first character decides an unimplemented opcode and the
length; then the whole instruction is read. -/
def State.fetchAt (s : State) (a : Addr) : Except Stop Fetched := do
  let c0 ← s.memRead1 a
  if isAssigned (opcodeOf c0) then
    if s.present a (instrLength (opcodeOf c0)) then
      match decode (s.instrBytes a (instrLength (opcodeOf c0))) with
      | .ok (i, _) => .ok ⟨i, instrLength (opcodeOf c0)⟩
      | .error _ => .error (.raise (.unimplementedInstruction a (opcodeOf c0)))
    else .error (.absent a)
  else .error (.raise (.unimplementedInstruction a (opcodeOf c0)))

/-- The fetch at the ILC: "failure of the ILC to contain an even address at the beginning of an instruction execution cycle
causes an illegal instruction address exception" (R15, R64 step 1). -/
def State.fetch (s : State) : Except Stop Fetched :=
  if isEven s.pc then s.fetchAt s.pc else .error (.raise (.illegalInstructionAddress s.pc))

/-- `ia = pc`: the beginning of a cycle (R64 step 5, R263). -/
def State.beginCycle (s : State) : State := { s with ia := s.pc }

/-- `pc <- A16(pc + len)`: pc holds the address of the next sequential instruction while an instruction executes (R16). -/
def State.advance (s : State) (len : Nat) : State := { s with pc := s.pc + BitVec.ofNat 16 len }

end Sys2Proof.Machine
end

