-- ==== Sys2Proof/Machine/LoadStore.lean ====
section
/-! DEFINITION. Load, load negative, store and swap (40_load_store_swap.md, R101 to R114). -/

namespace Sys2Proof.Machine

/-- `x[R1] <- v; CCR <- cmpS(v, 0)`: a load (R101) and every result compared to zero as a signed word. -/
def State.loadWord (s : State) (r1 : Reg) (v : Word) : State := (s.setReg r1 v).setCcr (cmpS v 0)

/-- The load negative of a word: O alone for 0x80000000, else the result compared to zero (R105, D11). -/
def State.loadNegative (s : State) (r1 : Reg) (v : Word) : State :=
  (s.setReg r1 (wordOfInt (-v.toInt))).setCcr (if v = 0x80000000 then .onlyO else cmpS (wordOfInt (-v.toInt)) 0)

/-- `WriteW(loc, x[R1]); CCR <- cmpS(x[R1], 0)`: a store (R109). -/
def State.storeWord (s : State) (r1 : Reg) (loc : WordLoc) : Except Stop State := do
  let t ← s.writeW loc (s.reg r1)
  return t.setCcr (cmpS (s.reg r1) 0)

/-- `t = ReadW(loc); WriteW(loc, x[R1]); x[R1] <- t; CCR <- cmpS(t, 0)`: a swap (R112). -/
def State.swapWord (s : State) (r1 : Reg) (loc : WordLoc) : Except Stop State := do
  let v ← s.readW loc
  let t ← s.writeW loc (s.reg r1)
  return t.loadWord r1 v

/-- LR, Load Register (R101). -/
def execLR (ind : Bool) (r1 r2 : Reg) (s : State) : Result := s.withRR ind r2 fun v => .ok (s.loadWord r1 v)

/-- L, Load (R102). -/
def execL (r1 : Reg) (op : MemOperand) (s : State) : Result := s.withRS op fun v => .ok (s.loadWord r1 v)

/-- LI, Load Immediate (R103). -/
def execLI (_ign : Bool) (r1 : Reg) (imm : Imm) (s : State) : Result := .next (s.loadWord r1 (simm imm))

/-- LC, Load Character (R104). -/
def execLC (r1 : Reg) (op : MemOperand) (s : State) : Result :=
  s.withCH op fun c => .ok ((s.setReg r1 (wordOfChar c)).setCcr (cmpU c 0))

/-- LNR, Load Negative Register (R105). -/
def execLNR (ind : Bool) (r1 r2 : Reg) (s : State) : Result := s.withRR ind r2 fun v => .ok (s.loadNegative r1 v)

/-- LN, Load Negative (R106). -/
def execLN (r1 : Reg) (op : MemOperand) (s : State) : Result := s.withRS op fun v => .ok (s.loadNegative r1 v)

/-- LNI, Load Negative Immediate (R107). -/
def execLNI (_ign : Bool) (r1 : Reg) (imm : Imm) (s : State) : Result :=
  .next (s.loadWord r1 (wordOfInt (-imm.toInt)))

/-- LNC, Load Negative Character: the two's complement of the zero-extended character (R108, C4). -/
def execLNC (r1 : Reg) (op : MemOperand) (s : State) : Result :=
  s.withCH op fun c => .ok (s.loadWord r1 (wordOfInt (-(c.toNat : Int))))

/-- STR, Store Register (R109). -/
def execSTR (ind : Bool) (r1 r2 : Reg) (s : State) : Result := s.finish (s.storeWord r1 (s.rrLoc ind r2))

/-- ST, Store (R110). -/
def execST (r1 : Reg) (op : MemOperand) (s : State) : Result := s.withEA op fun ea => s.storeWord r1 (.mem ea)

/-- STC, Store Character (R111). -/
def execSTC (r1 : Reg) (op : MemOperand) (s : State) : Result :=
  s.withEA op fun ea => do
    let t ← s.memWrite1 ea (lowChar (s.reg r1))
    return t.setCcr (cmpU (lowChar (s.reg r1)) 0)

/-- SWAPR, Swap Register (R112). -/
def execSWAPR (ind : Bool) (r1 r2 : Reg) (s : State) : Result := s.finish (s.swapWord r1 (s.rrLoc ind r2))

/-- SWAP, Swap (R113). -/
def execSWAP (r1 : Reg) (op : MemOperand) (s : State) : Result := s.withEA op fun ea => s.swapWord r1 (.mem ea)

/-- SWAPC, Swap Character: "Bits 0 through 23 of register R1 are not affected" (R114). -/
def execSWAPC (r1 : Reg) (op : MemOperand) (s : State) : Result :=
  s.withEA op fun ea => do
    let c ← s.memRead1 ea
    let t ← s.memWrite1 ea (lowChar (s.reg r1))
    return (t.setReg r1 (withLowChar (t.reg r1) c)).setCcr (cmpU c 0)

end Sys2Proof.Machine
end

