-- ==== Sys2Proof/Machine/Logical.lean ====
section
/-! DEFINITION. The logical instructions (41_logical.md, R115 to R130): the CCR is set by classification of the result. -/

namespace Sys2Proof.Machine

/-- `x[R1] <- r; CCR <- classify(r, 32)` (R115). -/
def State.logicWord (s : State) (r1 : Reg) (r : Word) : State := (s.setReg r1 r).setCcr (classify r)

/-- `x[R1] <- x[R1][0:23] ++ r8`, classified as `CH_LOGIC_CCR_SCOPE` says (R118, R220). -/
def State.logicChar (s : State) (r1 : Reg) (r8 : Byte) : State :=
  (s.setReg r1 (withLowChar (s.reg r1) r8)).setCcr
    (match Config.chLogicScope with
      | .char8 => classify r8
      | .word32 => classify (withLowChar (s.reg r1) r8))

/-- ANDR, AND Register (R115). -/
def execANDR (ind : Bool) (r1 r2 : Reg) (s : State) : Result :=
  s.withRR ind r2 fun v => .ok (s.logicWord r1 (s.reg r1 &&& v))

/-- AND (R116). -/
def execAND (r1 : Reg) (op : MemOperand) (s : State) : Result :=
  s.withRS op fun v => .ok (s.logicWord r1 (s.reg r1 &&& v))

/-- ANDI, AND Immediate (R117). -/
def execANDI (_ign : Bool) (r1 : Reg) (imm : Imm) (s : State) : Result :=
  .next (s.logicWord r1 (s.reg r1 &&& zimm imm))

/-- ANDC, AND Character (R118). -/
def execANDC (r1 : Reg) (op : MemOperand) (s : State) : Result :=
  s.withCH op fun c => .ok (s.logicChar r1 (lowChar (s.reg r1) &&& c))

/-- ORR, OR Register (R119). -/
def execORR (ind : Bool) (r1 r2 : Reg) (s : State) : Result :=
  s.withRR ind r2 fun v => .ok (s.logicWord r1 (s.reg r1 ||| v))

/-- OR (R120). -/
def execOR (r1 : Reg) (op : MemOperand) (s : State) : Result :=
  s.withRS op fun v => .ok (s.logicWord r1 (s.reg r1 ||| v))

/-- ORI, OR Immediate (R121). -/
def execORI (_ign : Bool) (r1 : Reg) (imm : Imm) (s : State) : Result :=
  .next (s.logicWord r1 (s.reg r1 ||| zimm imm))

/-- ORC, OR Character (R122). -/
def execORC (r1 : Reg) (op : MemOperand) (s : State) : Result :=
  s.withCH op fun c => .ok (s.logicChar r1 (lowChar (s.reg r1) ||| c))

/-- XORR, Exclusive OR Register (R123). -/
def execXORR (ind : Bool) (r1 r2 : Reg) (s : State) : Result :=
  s.withRR ind r2 fun v => .ok (s.logicWord r1 (s.reg r1 ^^^ v))

/-- XOR, Exclusive OR (R124). -/
def execXOR (r1 : Reg) (op : MemOperand) (s : State) : Result :=
  s.withRS op fun v => .ok (s.logicWord r1 (s.reg r1 ^^^ v))

/-- XORI, Exclusive OR Immediate (R125). -/
def execXORI (_ign : Bool) (r1 : Reg) (imm : Imm) (s : State) : Result :=
  .next (s.logicWord r1 (s.reg r1 ^^^ zimm imm))

/-- XORC, Exclusive OR Character (R126). -/
def execXORC (r1 : Reg) (op : MemOperand) (s : State) : Result :=
  s.withCH op fun c => .ok (s.logicChar r1 (lowChar (s.reg r1) ^^^ c))

/-- NOTR, NOT Register: "the original value in register R1 being ignored" (R127). -/
def execNOTR (ind : Bool) (r1 r2 : Reg) (s : State) : Result :=
  s.withRR ind r2 fun v => .ok (s.logicWord r1 (~~~v))

/-- NOT (R128). -/
def execNOT (r1 : Reg) (op : MemOperand) (s : State) : Result :=
  s.withRS op fun v => .ok (s.logicWord r1 (~~~v))

/-- NOTI, NOT Immediate: the immediate is zero-extended before it is complemented (R129). -/
def execNOTI (_ign : Bool) (r1 : Reg) (imm : Imm) (s : State) : Result := .next (s.logicWord r1 (~~~(zimm imm)))

/-- NOTC, NOT Character (R130). -/
def execNOTC (r1 : Reg) (op : MemOperand) (s : State) : Result :=
  s.withCH op fun c => .ok (s.logicChar r1 (~~~c))

end Sys2Proof.Machine
end

