-- ==== Sys2Proof/Machine/Real.lean ====
section
/-! DEFINITION. Real arithmetic and conversions (47_real_arithmetic.md, R183 to R208): everything but the members of `REAL`
(R224), which are `Config.real`. -/

namespace Sys2Proof.Machine

/-- `x[R1] <- w; CCR <- rcmp0(w)` (R225, R201). -/
def State.putReal (s : State) (r1 : Reg) (w : Word) : State := (s.setReg r1 w).setCcr (rcmp0 w)

/-- `realset(R1, res)` (R225). -/
def State.realset (s : State) (r1 : Reg) : RealResult → Except Stop State
  | .ok w => .ok (s.putReal r1 w)
  | .realFormat => .error (.raise .realFormat)
  | .zeroDivisor => .error (.raise .zeroDivisor)

/-- `REAL.add` (R224). -/
def realAdd (a b : Word) : RealResult := .ofOption (Config.real.add a b)
/-- `REAL.sub` (R224). -/
def realSub (a b : Word) : RealResult := .ofOption (Config.real.sub a b)
/-- `REAL.mul` (R224). -/
def realMul (a b : Word) : RealResult := .ofOption (Config.real.mul a b)
/-- `REAL.div` (R224). -/
def realDiv (a b : Word) : RealResult := Config.real.div a b
/-- `REAL.shiftr` (R224, R214). -/
def realShift (a : Word) (n : Int) : RealResult := .ofOption (Config.real.shiftr a n)

/-- `fixset(R1, a)`: on overflow "the result is zero and the O bit of the CCR is set", with E from the zero (R228). -/
def State.fixset (s : State) (r1 : Reg) (a : Word) : State :=
  if fitsWord (Config.real.fix a) then
    (s.setReg r1 (wordOfInt (Config.real.fix a))).setCcr (cmpS (wordOfInt (Config.real.fix a)) 0)
  else (s.setReg r1 0).setCcr (Ccr.onlyE.withO true)

/-- FAR, Real Add Register (R183). -/
def execFAR (ind : Bool) (r1 r2 : Reg) (s : State) : Result :=
  s.withRR ind r2 fun w => s.realset r1 (realAdd (s.reg r1) w)

/-- FA, Real Add (R184). -/
def execFA (r1 : Reg) (op : MemOperand) (s : State) : Result :=
  s.withRS op fun w => s.realset r1 (realAdd (s.reg r1) w)

/-- FAI, Real Add Immediate (R185). -/
def execFAI (_ign : Bool) (r1 : Reg) (imm : Imm) (s : State) : Result :=
  s.finish (s.realset r1 (realAdd (s.reg r1) (rimm imm)))

/-- FSR, Real Subtract Register (R186). -/
def execFSR (ind : Bool) (r1 r2 : Reg) (s : State) : Result :=
  s.withRR ind r2 fun w => s.realset r1 (realSub (s.reg r1) w)

/-- FS, Real Subtract (R187). -/
def execFS (r1 : Reg) (op : MemOperand) (s : State) : Result :=
  s.withRS op fun w => s.realset r1 (realSub (s.reg r1) w)

/-- FSI, Real Subtract Immediate (R188). -/
def execFSI (_ign : Bool) (r1 : Reg) (imm : Imm) (s : State) : Result :=
  s.finish (s.realset r1 (realSub (s.reg r1) (rimm imm)))

/-- RFSR, Reverse Real Subtract Register (R189). -/
def execRFSR (ind : Bool) (r1 r2 : Reg) (s : State) : Result :=
  s.withRR ind r2 fun w => s.realset r1 (realSub w (s.reg r1))

/-- RFS, Reverse Real Subtract (R190). -/
def execRFS (r1 : Reg) (op : MemOperand) (s : State) : Result :=
  s.withRS op fun w => s.realset r1 (realSub w (s.reg r1))

/-- RFSI, Reverse Real Subtract Immediate (R191). -/
def execRFSI (_ign : Bool) (r1 : Reg) (imm : Imm) (s : State) : Result :=
  s.finish (s.realset r1 (realSub (rimm imm) (s.reg r1)))

/-- FMR, Real Multiply Register (R192). -/
def execFMR (ind : Bool) (r1 r2 : Reg) (s : State) : Result :=
  s.withRR ind r2 fun w => s.realset r1 (realMul (s.reg r1) w)

/-- FM, Real Multiply (R193). -/
def execFM (r1 : Reg) (op : MemOperand) (s : State) : Result :=
  s.withRS op fun w => s.realset r1 (realMul (s.reg r1) w)

/-- FMI, Real Multiply Immediate (R194). -/
def execFMI (_ign : Bool) (r1 : Reg) (imm : Imm) (s : State) : Result :=
  s.finish (s.realset r1 (realMul (s.reg r1) (rimm imm)))

/-- FDR, Real Divide Register (R195). -/
def execFDR (ind : Bool) (r1 r2 : Reg) (s : State) : Result :=
  s.withRR ind r2 fun w => s.realset r1 (realDiv (s.reg r1) w)

/-- FD, Real Divide (R196). -/
def execFD (r1 : Reg) (op : MemOperand) (s : State) : Result :=
  s.withRS op fun w => s.realset r1 (realDiv (s.reg r1) w)

/-- FDI, Real Divide Immediate (R197). -/
def execFDI (_ign : Bool) (r1 : Reg) (imm : Imm) (s : State) : Result :=
  s.finish (s.realset r1 (realDiv (s.reg r1) (rimm imm)))

/-- RFDR, Reverse Real Divide Register (R198). -/
def execRFDR (ind : Bool) (r1 r2 : Reg) (s : State) : Result :=
  s.withRR ind r2 fun w => s.realset r1 (realDiv w (s.reg r1))

/-- RFD, Reverse Real Divide (R199). -/
def execRFD (r1 : Reg) (op : MemOperand) (s : State) : Result :=
  s.withRS op fun w => s.realset r1 (realDiv w (s.reg r1))

/-- RFDI, Reverse Real Divide Immediate (R200). -/
def execRFDI (_ign : Bool) (r1 : Reg) (imm : Imm) (s : State) : Result :=
  s.finish (s.realset r1 (realDiv (rimm imm) (s.reg r1)))

/-- FLOATR, Convert To Real Register (R201). -/
def execFLOATR (ind : Bool) (r1 r2 : Reg) (s : State) : Result :=
  s.withRR ind r2 fun w => .ok (s.putReal r1 (Config.real.float w))

/-- FLOAT, Convert To Real (R202). -/
def execFLOAT (r1 : Reg) (op : MemOperand) (s : State) : Result :=
  s.withRS op fun w => .ok (s.putReal r1 (Config.real.float w))

/-- FLOATI, Convert To Real Immediate: the immediate is an integer, not a short real (R203). -/
def execFLOATI (_ign : Bool) (r1 : Reg) (imm : Imm) (s : State) : Result :=
  .next (s.putReal r1 (Config.real.float (simm imm)))

/-- FIXR, Convert To Integer Register (R204). -/
def execFIXR (ind : Bool) (r1 r2 : Reg) (s : State) : Result :=
  s.withRR ind r2 fun w => .ok (s.fixset r1 w)

/-- FIX, Convert To Integer (R205). -/
def execFIX (r1 : Reg) (op : MemOperand) (s : State) : Result :=
  s.withRS op fun w => .ok (s.fixset r1 w)

/-- FIXI, Convert to Integer Immediate (R206). -/
def execFIXI (_ign : Bool) (r1 : Reg) (imm : Imm) (s : State) : Result :=
  .next (s.fixset r1 (rimm imm))

/-- FLOOR, Real Floor (R207). -/
def execFLOOR (r1 : Reg) (op : MemOperand) (s : State) : Result :=
  s.withRS op fun w => .ok (s.putReal r1 (Config.real.floor w))

/-- CEIL, Real Ceiling (R208). -/
def execCEIL (r1 : Reg) (op : MemOperand) (s : State) : Result :=
  s.withRS op fun w => .ok (s.putReal r1 (Config.real.ceil w))

end Sys2Proof.Machine
end

