-- ==== Sys2Proof/Machine/MinMaxShift.lean ====
section
/-! DEFINITION. Minimum, maximum and the four shifts (48_minmax_shift.md, R209 to R214, R230). -/

namespace Sys2Proof.Machine

/-- `x[R1] <- new; CCR <- cmpS(new, old)`: the final value against the original (R209, C2). -/
def State.choose (s : State) (r1 : Reg) (new : Word) : State := (s.setReg r1 new).setCcr (cmpS new (s.reg r1))

/-- MIN, Minimum: a signed comparison (R209). -/
def execMIN (r1 : Reg) (op : MemOperand) (s : State) : Result :=
  s.withRS op fun w => .ok (s.choose r1 (if w.toInt < (s.reg r1).toInt then w else s.reg r1))

/-- MAX, Maximum: a signed comparison (R210). -/
def execMAX (r1 : Reg) (op : MemOperand) (s : State) : Result :=
  s.withRS op fun w => .ok (s.choose r1 (if (s.reg r1).toInt < w.toInt then w else s.reg r1))

/-- The shift count: "The effective address is treated as a 16-bit two's complement integer" (R230). -/
def shiftCount (ea : Addr) : Int := ea.toInt

/-- A shift's result and whether O is set. -/
structure Shifted where
  value : Word
  ovf : Bool
  deriving DecidableEq, Repr

/-- Left by k places, zeros entering; is a 1 bit lost among `v[0 : k-1]`, or in the whole of v for k of 32 or more? (R211) -/
def shiftLeftLogical (v : Word) (k : Nat) : Shifted := ⟨v <<< k, v >>> (32 - min k 32) != 0⟩

/-- Right by m places, zeros entering; is a 1 bit lost among `v[32-m : 31]`? (R211) -/
def shiftRightLogical (v : Word) (m : Nat) : Shifted := ⟨v >>> m, v <<< (32 - min m 32) != 0⟩

/-- SHIFTL's work: left for a positive count, right for a negative one; "If a 1 bit is lost, the O bit of the CCR is set" (R211). -/
def shiftLogical (v : Word) (n : Int) : Shifted :=
  if 0 ≤ n then shiftLeftLogical v n.toNat else shiftRightLogical v (-n).toNat

/-- SHIFTC's work: rotate left by n mod 32; "Overflow is not possible" (R212). -/
def shiftCircular (v : Word) (n : Int) : Shifted := ⟨v.rotateLeft (n % 32).toNat, false⟩

/-- SHIFTA's work: left as SHIFTL with overflow when S(v)*2^n is not a 32-bit integer; right with bit 0 propagated, never
overflowing (R213). -/
def shiftArithmetic (v : Word) (n : Int) : Shifted :=
  if 0 ≤ n then ⟨v <<< n.toNat, !fitsWord (v.toInt * 2 ^ n.toNat)⟩
  else ⟨wordOfInt (v.toInt / 2 ^ min (-n).toNat 32), false⟩

/-- `x[R1] <- r; CCR <- (if ovf then {O} else {}) union cmpS(r, 0)` (R211). -/
def State.putShifted (s : State) (r1 : Reg) (r : Shifted) : State :=
  (s.setReg r1 r.value).setCcr ((cmpS r.value 0).withO r.ovf)

/-- SHIFTL, Shift Logical (R211). -/
def execSHIFTL (r1 : Reg) (op : MemOperand) (s : State) : Result :=
  s.withEA op fun ea => .ok (s.putShifted r1 (shiftLogical (s.reg r1) (shiftCount ea)))

/-- SHIFTC, Shift Circular (R212). -/
def execSHIFTC (r1 : Reg) (op : MemOperand) (s : State) : Result :=
  s.withEA op fun ea => .ok (s.putShifted r1 (shiftCircular (s.reg r1) (shiftCount ea)))

/-- SHIFTA, Shift Arithmetic (R213). -/
def execSHIFTA (r1 : Reg) (op : MemOperand) (s : State) : Result :=
  s.withEA op fun ea => .ok (s.putShifted r1 (shiftArithmetic (s.reg r1) (shiftCount ea)))

/-- SHIFTR, Shift Real (R214). -/
def execSHIFTR (r1 : Reg) (op : MemOperand) (s : State) : Result :=
  s.withEA op fun ea => s.realset r1 (realShift (s.reg r1) (shiftCount ea))

end Sys2Proof.Machine
end

