-- ==== Sys2Proof/Machine/System.lean ====
section
/-! DEFINITION. Supervisor call, load address, load and store multiple (44_system_and_multiple.md, R146, R148 to R150). EX is in
Execute.lean. None changes the CCR. -/

namespace Sys2Proof.Machine

/-- SVC, Supervisor Call: the run ends with `SupervisorCall(ia, r1, ea)`, pc after the SVC, nothing else changed (R146, R267). -/
def execSVC (r1 : Reg) (op : MemOperand) (s : State) : Result :=
  s.withEA op fun ea => .ok { s with outcome := .supervisorCall s.ia r1 ea }

/-- LA, Load Address (R148). -/
def execLA (r1 : Reg) (op : MemOperand) (s : State) : Result :=
  s.withEA op fun ea => .ok (s.setReg r1 (wordOfAddr ea))

/-- `n = ((R2 - R1) mod 16) + 1`: how many registers LM and STM transfer (R149). -/
def rangeCount (r1 r2 : Reg) : Nat := (r2 - r1).val + 1

/-- `for k: x[(R1 + k) mod 16] <- MemRead(A16(ea + 4k), 4)` (R149). -/
def State.loadRange : Nat → Reg → Addr → State → Except Stop State
  | 0, _, _, s => .ok s
  | n + 1, r, a, s => do
    let v ← s.memRead4 a
    State.loadRange n (r + 1) (a + 4) (s.setReg r v)

/-- `for k: MemWrite(A16(ea + 4k), 4, x[(R1 + k) mod 16])` (R150). -/
def State.storeRange : Nat → Reg → Addr → State → Except Stop State
  | 0, _, _, s => .ok s
  | n + 1, r, a, s => do
    let t ← s.memWrite4 a (s.reg r)
    State.storeRange n (r + 1) (a + 4) t

/-- The one word-addressing check of LM and STM (R149, R34). -/
def checkWordBoundary (ea : Addr) : Except Stop Addr :=
  if onWordBoundary ea then .ok ea else .error (.raise (.wordAddressing ea))

/-- LM, Load Multiple (R149). -/
def execLM (ind : Bool) (r1 r2 : Reg) (addr : Addr) (s : State) : Result :=
  s.finish do
    let ea ← s.eaNoIndex ind addr >>= checkWordBoundary
    State.loadRange (rangeCount r1 r2) r1 ea s

/-- STM, Store Multiple (R150). -/
def execSTM (ind : Bool) (r1 r2 : Reg) (addr : Addr) (s : State) : Result :=
  s.finish do
    let ea ← s.eaNoIndex ind addr >>= checkWordBoundary
    State.storeRange (rangeCount r1 r2) r1 ea s

end Sys2Proof.Machine
end

