-- ==== Sys2Proof/Machine/Execute.lean ====
section
/-! DEFINITION. EX, Execute (R147): its chain is followed to the first subject that is not an EX, and that subject is executed with
pc as the EX left it. -/

namespace Sys2Proof.Machine

/-- Following a chain of EX from the address fields of one, at most `fuel` subjects: the first subject that is not an EX, or
what stops the chain (R147). "Following a chain changes no state". -/
def State.exSubject (s : State) : Nat → MemOperand → Except Stop Instr
  | 0, _ => .error .endless
  | fuel + 1, op => do
    let ea ← s.ea op
    if isEven ea then
      let f ← s.fetchAt ea
      match f.instr with
      | .ex _ op' => s.exSubject fuel op'
      | i => .ok i
    else .error (.raise (.executeAddress ea))

/-- "There are 32768 even addresses, so a model may follow at most 32768 links" (R147): the address of the EX itself and that of
each of 32768 subjects. -/
def exLinks : Nat := 32769

/-- "execute sub by the rule of its opcode" (R147), for a subject that is not an EX: what `exec` does with it. A subject that is
an EX never arrives here (`exSubject` follows it). -/
def execSubject (i : Instr) (s : State) : Result :=
  match i with
  | .lr ind r1 r2 => execLR ind r1 r2 s
  | .l r1 op => execL r1 op s
  | .li ign r1 imm => execLI ign r1 imm s
  | .lc r1 op => execLC r1 op s
  | .lnr ind r1 r2 => execLNR ind r1 r2 s
  | .ln r1 op => execLN r1 op s
  | .lni ign r1 imm => execLNI ign r1 imm s
  | .lnc r1 op => execLNC r1 op s
  | .str ind r1 r2 => execSTR ind r1 r2 s
  | .st r1 op => execST r1 op s
  | .stc r1 op => execSTC r1 op s
  | .swapr ind r1 r2 => execSWAPR ind r1 r2 s
  | .swap r1 op => execSWAP r1 op s
  | .swapc r1 op => execSWAPC r1 op s
  | .andr ind r1 r2 => execANDR ind r1 r2 s
  | .and r1 op => execAND r1 op s
  | .andi ign r1 imm => execANDI ign r1 imm s
  | .andc r1 op => execANDC r1 op s
  | .orr ind r1 r2 => execORR ind r1 r2 s
  | .or r1 op => execOR r1 op s
  | .ori ign r1 imm => execORI ign r1 imm s
  | .orc r1 op => execORC r1 op s
  | .xorr ind r1 r2 => execXORR ind r1 r2 s
  | .xor r1 op => execXOR r1 op s
  | .xori ign r1 imm => execXORI ign r1 imm s
  | .xorc r1 op => execXORC r1 op s
  | .notr ind r1 r2 => execNOTR ind r1 r2 s
  | .not r1 op => execNOT r1 op s
  | .noti ign r1 imm => execNOTI ign r1 imm s
  | .notc r1 op => execNOTC r1 op s
  | .bcsr ind m1 r2 => execBCSR ind m1 r2 s
  | .bcs m1 op => execBCS m1 op s
  | .bcrr ind m1 r2 => execBCRR ind m1 r2 s
  | .bcr m1 op => execBCR m1 op s
  | .balr ind r1 r2 => execBALR ind r1 r2 s
  | .bal r1 op => execBAL r1 op s
  | .sacr ind m1 r2 => execSACR ind m1 r2 s
  | .sac m1 op => execSAC m1 op s
  | .sacc m1 op => execSACC m1 op s
  | .cr ind r1 r2 => execCR ind r1 r2 s
  | .c r1 op => execC r1 op s
  | .ci ign r1 imm => execCI ign r1 imm s
  | .cc r1 op => execCC r1 op s
  | .ccs ign m1 r2 => execCCS ign m1 r2 s
  | .mcs ign m1 r2 => execMCS ign m1 r2 s
  | .svc r1 op => execSVC r1 op s
  | .ex _ _ => .fault .executeNeverCompletes
  | .la r1 op => execLA r1 op s
  | .lm ind r1 r2 addr => execLM ind r1 r2 addr s
  | .stm ind r1 r2 addr => execSTM ind r1 r2 addr s
  | .ar ind r1 r2 => execAR ind r1 r2 s
  | .a r1 op => execA r1 op s
  | .ai ign r1 imm => execAI ign r1 imm s
  | .ac r1 op => execAC r1 op s
  | .sr ind r1 r2 => execSR ind r1 r2 s
  | .s r1 op => execS r1 op s
  | .si ign r1 imm => execSI ign r1 imm s
  | .sc r1 op => execSC r1 op s
  | .rsr ind r1 r2 => execRSR ind r1 r2 s
  | .rs r1 op => execRS r1 op s
  | .rsi ign r1 imm => execRSI ign r1 imm s
  | .rsc r1 op => execRSC r1 op s
  | .mr ind r1 r2 => execMR ind r1 r2 s
  | .m r1 op => execM r1 op s
  | .mi ign r1 imm => execMI ign r1 imm s
  | .mc r1 op => execMC r1 op s
  | .dr ind r1 r2 => execDR ind r1 r2 s
  | .d r1 op => execD r1 op s
  | .di ign r1 imm => execDI ign r1 imm s
  | .dc r1 op => execDC r1 op s
  | .rdr ind r1 r2 => execRDR ind r1 r2 s
  | .rd r1 op => execRD r1 op s
  | .rdi ign r1 imm => execRDI ign r1 imm s
  | .rdc r1 op => execRDC r1 op s
  | .remr ind r1 r2 => execREMR ind r1 r2 s
  | .rem r1 op => execREM r1 op s
  | .remi ign r1 imm => execREMI ign r1 imm s
  | .remc r1 op => execREMC r1 op s
  | .rremr ind r1 r2 => execRREMR ind r1 r2 s
  | .rrem r1 op => execRREM r1 op s
  | .rremi ign r1 imm => execRREMI ign r1 imm s
  | .rremc r1 op => execRREMC r1 op s
  | .far ind r1 r2 => execFAR ind r1 r2 s
  | .fa r1 op => execFA r1 op s
  | .fai ign r1 imm => execFAI ign r1 imm s
  | .fsr ind r1 r2 => execFSR ind r1 r2 s
  | .fs r1 op => execFS r1 op s
  | .fsi ign r1 imm => execFSI ign r1 imm s
  | .rfsr ind r1 r2 => execRFSR ind r1 r2 s
  | .rfs r1 op => execRFS r1 op s
  | .rfsi ign r1 imm => execRFSI ign r1 imm s
  | .fmr ind r1 r2 => execFMR ind r1 r2 s
  | .fm r1 op => execFM r1 op s
  | .fmi ign r1 imm => execFMI ign r1 imm s
  | .fdr ind r1 r2 => execFDR ind r1 r2 s
  | .fd r1 op => execFD r1 op s
  | .fdi ign r1 imm => execFDI ign r1 imm s
  | .rfdr ind r1 r2 => execRFDR ind r1 r2 s
  | .rfd r1 op => execRFD r1 op s
  | .rfdi ign r1 imm => execRFDI ign r1 imm s
  | .floatr ind r1 r2 => execFLOATR ind r1 r2 s
  | .float r1 op => execFLOAT r1 op s
  | .floati ign r1 imm => execFLOATI ign r1 imm s
  | .fixr ind r1 r2 => execFIXR ind r1 r2 s
  | .fix r1 op => execFIX r1 op s
  | .fixi ign r1 imm => execFIXI ign r1 imm s
  | .floor r1 op => execFLOOR r1 op s
  | .ceil r1 op => execCEIL r1 op s
  | .min r1 op => execMIN r1 op s
  | .max r1 op => execMAX r1 op s
  | .shiftl r1 op => execSHIFTL r1 op s
  | .shiftc r1 op => execSHIFTC r1 op s
  | .shifta r1 op => execSHIFTA r1 op s
  | .shiftr r1 op => execSHIFTR r1 op s

/-- EX, Execute: "The effects of the subject instruction become the effects of the Execute instruction"; bits 8 to 11 are
ignored (R147, D16). -/
def execEX (_r1 : Reg) (op : MemOperand) (s : State) : Result :=
  match s.exSubject exLinks op with
  | .ok i => execSubject i s
  | .error e => s.stop e

end Sys2Proof.Machine
end

