-- ==== Sys2Proof/Machine/Dispatch.lean ====
section
/-! DEFINITION. `exec`: one arm per instruction, each one direct call of its meaning. The state it is given is that of step 6
of the cycle (R64): ia is the address of the instruction (under EX the outermost EX), pc the address after it. -/

namespace Sys2Proof.Machine

def exec (i : Instr) (s : State) : Host.Outcome State Fault Refusal :=
  match i with
  | .lr ind r1 r2 => Sys2Proof.Machine.execLR ind r1 r2 s
  | .l r1 op => Sys2Proof.Machine.execL r1 op s
  | .li ign r1 imm => Sys2Proof.Machine.execLI ign r1 imm s
  | .lc r1 op => Sys2Proof.Machine.execLC r1 op s
  | .lnr ind r1 r2 => Sys2Proof.Machine.execLNR ind r1 r2 s
  | .ln r1 op => Sys2Proof.Machine.execLN r1 op s
  | .lni ign r1 imm => Sys2Proof.Machine.execLNI ign r1 imm s
  | .lnc r1 op => Sys2Proof.Machine.execLNC r1 op s
  | .str ind r1 r2 => Sys2Proof.Machine.execSTR ind r1 r2 s
  | .st r1 op => Sys2Proof.Machine.execST r1 op s
  | .stc r1 op => Sys2Proof.Machine.execSTC r1 op s
  | .swapr ind r1 r2 => Sys2Proof.Machine.execSWAPR ind r1 r2 s
  | .swap r1 op => Sys2Proof.Machine.execSWAP r1 op s
  | .swapc r1 op => Sys2Proof.Machine.execSWAPC r1 op s
  | .andr ind r1 r2 => Sys2Proof.Machine.execANDR ind r1 r2 s
  | .and r1 op => Sys2Proof.Machine.execAND r1 op s
  | .andi ign r1 imm => Sys2Proof.Machine.execANDI ign r1 imm s
  | .andc r1 op => Sys2Proof.Machine.execANDC r1 op s
  | .orr ind r1 r2 => Sys2Proof.Machine.execORR ind r1 r2 s
  | .or r1 op => Sys2Proof.Machine.execOR r1 op s
  | .ori ign r1 imm => Sys2Proof.Machine.execORI ign r1 imm s
  | .orc r1 op => Sys2Proof.Machine.execORC r1 op s
  | .xorr ind r1 r2 => Sys2Proof.Machine.execXORR ind r1 r2 s
  | .xor r1 op => Sys2Proof.Machine.execXOR r1 op s
  | .xori ign r1 imm => Sys2Proof.Machine.execXORI ign r1 imm s
  | .xorc r1 op => Sys2Proof.Machine.execXORC r1 op s
  | .notr ind r1 r2 => Sys2Proof.Machine.execNOTR ind r1 r2 s
  | .not r1 op => Sys2Proof.Machine.execNOT r1 op s
  | .noti ign r1 imm => Sys2Proof.Machine.execNOTI ign r1 imm s
  | .notc r1 op => Sys2Proof.Machine.execNOTC r1 op s
  | .bcsr ind m1 r2 => Sys2Proof.Machine.execBCSR ind m1 r2 s
  | .bcs m1 op => Sys2Proof.Machine.execBCS m1 op s
  | .bcrr ind m1 r2 => Sys2Proof.Machine.execBCRR ind m1 r2 s
  | .bcr m1 op => Sys2Proof.Machine.execBCR m1 op s
  | .balr ind r1 r2 => Sys2Proof.Machine.execBALR ind r1 r2 s
  | .bal r1 op => Sys2Proof.Machine.execBAL r1 op s
  | .sacr ind m1 r2 => Sys2Proof.Machine.execSACR ind m1 r2 s
  | .sac m1 op => Sys2Proof.Machine.execSAC m1 op s
  | .sacc m1 op => Sys2Proof.Machine.execSACC m1 op s
  | .cr ind r1 r2 => Sys2Proof.Machine.execCR ind r1 r2 s
  | .c r1 op => Sys2Proof.Machine.execC r1 op s
  | .ci ign r1 imm => Sys2Proof.Machine.execCI ign r1 imm s
  | .cc r1 op => Sys2Proof.Machine.execCC r1 op s
  | .ccs ign m1 r2 => Sys2Proof.Machine.execCCS ign m1 r2 s
  | .mcs ign m1 r2 => Sys2Proof.Machine.execMCS ign m1 r2 s
  | .svc r1 op => Sys2Proof.Machine.execSVC r1 op s
  | .ex r1 op => Sys2Proof.Machine.execEX r1 op s
  | .la r1 op => Sys2Proof.Machine.execLA r1 op s
  | .lm ind r1 r2 addr => Sys2Proof.Machine.execLM ind r1 r2 addr s
  | .stm ind r1 r2 addr => Sys2Proof.Machine.execSTM ind r1 r2 addr s
  | .ar ind r1 r2 => Sys2Proof.Machine.execAR ind r1 r2 s
  | .a r1 op => Sys2Proof.Machine.execA r1 op s
  | .ai ign r1 imm => Sys2Proof.Machine.execAI ign r1 imm s
  | .ac r1 op => Sys2Proof.Machine.execAC r1 op s
  | .sr ind r1 r2 => Sys2Proof.Machine.execSR ind r1 r2 s
  | .s r1 op => Sys2Proof.Machine.execS r1 op s
  | .si ign r1 imm => Sys2Proof.Machine.execSI ign r1 imm s
  | .sc r1 op => Sys2Proof.Machine.execSC r1 op s
  | .rsr ind r1 r2 => Sys2Proof.Machine.execRSR ind r1 r2 s
  | .rs r1 op => Sys2Proof.Machine.execRS r1 op s
  | .rsi ign r1 imm => Sys2Proof.Machine.execRSI ign r1 imm s
  | .rsc r1 op => Sys2Proof.Machine.execRSC r1 op s
  | .mr ind r1 r2 => Sys2Proof.Machine.execMR ind r1 r2 s
  | .m r1 op => Sys2Proof.Machine.execM r1 op s
  | .mi ign r1 imm => Sys2Proof.Machine.execMI ign r1 imm s
  | .mc r1 op => Sys2Proof.Machine.execMC r1 op s
  | .dr ind r1 r2 => Sys2Proof.Machine.execDR ind r1 r2 s
  | .d r1 op => Sys2Proof.Machine.execD r1 op s
  | .di ign r1 imm => Sys2Proof.Machine.execDI ign r1 imm s
  | .dc r1 op => Sys2Proof.Machine.execDC r1 op s
  | .rdr ind r1 r2 => Sys2Proof.Machine.execRDR ind r1 r2 s
  | .rd r1 op => Sys2Proof.Machine.execRD r1 op s
  | .rdi ign r1 imm => Sys2Proof.Machine.execRDI ign r1 imm s
  | .rdc r1 op => Sys2Proof.Machine.execRDC r1 op s
  | .remr ind r1 r2 => Sys2Proof.Machine.execREMR ind r1 r2 s
  | .rem r1 op => Sys2Proof.Machine.execREM r1 op s
  | .remi ign r1 imm => Sys2Proof.Machine.execREMI ign r1 imm s
  | .remc r1 op => Sys2Proof.Machine.execREMC r1 op s
  | .rremr ind r1 r2 => Sys2Proof.Machine.execRREMR ind r1 r2 s
  | .rrem r1 op => Sys2Proof.Machine.execRREM r1 op s
  | .rremi ign r1 imm => Sys2Proof.Machine.execRREMI ign r1 imm s
  | .rremc r1 op => Sys2Proof.Machine.execRREMC r1 op s
  | .far ind r1 r2 => Sys2Proof.Machine.execFAR ind r1 r2 s
  | .fa r1 op => Sys2Proof.Machine.execFA r1 op s
  | .fai ign r1 imm => Sys2Proof.Machine.execFAI ign r1 imm s
  | .fsr ind r1 r2 => Sys2Proof.Machine.execFSR ind r1 r2 s
  | .fs r1 op => Sys2Proof.Machine.execFS r1 op s
  | .fsi ign r1 imm => Sys2Proof.Machine.execFSI ign r1 imm s
  | .rfsr ind r1 r2 => Sys2Proof.Machine.execRFSR ind r1 r2 s
  | .rfs r1 op => Sys2Proof.Machine.execRFS r1 op s
  | .rfsi ign r1 imm => Sys2Proof.Machine.execRFSI ign r1 imm s
  | .fmr ind r1 r2 => Sys2Proof.Machine.execFMR ind r1 r2 s
  | .fm r1 op => Sys2Proof.Machine.execFM r1 op s
  | .fmi ign r1 imm => Sys2Proof.Machine.execFMI ign r1 imm s
  | .fdr ind r1 r2 => Sys2Proof.Machine.execFDR ind r1 r2 s
  | .fd r1 op => Sys2Proof.Machine.execFD r1 op s
  | .fdi ign r1 imm => Sys2Proof.Machine.execFDI ign r1 imm s
  | .rfdr ind r1 r2 => Sys2Proof.Machine.execRFDR ind r1 r2 s
  | .rfd r1 op => Sys2Proof.Machine.execRFD r1 op s
  | .rfdi ign r1 imm => Sys2Proof.Machine.execRFDI ign r1 imm s
  | .floatr ind r1 r2 => Sys2Proof.Machine.execFLOATR ind r1 r2 s
  | .float r1 op => Sys2Proof.Machine.execFLOAT r1 op s
  | .floati ign r1 imm => Sys2Proof.Machine.execFLOATI ign r1 imm s
  | .fixr ind r1 r2 => Sys2Proof.Machine.execFIXR ind r1 r2 s
  | .fix r1 op => Sys2Proof.Machine.execFIX r1 op s
  | .fixi ign r1 imm => Sys2Proof.Machine.execFIXI ign r1 imm s
  | .floor r1 op => Sys2Proof.Machine.execFLOOR r1 op s
  | .ceil r1 op => Sys2Proof.Machine.execCEIL r1 op s
  | .min r1 op => Sys2Proof.Machine.execMIN r1 op s
  | .max r1 op => Sys2Proof.Machine.execMAX r1 op s
  | .shiftl r1 op => Sys2Proof.Machine.execSHIFTL r1 op s
  | .shiftc r1 op => Sys2Proof.Machine.execSHIFTC r1 op s
  | .shifta r1 op => Sys2Proof.Machine.execSHIFTA r1 op s
  | .shiftr r1 op => Sys2Proof.Machine.execSHIFTR r1 op s

end Sys2Proof.Machine
end

