-- ==== Sys2Proof/Machine/Step.lean ====
section
/-! DEFINITION. One instruction cycle (R64), and how an instruction is placed where the cycle fetches it. -/

namespace Sys2Proof.Machine

/-- One cycle of a running machine: fetch at pc, ia = pc, pc past the instruction, execute (R64). "A machine whose outcome is
not `Running` takes no further cycle" (R262). -/
def step (s : State) : Host.Outcome State Fault Refusal :=
  match s.outcome with
  | .running =>
    match s.fetch with
    | .ok f => exec f.instr (s.beginCycle.advance f.length)
    | .error e => s.beginCycle.stop e
  | .fault _ _ => .fault .runEnded
  | .supervisorCall _ _ _ => .fault .runEnded

/-- The state with the instruction of a word of the opcode table at pc, and Running, so that the next step runs it: it stands
for the load of a program from outside (R291, log 15). -/
def State.withFetchWord (s : State) (nbits w : Nat) : State :=
  { s with outcome := .running }.putBytes s.pc (tableBytes nbits w)

end Sys2Proof.Machine
end

