-- ==== Sys2Proof/Safety.lean ====
section
/-! DEFINITION. What the spec promises of every instruction and every state, in the terms the statements use: the CCR column
of each entry (R23), who raises which exception (R260), what an instruction leaves unchanged, and the states a run keeps to. -/

namespace Sys2Proof.Machine

/-! ### The CCR (R19 to R23) -/

/-- Exactly the flag of an integer's sign is set and O is not: the CCR of a value "compared to zero" (R19, R20). -/
def Ccr.isSignOf (c : Ccr) (n : Int) : Prop :=
  c.o = false ∧ (c.g = true ↔ 0 < n) ∧ (c.l = true ↔ n < 0) ∧ (c.e = true ↔ n = 0)

/-- "Bit G of the CCR is set if the final value ... is all ones, bit L is set if the result if mixed zeros and ones, and bit E is
set if the result is all zeros" (R21), and O is not. -/
def Ccr.isClassOf {n : Nat} (c : Ccr) (v : BitVec n) : Prop :=
  c.o = false ∧ (c.g = true ↔ v = BitVec.allOnes n) ∧ (c.e = true ↔ v = 0 ∧ v ≠ BitVec.allOnes n) ∧
    (c.l = true ↔ v ≠ 0 ∧ v ≠ BitVec.allOnes n)

/-- At most one of G, L, E is set: what every instruction that writes the CCR leaves (R19). -/
def Ccr.legal (c : Ccr) : Bool := !(c.g && c.l) && !(c.g && c.e) && !(c.l && c.e)

/-- The "CCR effect" column of an entry: the flags the instruction can leave at 1 (R18, R19). -/
inductive CcrEffect where
  | none
  | gle
  | ge
  | le
  | ogle
  deriving DecidableEq, Repr

/-- The CCR column of the 114 entries (R23). -/
def ccrEffect : Instr → CcrEffect
  | .lr _ _ _ => .gle
  | .l _ _ => .gle
  | .li _ _ _ => .gle
  | .lc _ _ => .ge
  | .lnr _ _ _ => .ogle
  | .ln _ _ => .ogle
  | .lni _ _ _ => .gle
  | .lnc _ _ => .le
  | .str _ _ _ => .gle
  | .st _ _ => .gle
  | .stc _ _ => .ge
  | .swapr _ _ _ => .gle
  | .swap _ _ => .gle
  | .swapc _ _ => .ge
  | .andr _ _ _ => .gle
  | .and _ _ => .gle
  | .andi _ _ _ => .le
  | .andc _ _ => .gle
  | .orr _ _ _ => .gle
  | .or _ _ => .gle
  | .ori _ _ _ => .gle
  | .orc _ _ => .gle
  | .xorr _ _ _ => .gle
  | .xor _ _ => .gle
  | .xori _ _ _ => .gle
  | .xorc _ _ => .gle
  | .notr _ _ _ => .gle
  | .not _ _ => .gle
  | .noti _ _ _ => .gle
  | .notc _ _ => .gle
  | .bcsr _ _ _ => .none
  | .bcs _ _ => .none
  | .bcrr _ _ _ => .none
  | .bcr _ _ => .none
  | .balr _ _ _ => .none
  | .bal _ _ => .none
  | .sacr _ _ _ => .none
  | .sac _ _ => .none
  | .sacc _ _ => .none
  | .cr _ _ _ => .gle
  | .c _ _ => .gle
  | .ci _ _ _ => .gle
  | .cc _ _ => .gle
  | .ccs _ _ _ => .gle
  | .mcs _ _ _ => .none
  | .svc _ _ => .none
  | .ex _ _ => .none
  | .la _ _ => .none
  | .lm _ _ _ _ => .none
  | .stm _ _ _ _ => .none
  | .ar _ _ _ => .ogle
  | .a _ _ => .ogle
  | .ai _ _ _ => .ogle
  | .ac _ _ => .ogle
  | .sr _ _ _ => .ogle
  | .s _ _ => .ogle
  | .si _ _ _ => .ogle
  | .sc _ _ => .ogle
  | .rsr _ _ _ => .ogle
  | .rs _ _ => .ogle
  | .rsi _ _ _ => .ogle
  | .rsc _ _ => .ogle
  | .mr _ _ _ => .ogle
  | .m _ _ => .ogle
  | .mi _ _ _ => .ogle
  | .mc _ _ => .ogle
  | .dr _ _ _ => .ogle
  | .d _ _ => .ogle
  | .di _ _ _ => .ogle
  | .dc _ _ => .gle
  | .rdr _ _ _ => .ogle
  | .rd _ _ => .ogle
  | .rdi _ _ _ => .gle
  | .rdc _ _ => .gle
  | .remr _ _ _ => .ge
  | .rem _ _ => .ge
  | .remi _ _ _ => .ge
  | .remc _ _ => .ge
  | .rremr _ _ _ => .ge
  | .rrem _ _ => .ge
  | .rremi _ _ _ => .ge
  | .rremc _ _ => .ge
  | .far _ _ _ => .gle
  | .fa _ _ => .gle
  | .fai _ _ _ => .gle
  | .fsr _ _ _ => .gle
  | .fs _ _ => .gle
  | .fsi _ _ _ => .gle
  | .rfsr _ _ _ => .gle
  | .rfs _ _ => .gle
  | .rfsi _ _ _ => .gle
  | .fmr _ _ _ => .gle
  | .fm _ _ => .gle
  | .fmi _ _ _ => .gle
  | .fdr _ _ _ => .gle
  | .fd _ _ => .gle
  | .fdi _ _ _ => .gle
  | .rfdr _ _ _ => .gle
  | .rfd _ _ => .gle
  | .rfdi _ _ _ => .gle
  | .floatr _ _ _ => .gle
  | .float _ _ => .gle
  | .floati _ _ _ => .gle
  | .fixr _ _ _ => .ogle
  | .fix _ _ => .ogle
  | .fixi _ _ _ => .ogle
  | .floor _ _ => .gle
  | .ceil _ _ => .gle
  | .min _ _ => .le
  | .max _ _ => .ge
  | .shiftl _ _ => .ogle
  | .shiftc _ _ => .gle
  | .shifta _ _ => .ogle
  | .shiftr _ _ => .gle

/-- Is a CCR one that an instruction with a given column can leave? "A flag not listed is left at 0" (R19), and some flag is
set. -/
def CcrEffect.allows (k : CcrEffect) (c : Ccr) : Bool :=
  c.legal && (c.o || c.g || c.l || c.e) &&
    match k with
    | .none => false
    | .gle => !c.o
    | .ge => !c.o && !c.l
    | .le => !c.o && !c.g
    | .ogle => true

/-! ### Operands and exceptions (R34, R260) -/

/-- Is the instruction an EX? -/
def isEX : Instr → Bool
  | .lr _ _ _ => false
  | .l _ _ => false
  | .li _ _ _ => false
  | .lc _ _ => false
  | .lnr _ _ _ => false
  | .ln _ _ => false
  | .lni _ _ _ => false
  | .lnc _ _ => false
  | .str _ _ _ => false
  | .st _ _ => false
  | .stc _ _ => false
  | .swapr _ _ _ => false
  | .swap _ _ => false
  | .swapc _ _ => false
  | .andr _ _ _ => false
  | .and _ _ => false
  | .andi _ _ _ => false
  | .andc _ _ => false
  | .orr _ _ _ => false
  | .or _ _ => false
  | .ori _ _ _ => false
  | .orc _ _ => false
  | .xorr _ _ _ => false
  | .xor _ _ => false
  | .xori _ _ _ => false
  | .xorc _ _ => false
  | .notr _ _ _ => false
  | .not _ _ => false
  | .noti _ _ _ => false
  | .notc _ _ => false
  | .bcsr _ _ _ => false
  | .bcs _ _ => false
  | .bcrr _ _ _ => false
  | .bcr _ _ => false
  | .balr _ _ _ => false
  | .bal _ _ => false
  | .sacr _ _ _ => false
  | .sac _ _ => false
  | .sacc _ _ => false
  | .cr _ _ _ => false
  | .c _ _ => false
  | .ci _ _ _ => false
  | .cc _ _ => false
  | .ccs _ _ _ => false
  | .mcs _ _ _ => false
  | .svc _ _ => false
  | .ex _ _ => true
  | .la _ _ => false
  | .lm _ _ _ _ => false
  | .stm _ _ _ _ => false
  | .ar _ _ _ => false
  | .a _ _ => false
  | .ai _ _ _ => false
  | .ac _ _ => false
  | .sr _ _ _ => false
  | .s _ _ => false
  | .si _ _ _ => false
  | .sc _ _ => false
  | .rsr _ _ _ => false
  | .rs _ _ => false
  | .rsi _ _ _ => false
  | .rsc _ _ => false
  | .mr _ _ _ => false
  | .m _ _ => false
  | .mi _ _ _ => false
  | .mc _ _ => false
  | .dr _ _ _ => false
  | .d _ _ => false
  | .di _ _ _ => false
  | .dc _ _ => false
  | .rdr _ _ _ => false
  | .rd _ _ => false
  | .rdi _ _ _ => false
  | .rdc _ _ => false
  | .remr _ _ _ => false
  | .rem _ _ => false
  | .remi _ _ _ => false
  | .remc _ _ => false
  | .rremr _ _ _ => false
  | .rrem _ _ => false
  | .rremi _ _ _ => false
  | .rremc _ _ => false
  | .far _ _ _ => false
  | .fa _ _ => false
  | .fai _ _ _ => false
  | .fsr _ _ _ => false
  | .fs _ _ => false
  | .fsi _ _ _ => false
  | .rfsr _ _ _ => false
  | .rfs _ _ => false
  | .rfsi _ _ _ => false
  | .fmr _ _ _ => false
  | .fm _ _ => false
  | .fmi _ _ _ => false
  | .fdr _ _ _ => false
  | .fd _ _ => false
  | .fdi _ _ _ => false
  | .rfdr _ _ _ => false
  | .rfd _ _ => false
  | .rfdi _ _ _ => false
  | .floatr _ _ _ => false
  | .float _ _ => false
  | .floati _ _ _ => false
  | .fixr _ _ _ => false
  | .fix _ _ => false
  | .fixi _ _ _ => false
  | .floor _ _ => false
  | .ceil _ _ => false
  | .min _ _ => false
  | .max _ _ => false
  | .shiftl _ _ => false
  | .shiftc _ _ => false
  | .shifta _ _ => false
  | .shiftr _ _ => false

/-- Does the instruction write the ILC? "The branch instructions ... replace it with the effective address" (R16, R17). -/
def isBranch : Instr → Bool
  | .lr _ _ _ => false
  | .l _ _ => false
  | .li _ _ _ => false
  | .lc _ _ => false
  | .lnr _ _ _ => false
  | .ln _ _ => false
  | .lni _ _ _ => false
  | .lnc _ _ => false
  | .str _ _ _ => false
  | .st _ _ => false
  | .stc _ _ => false
  | .swapr _ _ _ => false
  | .swap _ _ => false
  | .swapc _ _ => false
  | .andr _ _ _ => false
  | .and _ _ => false
  | .andi _ _ _ => false
  | .andc _ _ => false
  | .orr _ _ _ => false
  | .or _ _ => false
  | .ori _ _ _ => false
  | .orc _ _ => false
  | .xorr _ _ _ => false
  | .xor _ _ => false
  | .xori _ _ _ => false
  | .xorc _ _ => false
  | .notr _ _ _ => false
  | .not _ _ => false
  | .noti _ _ _ => false
  | .notc _ _ => false
  | .bcsr _ _ _ => true
  | .bcs _ _ => true
  | .bcrr _ _ _ => true
  | .bcr _ _ => true
  | .balr _ _ _ => true
  | .bal _ _ => true
  | .sacr _ _ _ => false
  | .sac _ _ => false
  | .sacc _ _ => false
  | .cr _ _ _ => false
  | .c _ _ => false
  | .ci _ _ _ => false
  | .cc _ _ => false
  | .ccs _ _ _ => false
  | .mcs _ _ _ => false
  | .svc _ _ => false
  | .ex _ _ => false
  | .la _ _ => false
  | .lm _ _ _ _ => false
  | .stm _ _ _ _ => false
  | .ar _ _ _ => false
  | .a _ _ => false
  | .ai _ _ _ => false
  | .ac _ _ => false
  | .sr _ _ _ => false
  | .s _ _ => false
  | .si _ _ _ => false
  | .sc _ _ => false
  | .rsr _ _ _ => false
  | .rs _ _ => false
  | .rsi _ _ _ => false
  | .rsc _ _ => false
  | .mr _ _ _ => false
  | .m _ _ => false
  | .mi _ _ _ => false
  | .mc _ _ => false
  | .dr _ _ _ => false
  | .d _ _ => false
  | .di _ _ _ => false
  | .dc _ _ => false
  | .rdr _ _ _ => false
  | .rd _ _ => false
  | .rdi _ _ _ => false
  | .rdc _ _ => false
  | .remr _ _ _ => false
  | .rem _ _ => false
  | .remi _ _ _ => false
  | .remc _ _ => false
  | .rremr _ _ _ => false
  | .rrem _ _ => false
  | .rremi _ _ _ => false
  | .rremc _ _ => false
  | .far _ _ _ => false
  | .fa _ _ => false
  | .fai _ _ _ => false
  | .fsr _ _ _ => false
  | .fs _ _ => false
  | .fsi _ _ _ => false
  | .rfsr _ _ _ => false
  | .rfs _ _ => false
  | .rfsi _ _ _ => false
  | .fmr _ _ _ => false
  | .fm _ _ => false
  | .fmi _ _ _ => false
  | .fdr _ _ _ => false
  | .fd _ _ => false
  | .fdi _ _ _ => false
  | .rfdr _ _ _ => false
  | .rfd _ _ => false
  | .rfdi _ _ _ => false
  | .floatr _ _ _ => false
  | .float _ _ => false
  | .floati _ _ _ => false
  | .fixr _ _ _ => false
  | .fix _ _ => false
  | .fixi _ _ _ => false
  | .floor _ _ => false
  | .ceil _ _ => false
  | .min _ _ => false
  | .max _ _ => false
  | .shiftl _ _ => false
  | .shiftc _ _ => false
  | .shifta _ _ => false
  | .shiftr _ _ => false

/-- Does the instruction, in some form, write memory? (R35, the two rows of writes) -/
def storesToMemory : Instr → Bool
  | .lr _ _ _ => false
  | .l _ _ => false
  | .li _ _ _ => false
  | .lc _ _ => false
  | .lnr _ _ _ => false
  | .ln _ _ => false
  | .lni _ _ _ => false
  | .lnc _ _ => false
  | .str _ _ _ => true
  | .st _ _ => true
  | .stc _ _ => true
  | .swapr _ _ _ => true
  | .swap _ _ => true
  | .swapc _ _ => true
  | .andr _ _ _ => false
  | .and _ _ => false
  | .andi _ _ _ => false
  | .andc _ _ => false
  | .orr _ _ _ => false
  | .or _ _ => false
  | .ori _ _ _ => false
  | .orc _ _ => false
  | .xorr _ _ _ => false
  | .xor _ _ => false
  | .xori _ _ _ => false
  | .xorc _ _ => false
  | .notr _ _ _ => false
  | .not _ _ => false
  | .noti _ _ _ => false
  | .notc _ _ => false
  | .bcsr _ _ _ => false
  | .bcs _ _ => false
  | .bcrr _ _ _ => false
  | .bcr _ _ => false
  | .balr _ _ _ => false
  | .bal _ _ => false
  | .sacr _ _ _ => true
  | .sac _ _ => true
  | .sacc _ _ => true
  | .cr _ _ _ => false
  | .c _ _ => false
  | .ci _ _ _ => false
  | .cc _ _ => false
  | .ccs _ _ _ => false
  | .mcs _ _ _ => true
  | .svc _ _ => false
  | .ex _ _ => false
  | .la _ _ => false
  | .lm _ _ _ _ => false
  | .stm _ _ _ _ => true
  | .ar _ _ _ => false
  | .a _ _ => false
  | .ai _ _ _ => false
  | .ac _ _ => false
  | .sr _ _ _ => false
  | .s _ _ => false
  | .si _ _ _ => false
  | .sc _ _ => false
  | .rsr _ _ _ => false
  | .rs _ _ => false
  | .rsi _ _ _ => false
  | .rsc _ _ => false
  | .mr _ _ _ => false
  | .m _ _ => false
  | .mi _ _ _ => false
  | .mc _ _ => false
  | .dr _ _ _ => false
  | .d _ _ => false
  | .di _ _ _ => false
  | .dc _ _ => false
  | .rdr _ _ _ => false
  | .rd _ _ => false
  | .rdi _ _ _ => false
  | .rdc _ _ => false
  | .remr _ _ _ => false
  | .rem _ _ => false
  | .remi _ _ _ => false
  | .remc _ _ => false
  | .rremr _ _ _ => false
  | .rrem _ _ => false
  | .rremi _ _ _ => false
  | .rremc _ _ => false
  | .far _ _ _ => false
  | .fa _ _ => false
  | .fai _ _ _ => false
  | .fsr _ _ _ => false
  | .fs _ _ => false
  | .fsi _ _ _ => false
  | .rfsr _ _ _ => false
  | .rfs _ _ => false
  | .rfsi _ _ _ => false
  | .fmr _ _ _ => false
  | .fm _ _ => false
  | .fmi _ _ _ => false
  | .fdr _ _ _ => false
  | .fd _ _ => false
  | .fdi _ _ _ => false
  | .rfdr _ _ _ => false
  | .rfd _ _ => false
  | .rfdi _ _ _ => false
  | .floatr _ _ _ => false
  | .float _ _ => false
  | .floati _ _ _ => false
  | .fixr _ _ _ => false
  | .fix _ _ => false
  | .fixi _ _ _ => false
  | .floor _ _ => false
  | .ceil _ _ => false
  | .min _ _ => false
  | .max _ _ => false
  | .shiftl _ _ => false
  | .shiftc _ _ => false
  | .shifta _ _ => false
  | .shiftr _ _ => false

/-- The fields an RS or CH instruction computes its effective address from (R59), the index taken as none in LM and STM (R61). -/
def addressFields : Instr → Option MemOperand
  | .lr _ _ _ => none
  | .l _ op => some op
  | .li _ _ _ => none
  | .lc _ op => some op
  | .lnr _ _ _ => none
  | .ln _ op => some op
  | .lni _ _ _ => none
  | .lnc _ op => some op
  | .str _ _ _ => none
  | .st _ op => some op
  | .stc _ op => some op
  | .swapr _ _ _ => none
  | .swap _ op => some op
  | .swapc _ op => some op
  | .andr _ _ _ => none
  | .and _ op => some op
  | .andi _ _ _ => none
  | .andc _ op => some op
  | .orr _ _ _ => none
  | .or _ op => some op
  | .ori _ _ _ => none
  | .orc _ op => some op
  | .xorr _ _ _ => none
  | .xor _ op => some op
  | .xori _ _ _ => none
  | .xorc _ op => some op
  | .notr _ _ _ => none
  | .not _ op => some op
  | .noti _ _ _ => none
  | .notc _ op => some op
  | .bcsr _ _ _ => none
  | .bcs _ op => some op
  | .bcrr _ _ _ => none
  | .bcr _ op => some op
  | .balr _ _ _ => none
  | .bal _ op => some op
  | .sacr _ _ _ => none
  | .sac _ op => some op
  | .sacc _ op => some op
  | .cr _ _ _ => none
  | .c _ op => some op
  | .ci _ _ _ => none
  | .cc _ op => some op
  | .ccs _ _ _ => none
  | .mcs _ _ _ => none
  | .svc _ op => some op
  | .ex _ op => some op
  | .la _ op => some op
  | .lm ind _ _ addr => some ⟨ind, none, addr⟩
  | .stm ind _ _ addr => some ⟨ind, none, addr⟩
  | .ar _ _ _ => none
  | .a _ op => some op
  | .ai _ _ _ => none
  | .ac _ op => some op
  | .sr _ _ _ => none
  | .s _ op => some op
  | .si _ _ _ => none
  | .sc _ op => some op
  | .rsr _ _ _ => none
  | .rs _ op => some op
  | .rsi _ _ _ => none
  | .rsc _ op => some op
  | .mr _ _ _ => none
  | .m _ op => some op
  | .mi _ _ _ => none
  | .mc _ op => some op
  | .dr _ _ _ => none
  | .d _ op => some op
  | .di _ _ _ => none
  | .dc _ op => some op
  | .rdr _ _ _ => none
  | .rd _ op => some op
  | .rdi _ _ _ => none
  | .rdc _ op => some op
  | .remr _ _ _ => none
  | .rem _ op => some op
  | .remi _ _ _ => none
  | .remc _ op => some op
  | .rremr _ _ _ => none
  | .rrem _ op => some op
  | .rremi _ _ _ => none
  | .rremc _ op => some op
  | .far _ _ _ => none
  | .fa _ op => some op
  | .fai _ _ _ => none
  | .fsr _ _ _ => none
  | .fs _ op => some op
  | .fsi _ _ _ => none
  | .rfsr _ _ _ => none
  | .rfs _ op => some op
  | .rfsi _ _ _ => none
  | .fmr _ _ _ => none
  | .fm _ op => some op
  | .fmi _ _ _ => none
  | .fdr _ _ _ => none
  | .fd _ op => some op
  | .fdi _ _ _ => none
  | .rfdr _ _ _ => none
  | .rfd _ op => some op
  | .rfdi _ _ _ => none
  | .floatr _ _ _ => none
  | .float _ op => some op
  | .floati _ _ _ => none
  | .fixr _ _ _ => none
  | .fix _ op => some op
  | .fixi _ _ _ => none
  | .floor _ op => some op
  | .ceil _ op => some op
  | .min _ op => some op
  | .max _ op => some op
  | .shiftl _ op => some op
  | .shiftc _ op => some op
  | .shifta _ op => some op
  | .shiftr _ op => some op

/-- The address the instruction's effective-address algorithm gives in a state, if it gives one (R59, R61). -/
def effectiveAddress (i : Instr) (s : State) : Option Addr :=
  match addressFields i with
  | none => none
  | some op =>
    match s.ea op with
    | .ok ea => some ea
    | .error _ => none

/-- Does the RS-format instruction access a word at its effective address? "all of RS format except BCS, BCR, BAL, SVC, EX, LA,
SHIFTL, SHIFTC, SHIFTA, SHIFTR" (R34). -/
def accessesWord : Instr → Bool
  | .lr _ _ _ => false
  | .l _ _ => true
  | .li _ _ _ => false
  | .lc _ _ => false
  | .lnr _ _ _ => false
  | .ln _ _ => true
  | .lni _ _ _ => false
  | .lnc _ _ => false
  | .str _ _ _ => false
  | .st _ _ => true
  | .stc _ _ => false
  | .swapr _ _ _ => false
  | .swap _ _ => true
  | .swapc _ _ => false
  | .andr _ _ _ => false
  | .and _ _ => true
  | .andi _ _ _ => false
  | .andc _ _ => false
  | .orr _ _ _ => false
  | .or _ _ => true
  | .ori _ _ _ => false
  | .orc _ _ => false
  | .xorr _ _ _ => false
  | .xor _ _ => true
  | .xori _ _ _ => false
  | .xorc _ _ => false
  | .notr _ _ _ => false
  | .not _ _ => true
  | .noti _ _ _ => false
  | .notc _ _ => false
  | .bcsr _ _ _ => false
  | .bcs _ _ => false
  | .bcrr _ _ _ => false
  | .bcr _ _ => false
  | .balr _ _ _ => false
  | .bal _ _ => false
  | .sacr _ _ _ => false
  | .sac _ _ => true
  | .sacc _ _ => false
  | .cr _ _ _ => false
  | .c _ _ => true
  | .ci _ _ _ => false
  | .cc _ _ => false
  | .ccs _ _ _ => false
  | .mcs _ _ _ => false
  | .svc _ _ => false
  | .ex _ _ => false
  | .la _ _ => false
  | .lm _ _ _ _ => true
  | .stm _ _ _ _ => true
  | .ar _ _ _ => false
  | .a _ _ => true
  | .ai _ _ _ => false
  | .ac _ _ => false
  | .sr _ _ _ => false
  | .s _ _ => true
  | .si _ _ _ => false
  | .sc _ _ => false
  | .rsr _ _ _ => false
  | .rs _ _ => true
  | .rsi _ _ _ => false
  | .rsc _ _ => false
  | .mr _ _ _ => false
  | .m _ _ => true
  | .mi _ _ _ => false
  | .mc _ _ => false
  | .dr _ _ _ => false
  | .d _ _ => true
  | .di _ _ _ => false
  | .dc _ _ => false
  | .rdr _ _ _ => false
  | .rd _ _ => true
  | .rdi _ _ _ => false
  | .rdc _ _ => false
  | .remr _ _ _ => false
  | .rem _ _ => true
  | .remi _ _ _ => false
  | .remc _ _ => false
  | .rremr _ _ _ => false
  | .rrem _ _ => true
  | .rremi _ _ _ => false
  | .rremc _ _ => false
  | .far _ _ _ => false
  | .fa _ _ => true
  | .fai _ _ _ => false
  | .fsr _ _ _ => false
  | .fs _ _ => true
  | .fsi _ _ _ => false
  | .rfsr _ _ _ => false
  | .rfs _ _ => true
  | .rfsi _ _ _ => false
  | .fmr _ _ _ => false
  | .fm _ _ => true
  | .fmi _ _ _ => false
  | .fdr _ _ _ => false
  | .fd _ _ => true
  | .fdi _ _ _ => false
  | .rfdr _ _ _ => false
  | .rfd _ _ => true
  | .rfdi _ _ _ => false
  | .floatr _ _ _ => false
  | .float _ _ => true
  | .floati _ _ _ => false
  | .fixr _ _ _ => false
  | .fix _ _ => true
  | .fixi _ _ _ => false
  | .floor _ _ => true
  | .ceil _ _ => true
  | .min _ _ => true
  | .max _ _ => true
  | .shiftl _ _ => false
  | .shiftc _ _ => false
  | .shifta _ _ => false
  | .shiftr _ _ => false

/-- The register that holds the operand's address in an RR instruction with a word operand and the indirect bit 1 (R34, R57):
all but BCSR, BCRR, BALR, CCS and MCS (R260). -/
def addressRegister : Instr → Option Reg
  | .lr ind _ r2 => if ind then some r2 else none
  | .l _ _ => none
  | .li _ _ _ => none
  | .lc _ _ => none
  | .lnr ind _ r2 => if ind then some r2 else none
  | .ln _ _ => none
  | .lni _ _ _ => none
  | .lnc _ _ => none
  | .str ind _ r2 => if ind then some r2 else none
  | .st _ _ => none
  | .stc _ _ => none
  | .swapr ind _ r2 => if ind then some r2 else none
  | .swap _ _ => none
  | .swapc _ _ => none
  | .andr ind _ r2 => if ind then some r2 else none
  | .and _ _ => none
  | .andi _ _ _ => none
  | .andc _ _ => none
  | .orr ind _ r2 => if ind then some r2 else none
  | .or _ _ => none
  | .ori _ _ _ => none
  | .orc _ _ => none
  | .xorr ind _ r2 => if ind then some r2 else none
  | .xor _ _ => none
  | .xori _ _ _ => none
  | .xorc _ _ => none
  | .notr ind _ r2 => if ind then some r2 else none
  | .not _ _ => none
  | .noti _ _ _ => none
  | .notc _ _ => none
  | .bcsr _ _ _ => none
  | .bcs _ _ => none
  | .bcrr _ _ _ => none
  | .bcr _ _ => none
  | .balr _ _ _ => none
  | .bal _ _ => none
  | .sacr ind _ r2 => if ind then some r2 else none
  | .sac _ _ => none
  | .sacc _ _ => none
  | .cr ind _ r2 => if ind then some r2 else none
  | .c _ _ => none
  | .ci _ _ _ => none
  | .cc _ _ => none
  | .ccs _ _ _ => none
  | .mcs _ _ _ => none
  | .svc _ _ => none
  | .ex _ _ => none
  | .la _ _ => none
  | .lm _ _ _ _ => none
  | .stm _ _ _ _ => none
  | .ar ind _ r2 => if ind then some r2 else none
  | .a _ _ => none
  | .ai _ _ _ => none
  | .ac _ _ => none
  | .sr ind _ r2 => if ind then some r2 else none
  | .s _ _ => none
  | .si _ _ _ => none
  | .sc _ _ => none
  | .rsr ind _ r2 => if ind then some r2 else none
  | .rs _ _ => none
  | .rsi _ _ _ => none
  | .rsc _ _ => none
  | .mr ind _ r2 => if ind then some r2 else none
  | .m _ _ => none
  | .mi _ _ _ => none
  | .mc _ _ => none
  | .dr ind _ r2 => if ind then some r2 else none
  | .d _ _ => none
  | .di _ _ _ => none
  | .dc _ _ => none
  | .rdr ind _ r2 => if ind then some r2 else none
  | .rd _ _ => none
  | .rdi _ _ _ => none
  | .rdc _ _ => none
  | .remr ind _ r2 => if ind then some r2 else none
  | .rem _ _ => none
  | .remi _ _ _ => none
  | .remc _ _ => none
  | .rremr ind _ r2 => if ind then some r2 else none
  | .rrem _ _ => none
  | .rremi _ _ _ => none
  | .rremc _ _ => none
  | .far ind _ r2 => if ind then some r2 else none
  | .fa _ _ => none
  | .fai _ _ _ => none
  | .fsr ind _ r2 => if ind then some r2 else none
  | .fs _ _ => none
  | .fsi _ _ _ => none
  | .rfsr ind _ r2 => if ind then some r2 else none
  | .rfs _ _ => none
  | .rfsi _ _ _ => none
  | .fmr ind _ r2 => if ind then some r2 else none
  | .fm _ _ => none
  | .fmi _ _ _ => none
  | .fdr ind _ r2 => if ind then some r2 else none
  | .fd _ _ => none
  | .fdi _ _ _ => none
  | .rfdr ind _ r2 => if ind then some r2 else none
  | .rfd _ _ => none
  | .rfdi _ _ _ => none
  | .floatr ind _ r2 => if ind then some r2 else none
  | .float _ _ => none
  | .floati _ _ _ => none
  | .fixr ind _ r2 => if ind then some r2 else none
  | .fix _ _ => none
  | .fixi _ _ _ => none
  | .floor _ _ => none
  | .ceil _ _ => none
  | .min _ _ => none
  | .max _ _ => none
  | .shiftl _ _ => none
  | .shiftc _ _ => none
  | .shifta _ _ => none
  | .shiftr _ _ => none

/-- The address of the instruction's word operand in memory, if it has one: what the word-addressing check is made on (R34). -/
def wordOperandAddress (i : Instr) (s : State) : Option Addr :=
  match addressRegister i with
  | some r2 => some (lowHalf (s.reg r2))
  | none => if accessesWord i then effectiveAddress i s else none

/-- The instructions of R260's row X6. -/
def dividesByZero : Instr → Bool
  | .lr _ _ _ => false
  | .l _ _ => false
  | .li _ _ _ => false
  | .lc _ _ => false
  | .lnr _ _ _ => false
  | .ln _ _ => false
  | .lni _ _ _ => false
  | .lnc _ _ => false
  | .str _ _ _ => false
  | .st _ _ => false
  | .stc _ _ => false
  | .swapr _ _ _ => false
  | .swap _ _ => false
  | .swapc _ _ => false
  | .andr _ _ _ => false
  | .and _ _ => false
  | .andi _ _ _ => false
  | .andc _ _ => false
  | .orr _ _ _ => false
  | .or _ _ => false
  | .ori _ _ _ => false
  | .orc _ _ => false
  | .xorr _ _ _ => false
  | .xor _ _ => false
  | .xori _ _ _ => false
  | .xorc _ _ => false
  | .notr _ _ _ => false
  | .not _ _ => false
  | .noti _ _ _ => false
  | .notc _ _ => false
  | .bcsr _ _ _ => false
  | .bcs _ _ => false
  | .bcrr _ _ _ => false
  | .bcr _ _ => false
  | .balr _ _ _ => false
  | .bal _ _ => false
  | .sacr _ _ _ => false
  | .sac _ _ => false
  | .sacc _ _ => false
  | .cr _ _ _ => false
  | .c _ _ => false
  | .ci _ _ _ => false
  | .cc _ _ => false
  | .ccs _ _ _ => false
  | .mcs _ _ _ => false
  | .svc _ _ => false
  | .ex _ _ => false
  | .la _ _ => false
  | .lm _ _ _ _ => false
  | .stm _ _ _ _ => false
  | .ar _ _ _ => false
  | .a _ _ => false
  | .ai _ _ _ => false
  | .ac _ _ => false
  | .sr _ _ _ => false
  | .s _ _ => false
  | .si _ _ _ => false
  | .sc _ _ => false
  | .rsr _ _ _ => false
  | .rs _ _ => false
  | .rsi _ _ _ => false
  | .rsc _ _ => false
  | .mr _ _ _ => false
  | .m _ _ => false
  | .mi _ _ _ => false
  | .mc _ _ => false
  | .dr _ _ _ => true
  | .d _ _ => true
  | .di _ _ _ => true
  | .dc _ _ => true
  | .rdr _ _ _ => true
  | .rd _ _ => true
  | .rdi _ _ _ => true
  | .rdc _ _ => true
  | .remr _ _ _ => true
  | .rem _ _ => true
  | .remi _ _ _ => true
  | .remc _ _ => true
  | .rremr _ _ _ => true
  | .rrem _ _ => true
  | .rremi _ _ _ => true
  | .rremc _ _ => true
  | .far _ _ _ => false
  | .fa _ _ => false
  | .fai _ _ _ => false
  | .fsr _ _ _ => false
  | .fs _ _ => false
  | .fsi _ _ _ => false
  | .rfsr _ _ _ => false
  | .rfs _ _ => false
  | .rfsi _ _ _ => false
  | .fmr _ _ _ => false
  | .fm _ _ => false
  | .fmi _ _ _ => false
  | .fdr _ _ _ => true
  | .fd _ _ => true
  | .fdi _ _ _ => true
  | .rfdr _ _ _ => true
  | .rfd _ _ => true
  | .rfdi _ _ _ => true
  | .floatr _ _ _ => false
  | .float _ _ => false
  | .floati _ _ _ => false
  | .fixr _ _ _ => false
  | .fix _ _ => false
  | .fixi _ _ _ => false
  | .floor _ _ => false
  | .ceil _ _ => false
  | .min _ _ => false
  | .max _ _ => false
  | .shiftl _ _ => false
  | .shiftc _ _ => false
  | .shifta _ _ => false
  | .shiftr _ _ => false

/-- The instructions of R226 and of R260's row X7. -/
def checksRealFormat : Instr → Bool
  | .lr _ _ _ => false
  | .l _ _ => false
  | .li _ _ _ => false
  | .lc _ _ => false
  | .lnr _ _ _ => false
  | .ln _ _ => false
  | .lni _ _ _ => false
  | .lnc _ _ => false
  | .str _ _ _ => false
  | .st _ _ => false
  | .stc _ _ => false
  | .swapr _ _ _ => false
  | .swap _ _ => false
  | .swapc _ _ => false
  | .andr _ _ _ => false
  | .and _ _ => false
  | .andi _ _ _ => false
  | .andc _ _ => false
  | .orr _ _ _ => false
  | .or _ _ => false
  | .ori _ _ _ => false
  | .orc _ _ => false
  | .xorr _ _ _ => false
  | .xor _ _ => false
  | .xori _ _ _ => false
  | .xorc _ _ => false
  | .notr _ _ _ => false
  | .not _ _ => false
  | .noti _ _ _ => false
  | .notc _ _ => false
  | .bcsr _ _ _ => false
  | .bcs _ _ => false
  | .bcrr _ _ _ => false
  | .bcr _ _ => false
  | .balr _ _ _ => false
  | .bal _ _ => false
  | .sacr _ _ _ => false
  | .sac _ _ => false
  | .sacc _ _ => false
  | .cr _ _ _ => false
  | .c _ _ => false
  | .ci _ _ _ => false
  | .cc _ _ => false
  | .ccs _ _ _ => false
  | .mcs _ _ _ => false
  | .svc _ _ => false
  | .ex _ _ => false
  | .la _ _ => false
  | .lm _ _ _ _ => false
  | .stm _ _ _ _ => false
  | .ar _ _ _ => false
  | .a _ _ => false
  | .ai _ _ _ => false
  | .ac _ _ => false
  | .sr _ _ _ => false
  | .s _ _ => false
  | .si _ _ _ => false
  | .sc _ _ => false
  | .rsr _ _ _ => false
  | .rs _ _ => false
  | .rsi _ _ _ => false
  | .rsc _ _ => false
  | .mr _ _ _ => false
  | .m _ _ => false
  | .mi _ _ _ => false
  | .mc _ _ => false
  | .dr _ _ _ => false
  | .d _ _ => false
  | .di _ _ _ => false
  | .dc _ _ => false
  | .rdr _ _ _ => false
  | .rd _ _ => false
  | .rdi _ _ _ => false
  | .rdc _ _ => false
  | .remr _ _ _ => false
  | .rem _ _ => false
  | .remi _ _ _ => false
  | .remc _ _ => false
  | .rremr _ _ _ => false
  | .rrem _ _ => false
  | .rremi _ _ _ => false
  | .rremc _ _ => false
  | .far _ _ _ => true
  | .fa _ _ => true
  | .fai _ _ _ => true
  | .fsr _ _ _ => true
  | .fs _ _ => true
  | .fsi _ _ _ => true
  | .rfsr _ _ _ => true
  | .rfs _ _ => true
  | .rfsi _ _ _ => true
  | .fmr _ _ _ => true
  | .fm _ _ => true
  | .fmi _ _ _ => true
  | .fdr _ _ _ => true
  | .fd _ _ => true
  | .fdi _ _ _ => true
  | .rfdr _ _ _ => true
  | .rfd _ _ => true
  | .rfdi _ _ _ => true
  | .floatr _ _ _ => false
  | .float _ _ => false
  | .floati _ _ _ => false
  | .fixr _ _ _ => false
  | .fix _ _ => false
  | .fixi _ _ _ => false
  | .floor _ _ => false
  | .ceil _ _ => false
  | .min _ _ => false
  | .max _ _ => false
  | .shiftl _ _ => false
  | .shiftc _ _ => false
  | .shifta _ _ => false
  | .shiftr _ _ => true

/-- Can the instruction itself, not a subject it executes, raise the exception, by the column "raised by" of R260? X1 belongs to
the fetch, X2 to the fetch and to EX. -/
def raises (i : Instr) : Exception → Bool
  | .illegalInstructionAddress _ => false
  | .unimplementedInstruction _ _ => isEX i
  | .indirectAddress _ => (addressFields i).isSome
  | .wordAddressing _ => (addressRegister i).isSome || accessesWord i
  | .executeAddress _ => isEX i
  | .zeroDivisor => dividesByZero i
  | .realFormat => checksRealFormat i

/-! ### Frames -/

/-- Is the character at an address one of a register's characters? Never when `REG_MEM_ALIAS` is `none` (R14). -/
def State.shares (s : State) (a : Addr) (r : Reg) : Bool := s.inRegs a && regAt a == r

/-- Everything outside some registers and some characters of memory, the CCR and pc is as it was: every other register (but
for one whose image holds a character of the second list), every other character (but for one in the image of a register of
the first list), the outcome, ia and the parameters. -/
structure Unchanged (rs : List Reg) (as : List Addr) (s t : State) : Prop where
  regs : ∀ r, r ∉ rs → (∀ a ∈ as, s.shares a r = false) → t.reg r = s.reg r
  bytes : ∀ a, a ∉ as → (∀ r ∈ rs, s.shares a r = false) → t.byteAt a = s.byteAt a
  outcome : t.outcome = s.outcome
  ia : t.ia = s.ia
  params : t.params = s.params

/-- The four characters of the word at an address (R30). -/
def wordBytes (a : Addr) : List Addr := [a, a + 1, a + 2, a + 3]

/-- The n characters from an address on. -/
def byteRange (a : Addr) (n : Nat) : List Addr := (List.range n).map fun k => a + BitVec.ofNat 16 k

/-- Register r1 holds v; pc is as it was, and so is everything else but the CCR. -/
structure PutsInRegister (r1 : Reg) (v : Word) (s t : State) : Prop where
  value : t.reg r1 = v
  pc : t.pc = s.pc
  frame : Unchanged [r1] [] s t

/-- The word at an address holds v; pc is as it was, and so is everything else but the CCR. -/
structure PutsInMemory (a : Addr) (v : Word) (s t : State) : Prop where
  value : t.wordAt a = v
  pc : t.pc = s.pc
  frame : Unchanged [] (wordBytes a) s t

/-- The character at an address is c; pc is as it was, and so is everything else but the CCR. -/
structure PutsCharacter (a : Addr) (c : Byte) (s t : State) : Prop where
  value : t.byteAt a = c
  pc : t.pc = s.pc
  frame : Unchanged [] [a] s t

/-! ### What an instruction does with its operand -/

/-- The CCR of an exact result n: "If overflow occurs, only the O bit of the CCR is set", else the sign of n (R221). -/
def Ccr.isArithmetic (c : Ccr) (n : Int) : Prop :=
  if -2 ^ 31 ≤ n ∧ n ≤ 2 ^ 31 - 1 then c.isSignOf n else c = .onlyO

/-- The CCR of a shift: O as the shift says, G, L and E from the result (R230). -/
def Ccr.isShiftOf (c : Ccr) (ovf : Prop) (r : Word) : Prop :=
  (c.o = true ↔ ovf) ∧ (c.g = true ↔ 0 < r.toInt) ∧ (c.l = true ↔ r.toInt < 0) ∧ (c.e = true ↔ r.toInt = 0)

/-- The CCR of a real result: its sign, O cleared (R225). -/
def Ccr.isRealSign (c : Ccr) (w : Word) : Prop :=
  c.o = false ∧ (c.g = true ↔ Config.real.sign w = .positive) ∧ (c.l = true ↔ Config.real.sign w = .negative) ∧
    (c.e = true ↔ Config.real.sign w = .zero)

/-- "as a number CCR = 8*O + 4*G + 2*L + 1*E" (R22). -/
def Ccr.number (c : Ccr) : Nat := 8 * c.o.toNat + 4 * c.g.toNat + 2 * c.l.toNat + c.e.toNat

/-- Something said of an operation's register, storage, immediate and character forms with its operand as an integer: the word
of an RR or RS form and the immediate as two's complement, the character zero-extended (R57 to R59, R62, R63). -/
def FourForms (rr : Bool → Reg → Reg → Instr) (rs : Reg → MemOperand → Instr) (im : Bool → Reg → Imm → Instr)
    (ch : Reg → MemOperand → Instr) (claim : Instr → State → Reg → Int → Prop) : Prop :=
  (∀ ind r1 r2 s w, s.wordRR ind r2 = .ok w → claim (rr ind r1 r2) s r1 w.toInt) ∧
  (∀ r1 op s w, s.wordRS op = .ok w → claim (rs r1 op) s r1 w.toInt) ∧
  (∀ ign r1 imm s, claim (im ign r1 imm) s r1 imm.toInt) ∧
  (∀ r1 op s c, s.charCH op = .ok c → claim (ch r1 op) s r1 c.toNat)

/-- Something said of an operation's register, storage and immediate forms with its operand as a word: the immediate is extended
as the instruction does (R57 to R59, R62). -/
def ThreeForms (rr : Bool → Reg → Reg → Instr) (rs : Reg → MemOperand → Instr) (im : Bool → Reg → Imm → Instr)
    (extend : Imm → Word) (claim : Instr → State → Reg → Word → Prop) : Prop :=
  (∀ ind r1 r2 s w, s.wordRR ind r2 = .ok w → claim (rr ind r1 r2) s r1 w) ∧
  (∀ r1 op s w, s.wordRS op = .ok w → claim (rs r1 op) s r1 w) ∧
  (∀ ign r1 imm s, claim (im ign r1 imm) s r1 (extend imm))

/-- The instruction gives a next state with the low-order 32 bits of the exact integer n in R1 and the CCR of n (R221). -/
def GivesInteger (i : Instr) (s : State) (r1 : Reg) (n : Int) : Prop :=
  ∃ t, exec i s = .next t ∧ PutsInRegister r1 (BitVec.ofInt 32 n) s t ∧ t.ccr.isArithmetic n

/-- The instruction gives a next state with the real result in R1 and the CCR of its sign or, where `REAL` answers so, that of
the exception (R225). -/
def GivesReal (i : Instr) (s : State) (r1 : Reg) (res : RealResult) : Prop :=
  ∃ t, exec i s = .next t ∧
    match res with
    | .ok w => PutsInRegister r1 w s t ∧ t.ccr.isRealSign w
    | .realFormat => t = s.takeException .realFormat
    | .zeroDivisor => t = s.takeException .zeroDivisor

/-- A real divide gives the quotient `REAL` answers for a by b (R225). If b compares equal to zero it takes the zero divisor
exception (R195), or the real-format exception if an operand is badly formed (R264, log 19); for any other b, `REAL` does not
answer ZeroDivisor (R224). -/
def GivesQuotient (i : Instr) (s : State) (r1 : Reg) (a b : Word) : Prop :=
  GivesReal i s r1 (Config.real.div a b) ∧
  (Config.real.sign b = .zero → exec i s = .next (s.takeException
    (if Config.real.valid a = true ∧ Config.real.valid b = true then .zeroDivisor else .realFormat))) ∧
  (Config.real.sign b ≠ .zero → Config.real.div a b ≠ .zeroDivisor)

/-! ### The operands of CCS, MCS, LM and STM -/

/-- The address A1 of a string instruction after k steps of the stride (R144). -/
def stringA1 (m1 : Mask) (r2 : Reg) (s : State) (k : Nat) : Addr :=
  lowHalf (s.reg r2) + BitVec.ofNat 16 k * m1.signExtend 16

/-- The address A2 of a string instruction after k steps (R144). -/
def stringA2 (r2 : Reg) (s : State) (k : Nat) : Addr := lowHalf (s.reg (r2 + 1)) + BitVec.ofNat 16 k

/-- The length L of a string descriptor (R12). -/
def stringLength (r2 : Reg) (s : State) : Nat := (highHalf (s.reg (r2 + 1))).toNat

/-- The address of the k-th word of LM and STM, reduced modulo 2^16 (R149, R37). -/
def rangeWord (a : Addr) (k : Nat) : Addr := a + BitVec.ofNat 16 (4 * k)

/-- The k-th register of LM and STM, `(R1 + k) mod 16` (R149). -/
def rangeReg (r1 : Reg) (k : Nat) : Reg := r1 + Fin.ofNat 16 k

/-- How many registers LM and STM transfer: "registers R1 through 15 and 0 through R2" if R2 is less than R1 (R149). -/
def rangeLength (r1 r2 : Reg) : Nat := if r1 ≤ r2 then r2.val - r1.val + 1 else 16 - r1.val + r2.val + 1

/-- The registers of LM. -/
def rangeRegs (r1 : Reg) (n : Nat) : List Reg := (List.range n).map (rangeReg r1)

/-! ### The states a run keeps to -/

/-- What an ended run shows: after a fault, pc is the address of the faulting instruction (R261) and the exception's detail is
the one its cause gives (R260); after a supervisor call, the address of an instruction that was fetched (R267). -/
def State.outcomeOk (s : State) : Prop :=
  match s.outcome with
  | .running => True
  | .supervisorCall ia _ _ => s.ia = ia ∧ isEven ia = true
  | .fault e ia => s.pc = ia ∧ s.ia = ia ∧
    match e with
    | .illegalInstructionAddress p => p = ia ∧ isEven p = false
    | .unimplementedInstruction a op => isEven ia = true ∧ isEven a = true ∧ isAssigned op = false
    | .indirectAddress a => isEven ia = true ∧ isEven a = false
    | .wordAddressing ea => isEven ia = true ∧ onWordBoundary ea = false
    | .executeAddress ea => isEven ia = true ∧ isEven ea = false
    | .zeroDivisor => isEven ia = true
    | .realFormat => isEven ia = true

/-- The invariant: memory in canonical form, the parameters in their ranges, at most one of G, L, E set, and an ended run
showing what ended it. -/
structure State.Inv (s : State) : Prop where
  mem : s.mem.wf = true
  params : s.params.wf = true
  ccr : s.ccr.legal = true
  outcome : s.outcomeOk

/-- A safe run: no step of it has faulted or stopped; it is still running or has called the supervisor. -/
def safeOutcome : RunOutcome → Bool
  | .running => true
  | .supervisorCall _ _ _ => true
  | .fault _ _ => false

end Sys2Proof.Machine
end

