-- ==== Sys2Proof/Certificates/Slice0/Obligations.lean ====
section
/-! DEFINITION. The statements of this model, for the provers. -/

open Sys2Proof
open Sys2Proof.Machine

/-- For every well-formed instruction i and any characters after it, decode (encode i ++ rest) is i and the rest: no field
of the four formats is dropped. (R51 to R56, R65) -/
def Obligations.DecodeInvertsEncode : Prop :=
  ∀ (i : Instr) (rest : List Byte), i.wf = true → decode (encode i ++ rest) = .ok (i, rest)

/-- If decode of a list of characters is an instruction i and a rest, then i is well formed and the list is encode i
followed by the rest: every word of characters has at most one meaning and every bit of it is kept. (R51 to R56, R65) -/
def Obligations.EncodeInvertsDecode : Prop :=
  ∀ (bs rest : List Byte) (i : Instr), decode bs = .ok (i, rest) → i.wf = true ∧ encode i ++ rest = bs

/-- Seven words of the examples of R68, R101, R103, R131, R144, R147 and R149, character by character, decode to the
instructions these rules say. (R68, R101, R103, R131, R144, R147, R149) -/
def Obligations.DecodeSampleWords : Prop :=
  decode [0x00, 0x12] = .ok (.lr false 1 2, []) ∧
  decode [0xA1, 0x12, 0x01, 0x00] = .ok (.ln 1 ⟨true, some 2, 0x0100⟩, []) ∧
  decode [0x40, 0x3F, 0xFF, 0xFF] = .ok (.li false 3 0xFFFFF, []) ∧
  decode [0x88, 0x4E] = .ok (.bcsr true 4 14, []) ∧
  decode [0x0E, 0x12] = .ok (.ccs false 1 2, []) ∧
  decode [0x2F, 0x01, 0x00, 0x00] = .ok (.ex 0 ⟨false, some 1, 0⟩, []) ∧
  decode [0x6E, 0xE0, 0x01, 0x00] = .ok (.lm false 14 0 0x0100, [])

/-- Whenever characters decode, the instruction takes two of them if bits 1 and 2 of the first character are 00 and four
otherwise. (R50, R52) -/
def Obligations.LengthFromOpcode : Prop :=
  ∀ (c0 : Byte) (tail rest : List Byte) (i : Instr), decode (c0 :: tail) = .ok (i, rest) →
    (c0 :: tail).length = rest.length + (if c0.extractLsb' 5 2 = 0 then 2 else 4)

/-- Characters whose first holds one of the fourteen unassigned opcodes decode to the unimplemented-opcode error, whatever
else they hold; four characters with any other opcode always decode. (R66, R67) -/
def Obligations.IllegalOpcodesAreTheFourteen : Prop :=
  (∀ (c0 : Byte) (tail : List Byte), opcodeOf c0 ∈ unassignedOpcodes →
      decode (c0 :: tail) = .error (.unimplemented (opcodeOf c0))) ∧
  ∀ (c0 c1 c2 c3 : Byte) (tail : List Byte), opcodeOf c0 ∉ unassignedOpcodes →
    ∃ i rest, decode (c0 :: c1 :: c2 :: c3 :: tail) = .ok (i, rest)

/-- For CCS, MCS and the 23 immediate instructions exec answers the same with the indirect bit 0 and 1, and for EX the same
whatever bits 8 to 11 hold. (R67, R147) -/
def Obligations.IgnoredFieldsDoNotMatter : Prop :=
  ∀ (a b : Bool) (r q r2 : Reg) (m : Mask) (v : Imm) (op : MemOperand) (s : State),
    exec (.ccs a m r2) s = exec (.ccs b m r2) s ∧ exec (.mcs a m r2) s = exec (.mcs b m r2) s ∧
    exec (.ex r op) s = exec (.ex q op) s ∧
    ∀ f ∈ [Instr.li, .lni, .andi, .ori, .xori, .noti, .ci, .ai, .si, .rsi, .mi, .di, .rdi, .remi, .rremi, .fai, .fsi, .rfsi,
      .fmi, .fdi, .rfdi, .floati, .fixi], exec (f a r v) s = exec (f b r v) s

/-- In a state whose memory is in canonical form, after a one-character write the written address reads the new character
and every other address what it read before, with and without register sharing; the write fails only if the address is at or
above MEM_SIZE. (R30, R36, R38) -/
def Obligations.CharacterReadAfterWrite : Prop :=
  ∀ (s : State) (a : Addr) (c : Byte), s.mem.wf = true →
    (a.toNat < s.params.memSize →
      ∃ t, s.memWrite1 a c = .ok t ∧ t.memRead1 a = .ok c ∧ (∀ b, b ≠ a → t.byteAt b = s.byteAt b) ∧
        t.mem.wf = true ∧ Unchanged [] [a] s t ∧ t.pc = s.pc ∧ t.ccr = s.ccr) ∧
    (s.params.memSize ≤ a.toNat → s.memWrite1 a c = .error (.absent a) ∧ s.memRead1 a = .error (.absent a))

/-- After MemWrite(a, 4, w), one-character reads at a to a+3 give w[0:7] to w[24:31], the two-character read at a+2 gives
w[16:31], the last character is the one STC stores, an instruction fetched at a sees the same four characters, and every
other character is as before. The order of the characters of a data word is the spec's decision D1, which the model follows
(log 17). (R30, R31, R32) -/
def Obligations.MixedWidthAccess : Prop :=
  ∀ (s t : State) (a : Addr) (w : Word), s.mem.wf = true → s.memWrite4 a w = .ok t →
    (∀ k < 4, t.memRead1 (a + BitVec.ofNat 16 k) = .ok (w.extractLsb' (24 - 8 * k) 8)) ∧
    t.memRead1 (a + 3) = .ok (lowChar w) ∧ t.memRead2 (a + 2) = .ok (lowHalf w) ∧ t.memRead4 a = .ok w ∧
    t.instrBytes a 4 = [w.extractLsb' 24 8, w.extractLsb' 16 8, w.extractLsb' 8 8, w.extractLsb' 0 8] ∧
    ∀ b, b ∉ wordBytes a → t.byteAt b = s.byteAt b

/-- A register location reads and writes the register and never raises; a memory location at an address not divisible by 4
raises the word-addressing exception with that address for a read and for a write, and otherwise is the four-character
access; the location of an RS instruction is the memory word at its effective address. That a word boundary is an address
divisible by 4 is the spec's decision D2, which the model follows (log 17). (R58, R33) -/
def Obligations.WordOperandsAreChecked : Prop :=
  ∀ (s : State) (r : Reg) (a : Addr) (v : Word) (op : MemOperand),
    s.readW (.reg r) = .ok (s.reg r) ∧ s.writeW (.reg r) v = .ok (s.setReg r v) ∧
    (a.toNat % 4 ≠ 0 → s.readW (.mem a) = .error (.raise (.wordAddressing a)) ∧
      s.writeW (.mem a) v = .error (.raise (.wordAddressing a))) ∧
    (a.toNat % 4 = 0 → s.readW (.mem a) = s.memRead4 a ∧ s.writeW (.mem a) v = s.memWrite4 a v) ∧
    ∀ ea, s.ea op = .ok ea → s.wordRS op = s.readW (.mem ea)

/-- With the indirect bit 0 the effective address is A, or A plus bits 16 to 31 of the index register modulo 2^16; with the
indirect bit 1 an odd A raises the indirect address exception, and an even A gives the two-character field at A, plus the
index register modulo 2^16; designator 0 indexes by nothing. LM and STM compute theirs as if the designator were zero. (R59,
R61) -/
def Obligations.EffectiveAddressCases : Prop :=
  ∀ (s : State) (x : Reg) (a : Addr),
    s.ea ⟨false, none, a⟩ = .ok a ∧
    (x ≠ 0 → s.ea ⟨false, some x, a⟩ = .ok (BitVec.ofNat 16 (a.toNat + (s.reg x).toNat))) ∧
    (a.toNat % 2 ≠ 0 → ∀ i, s.ea ⟨true, i, a⟩ = .error (.raise (.indirectAddress a))) ∧
    (a.toNat % 2 = 0 → s.ea ⟨true, none, a⟩ = s.memRead2 a ∧
      ∀ f, s.memRead2 a = .ok f → x ≠ 0 →
        s.ea ⟨true, some x, a⟩ = .ok (BitVec.ofNat 16 (f.toNat + (s.reg x).toNat))) ∧
    (∀ ind, s.eaNoIndex ind a = s.ea ⟨ind, none, a⟩)

/-- When REG_MEM_ALIAS is low64, the character at an address a below 64 is character a mod 4 of register a div 4: reading it
reads the register, writing it writes the register and no listed memory, so the word at 4n is register n and a fetch there
reads register contents. (R14) -/
def Obligations.SharedRegistersAreMemory : Prop :=
  ∀ (s : State), s.params.regMemAlias = .low64 →
    (∀ a : Addr, a.toNat < 64 → s.byteAt a = (s.reg (Fin.ofNat 16 (a.toNat / 4))).extractLsb' (24 - 8 * (a.toNat % 4)) 8) ∧
    (∀ (r : Reg) (a : Addr), a.toNat = 4 * r.val →
      s.wordAt a = s.reg r ∧ (∀ v, s.putWord a v = s.setReg r v) ∧
      s.instrBytes a 4 = [(s.reg r).extractLsb' 24 8, (s.reg r).extractLsb' 16 8, (s.reg r).extractLsb' 8 8, lowChar (s.reg r)]) ∧
    ∀ (a : Addr) (c : Byte), a.toNat < 64 → (s.putByte a c).mem = s.mem

/-- If ST of register R1 to a word-aligned existing address a is followed by L of the same address into register R3, however
the two instructions express the address, the load gives a next state in which R3 holds the value R1 had. (R40, R102, R110)
-/
def Obligations.LoadAfterStore : Prop :=
  ∀ (s t : State) (r1 r3 : Reg) (op op' : MemOperand) (a : Addr), s.mem.wf = true → s.ea op = .ok a →
    a.toNat % 4 = 0 → s.present a 4 = true → exec (.st r1 op) s = .next t → t.ea op' = .ok a →
    ∃ u, exec (.l r3 op') t = .next u ∧ u.reg r3 = s.reg r1 ∧ Unchanged [r3] [] t u

/-- cmpS sets exactly G, L or E as the first operand is greater than, less than or equal to the second as two's complement
words, cmpU the same of characters as unsigned numbers; a character compared to zero gives only G or E. (R20) -/
def Obligations.ComparisonHelpers : Prop :=
  (∀ a b : Word, (cmpS a b).isSignOf (a.toInt - b.toInt)) ∧
  (∀ a b : Byte, (cmpU a b).isSignOf ((a.toNat : Int) - b.toNat)) ∧ ∀ c : Byte, (cmpU c 0).l = false

/-- masktest(M) is true exactly when the bitwise AND of M and the number 8*O + 4*G + 2*L + E of the CCR is not zero; mask 0
never tests true and mask 15 tests whether any flag is set. The order of the flags is the spec's decision D10, which the
model follows (log 13). (R22) -/
def Obligations.MaskTest : Prop :=
  ∀ (c : Ccr) (m : Mask), (c.masktest m = true ↔ (c.number &&& m.toNat) ≠ 0) ∧ c.masktest 0 = false ∧
    c.masktest 15 = (c.o || c.g || c.l || c.e)

/-- Whenever an instruction other than EX completes without an exception, an instruction of column None leaves the CCR as it
was, any other leaves a CCR its column allows (unlisted flags 0, at most one of G, L, E), and exactly one flag is set unless
it is SHIFTL, SHIFTA, FIXR, FIX or FIXI. Whenever any instruction takes an exception the CCR is as it was. An EX that
completes has the CCR some other instruction leaves from the same state. That a flag not listed becomes 0 is the spec's
reading, decision D9, which the model follows (log 17). (R19, R23) -/
def Obligations.CcrColumnOfEveryInstruction : Prop :=
  ∀ (i : Instr) (s t : State), s.outcome = .running → exec i s = .next t →
    (∀ e a, t.outcome = .fault e a → t.ccr = s.ccr) ∧
    ((∀ e a, t.outcome ≠ .fault e a) → isEX i = false →
      (ccrEffect i = .none → t.ccr = s.ccr) ∧
      (ccrEffect i ≠ .none → (ccrEffect i).allows t.ccr = true) ∧
      (ccrEffect i ≠ .none → t.ccr.o = true → (t.ccr.g || t.ccr.l || t.ccr.e) = true →
        (∃ r op, i = .shiftl r op ∨ i = .shifta r op ∨ i = .fix r op) ∨ (∃ d r q, i = .fixr d r q) ∨ ∃ d r v, i = .fixi d r v)) ∧
    (isEX i = true → (∀ e a, t.outcome ≠ .fault e a) → ∃ j, isEX j = false ∧ exec j s = .next t)

/-- If the machine is running, pc is even, the characters of a well-formed instruction i exist and stand at pc, then step is
exec of i in the state with ia = pc and pc past the instruction by its length, everything else the same. (R64, R16) -/
def Obligations.StepRunsDecodedInstruction : Prop :=
  ∀ (s : State) (i : Instr), s.outcome = .running → s.pc.toNat % 2 = 0 → i.wf = true →
    s.present s.pc (encode i).length = true → s.instrBytes s.pc (encode i).length = encode i →
    step s = exec i { s with ia := s.pc, pc := s.pc + BitVec.ofNat 16 (encode i).length }

/-- In any state with canonical memory, an even pc and every character of memory present and none shared with registers,
placing a 16-bit or 32-bit word of the opcode table at pc makes the next step execute the instruction the word decodes to,
with ia = pc and pc past it. That placing stands for the load of a program is the model's choice (log 15). (R291, R64) -/
def Obligations.PlacedWordIsExecuted : Prop :=
  ∀ (s : State) (nbits w : Nat) (i : Instr), s.mem.wf = true → s.params = ⟨65536, .none⟩ → s.pc.toNat % 2 = 0 →
    nbits = 16 ∨ nbits = 32 → decodeTableWord nbits w = some i →
    step (s.withFetchWord nbits w) =
      exec i { s.withFetchWord nbits w with ia := s.pc, pc := s.pc + BitVec.ofNat 16 (encode i).length }

/-- A running machine with an odd pc steps to the fault with that pc and changes nothing else; a running machine with an
even pc never steps to that fault; and a branch-and-link to an odd address completes, its link register written. (R15) -/
def Obligations.OddPcRaisesAtCycleStart : Prop :=
  (∀ s : State, s.outcome = .running → s.pc.toNat % 2 = 1 →
      step s = .next { s with ia := s.pc, outcome := .fault (.illegalInstructionAddress s.pc) s.pc }) ∧
  (∀ (s t : State) (p a : Addr), s.outcome = .running → s.pc.toNat % 2 = 0 → step s = .next t →
      t.outcome ≠ .fault (.illegalInstructionAddress p) a) ∧
  (∀ (s : State) (r1 r2 : Reg) (x : Option Reg) (a : Addr), (a + s.indexValue x).toNat % 2 = 1 →
      exec (.bal r1 ⟨false, x, a⟩) s = .next ({ s with pc := a + s.indexValue x }.setReg r1 (s.pc.setWidth 32)) ∧
      (lowHalf (s.reg r2) = a + s.indexValue x →
        exec (.balr true r1 r2) s = .next ({ s with pc := a + s.indexValue x }.setReg r1 (s.pc.setWidth 32))))

/-- A running machine at an even pc whose first character exists and holds an unassigned opcode steps to the fault that
records pc and the opcode, nothing else changed, even if the characters after it do not exist; EX of such a character takes
the same exception, recording the effective address and the opcode. (R66, R64, R264) -/
def Obligations.UnimplementedOpcodeFaults : Prop :=
  (∀ s : State, s.outcome = .running → s.pc.toNat % 2 = 0 → s.present s.pc 1 = true →
      opcodeOf (s.byteAt s.pc) ∈ unassignedOpcodes →
      step s = .next { s with
        ia := s.pc, outcome := .fault (.unimplementedInstruction s.pc (opcodeOf (s.byteAt s.pc))) s.pc }) ∧
  ∀ (s : State) (r1 : Reg) (op : MemOperand) (ea : Addr), s.ea op = .ok ea → ea.toNat % 2 = 0 → s.present ea 1 = true →
      opcodeOf (s.byteAt ea) ∈ unassignedOpcodes →
      exec (.ex r1 op) s = .next { s with
        pc := s.ia, outcome := .fault (.unimplementedInstruction ea (opcodeOf (s.byteAt ea))) s.ia }

/-- After a fault or a supervisor call, step answers the model's fault runEnded and no state. (R262) -/
def Obligations.EndedRunTakesNoStep : Prop :=
  ∀ s : State, s.outcome ≠ .running → step s = .fault .runEnded

/-- Reads and writes of 1, 2 and 4 characters succeed when all of the characters exist and fail when one does not; a running
machine whose first instruction character does not exist stops, and so does a load or a store of a word-aligned operand some
character of which does not exist. That the model stops with the fault absentMemory is its choice among the two the rule
allows (log 9). (R38, R37) -/
def Obligations.MissingMemoryStops : Prop :=
  (∀ (s : State) (a : Addr) (n : Nat), s.present a n = true ↔ ∀ k < n, (a + BitVec.ofNat 16 k).toNat < s.params.memSize) ∧
  (∀ (s : State) (a : Addr) (c : Byte) (v : Word),
    (s.present a 1 = true → s.memRead1 a = .ok (s.byteAt a) ∧ s.memWrite1 a c = .ok (s.putByte a c)) ∧
    (s.present a 1 = false → s.memRead1 a = .error (.absent a) ∧ s.memWrite1 a c = .error (.absent a)) ∧
    (s.present a 2 = true → s.memRead2 a = .ok (s.halfAt a)) ∧
    (s.present a 2 = false → s.memRead2 a = .error (.absent a)) ∧
    (s.present a 4 = true → s.memRead4 a = .ok (s.wordAt a) ∧ s.memWrite4 a v = .ok (s.putWord a v)) ∧
    (s.present a 4 = false → s.memRead4 a = .error (.absent a) ∧ s.memWrite4 a v = .error (.absent a))) ∧
  (∀ s : State, s.outcome = .running → s.pc.toNat % 2 = 0 → s.params.memSize ≤ s.pc.toNat →
    step s = .fault (.absentMemory s.pc)) ∧
  ∀ (s : State) (r1 : Reg) (op : MemOperand) (a : Addr), s.ea op = .ok a → a.toNat % 4 = 0 → s.present a 4 = false →
    exec (.l r1 op) s = .fault (.absentMemory a) ∧ exec (.st r1 op) s = .fault (.absentMemory a)

/-- If the instruction at pc is an ST of register R1 to the word-aligned address just after it, and R1 holds the characters
of a well-formed four-character instruction j, then the store steps to a state whose next step executes j. (R43, R293) -/
def Obligations.StoredInstructionIsFetched : Prop :=
  ∀ (s : State) (r1 : Reg) (j : Instr), s.mem.wf = true → s.params = ⟨65536, .none⟩ → s.outcome = .running →
    s.pc.toNat % 4 = 0 → s.instrBytes s.pc 4 = encode (.st r1 ⟨false, none, s.pc + 4⟩) → j.wf = true →
    encode j = [charOfWord (s.reg r1) 0, charOfWord (s.reg r1) 1, charOfWord (s.reg r1) 2, charOfWord (s.reg r1) 3] →
    ∃ t, step s = .next t ∧ t.pc = s.pc + 4 ∧ step t = exec j { t with ia := s.pc + 4, pc := s.pc + 8 }

/-- An instruction that is neither a branch nor EX and completes without an exception leaves pc as it was while it executed;
so a step of a running machine that decodes it moves pc by the length of the instruction. (R16, R17) -/
def Obligations.PcIsWrittenOnlyByBranches : Prop :=
  (∀ (i : Instr) (s t : State), s.outcome = .running → isBranch i = false → isEX i = false → exec i s = .next t →
      (∀ e a, t.outcome ≠ .fault e a) → t.pc = s.pc) ∧
  ∀ (i : Instr) (s t : State), s.outcome = .running → isBranch i = false → isEX i = false → i.wf = true →
      s.present s.pc (encode i).length = true → s.instrBytes s.pc (encode i).length = encode i → step s = .next t →
      (∀ e a, t.outcome ≠ .fault e a) → t.pc = s.pc + BitVec.ofNat 16 (encode i).length

/-- With no register sharing, an instruction that is none of STC, SWAPC, SACC, MCS, STR, ST, SWAPR, SWAP, SACR, SAC, STM and
EX leaves all of memory as it was, and so does a step of a running machine that decodes it. (R35, R36) -/
def Obligations.OnlyStoresWriteMemory : Prop :=
  (∀ (i : Instr) (s t : State), s.params.regMemAlias = .none → storesToMemory i = false → isEX i = false →
      exec i s = .next t → t.mem = s.mem ∧ ∀ a, t.byteAt a = s.byteAt a) ∧
  ∀ (i : Instr) (s t : State), s.params.regMemAlias = .none → s.outcome = .running → storesToMemory i = false →
      isEX i = false → i.wf = true → s.present s.pc (encode i).length = true →
      s.instrBytes s.pc (encode i).length = encode i → step s = .next t → t.mem = s.mem ∧ ∀ a, t.byteAt a = s.byteAt a

/-- If a running machine steps to a fault with exception e and address a, then a is the pc the cycle began with, pc is that
address again, and every register, the CCR, memory and the parameters are as before the cycle. (R261, R262, R263) -/
def Obligations.ExceptionsArePrecise : Prop :=
  ∀ (s t : State) (e : Exception) (a : Addr), s.outcome = .running → step s = .next t → t.outcome = .fault e a →
    t = { s with ia := s.pc, outcome := .fault e s.pc } ∧ a = s.pc

/-- If an instruction other than EX takes an exception from a running state, the exception is one that the table of
exceptions says this instruction raises: indirect address only with RS and CH address fields, word-addressing only with a
word operand in memory, zero divisor only by the 22 divides, real-format only by the 19 instructions listed. EX of any
subject never raises the illegal instruction address exception. (R260, R34, R226) -/
def Obligations.ExceptionsByInstruction : Prop :=
  ∀ (i : Instr) (s t : State) (e : Exception) (a : Addr), s.outcome = .running → exec i s = .next t →
    t.outcome = .fault e a →
    (isEX i = false → raises i e = true) ∧ (∀ p, e ≠ .illegalInstructionAddress p) ∧ a = s.ia

/-- Every instruction with RS or CH address fields, branches not taken, LM, STM, SVC, EX, LA and the shifts included, takes
the indirect address exception with A when its indirect bit is 1 and A is odd, before any other check. (R260, R264, R59) -/
def Obligations.OddIndirectFieldRaises : Prop :=
  ∀ (i : Instr) (s : State) (op : MemOperand), addressFields i = some op → op.indirect = true → op.addr.toNat % 2 = 1 →
    exec i s = .next (s.takeException (.indirectAddress op.addr))

/-- Every instruction with a word operand in memory (an RR form with the indirect bit 1, a word-accessing RS instruction, LM
and STM) takes the word-addressing exception with the misaligned address, before the operand is read, written or tested as a
divisor. (R260, R264, R33, R34) -/
def Obligations.MisalignedWordRaises : Prop :=
  ∀ (i : Instr) (s : State) (a : Addr), wordOperandAddress i s = some a → a.toNat % 4 ≠ 0 →
    exec i s = .next (s.takeException (.wordAddressing a))

/-- If memory is in canonical form, the parameters are in range, at most one of G, L, E is set and an ended run shows what
ended it (a fault at pc = ia with a detail its cause allows), then so it is after every step; and no step changes MEM_SIZE
or REG_MEM_ALIAS, which are fields of the state by the model's choice (log 5). (R19, R260 to R263, R30) -/
def Obligations.StepKeepsInvariant : Prop :=
  ∀ s t : State, s.Inv → step s = .next t → t.Inv ∧ t.params = s.params

/-- State.reset has the invariant that every step keeps. The outcome is Running, as the spec says; pc and ia 0x0100, every
register zero, no flag, every character zero, MEM_SIZE 65536 and no register sharing are the model's choice (logs 1 to 5).
(R27, R290, R291) -/
def Obligations.ResetMeetsInvariant : Prop :=
  State.reset.Inv ∧ State.reset.outcome = .running ∧ State.reset.pc = 0x0100 ∧ State.reset.ia = 0x0100 ∧ (∀ r, State.reset.reg r = 0) ∧
  State.reset.ccr = .empty ∧ (∀ a, State.reset.byteAt a = 0) ∧ State.reset.params = ⟨65536, .none⟩

/-- For every readable operand each load gives a next state with R1 holding the operand (the immediate sign-extended, the
character zero-extended), each load negative the low 32 bits of its exact negative; the CCR is the sign of the exact value,
or O alone when the negative does not fit; nothing else changes. (R101 to R108) -/
def Obligations.LoadsReplaceTheRegister : Prop :=
  FourForms .lr .l .li .lc (fun i s r1 n => GivesInteger i s r1 n) ∧
  FourForms .lnr .ln .lni .lnc (fun i s r1 n => GivesInteger i s r1 (-n))

/-- STR with the indirect bit 0 copies R1 into R2; STR with the indirect bit 1 and ST store R1 in the word at the aligned
address; STC stores the low-order character of R1 at any address; the CCR is the sign of the stored word or unsigned
character; nothing else changes. (R109 to R111) -/
def Obligations.StoresPutTheRegister : Prop :=
  (∀ r1 r2 s, ∃ t, exec (.str false r1 r2) s = .next t ∧ PutsInRegister r2 (s.reg r1) s t ∧
      t.ccr.isSignOf (s.reg r1).toInt) ∧
  (∀ r1 r2 s a, s.mem.wf = true → lowHalf (s.reg r2) = a → a.toNat % 4 = 0 → s.present a 4 = true →
    ∃ t, exec (.str true r1 r2) s = .next t ∧ PutsInMemory a (s.reg r1) s t ∧ t.ccr.isSignOf (s.reg r1).toInt) ∧
  (∀ r1 op s a, s.mem.wf = true → s.ea op = .ok a → a.toNat % 4 = 0 → s.present a 4 = true →
    ∃ t, exec (.st r1 op) s = .next t ∧ PutsInMemory a (s.reg r1) s t ∧ t.ccr.isSignOf (s.reg r1).toInt) ∧
  (∀ r1 op s a, s.mem.wf = true → s.ea op = .ok a → s.present a 1 = true →
    ∃ t, exec (.stc r1 op) s = .next t ∧ PutsCharacter a (lowChar (s.reg r1)) s t ∧
      t.ccr.isSignOf ((lowChar (s.reg r1)).toNat : Int))

/-- SWAPR with the indirect bit 0 exchanges two registers; with the indirect bit 1, and SWAP, R1 and the word at the aligned
address; SWAPC the low-order character of R1 and the character at the address, the high 24 bits of R1 kept. A memory operand
outside the image of R1 then holds the old R1 or its character. Nothing else changes. (R112 to R114) -/
def Obligations.SwapsExchange : Prop :=
  (∀ r1 r2 s, ∃ t, exec (.swapr false r1 r2) s = .next t ∧ t.reg r1 = s.reg r2 ∧ t.reg r2 = s.reg r1 ∧
      t.ccr.isSignOf (s.reg r2).toInt ∧ t.pc = s.pc ∧ Unchanged [r1, r2] [] s t) ∧
  (∀ r1 r2 s a, s.mem.wf = true → lowHalf (s.reg r2) = a → a.toNat % 4 = 0 → s.present a 4 = true →
    ∃ t, exec (.swapr true r1 r2) s = .next t ∧ t.reg r1 = s.wordAt a ∧
      ((∀ b ∈ wordBytes a, s.shares b r1 = false) → t.wordAt a = s.reg r1) ∧
      t.ccr.isSignOf (s.wordAt a).toInt ∧ t.pc = s.pc ∧ Unchanged [r1] (wordBytes a) s t) ∧
  (∀ r1 op s a, s.mem.wf = true → s.ea op = .ok a → a.toNat % 4 = 0 → s.present a 4 = true →
    ∃ t, exec (.swap r1 op) s = .next t ∧ t.reg r1 = s.wordAt a ∧
      ((∀ b ∈ wordBytes a, s.shares b r1 = false) → t.wordAt a = s.reg r1) ∧
      t.ccr.isSignOf (s.wordAt a).toInt ∧ t.pc = s.pc ∧ Unchanged [r1] (wordBytes a) s t) ∧
  (∀ r1 op s a, s.mem.wf = true → s.ea op = .ok a → s.present a 1 = true →
    ∃ t, exec (.swapc r1 op) s = .next t ∧ lowChar (t.reg r1) = s.byteAt a ∧
      (s.shares a r1 = false → (t.reg r1).extractLsb' 8 24 = (s.reg r1).extractLsb' 8 24 ∧ t.byteAt a = lowChar (s.reg r1)) ∧
      t.ccr.isSignOf ((s.byteAt a).toNat : Int) ∧ t.pc = s.pc ∧ Unchanged [r1] [a] s t)

/-- For every readable operand the twelve word and immediate logical instructions give a next state with the bitwise result
in R1 (the immediate zero-extended; NOT of the operand alone) and the CCR G for all ones, E for all zeros, L for mixed;
nothing else changes. (R115 to R117, R119 to R121, R123 to R125, R127 to R129, R21) -/
def Obligations.LogicalWords : Prop :=
  let logic (f : Word → Word → Word) : Instr → State → Reg → Word → Prop := fun i s r1 w =>
    ∃ t, exec i s = .next t ∧ PutsInRegister r1 (f (s.reg r1) w) s t ∧ t.ccr.isClassOf (f (s.reg r1) w)
  ThreeForms .andr .and .andi (BitVec.setWidth 32) (logic fun x w => x &&& w) ∧
  ThreeForms .orr .or .ori (BitVec.setWidth 32) (logic fun x w => x ||| w) ∧
  ThreeForms .xorr .xor .xori (BitVec.setWidth 32) (logic fun x w => x ^^^ w) ∧
  ThreeForms .notr .not .noti (BitVec.setWidth 32) (logic fun _ w => ~~~w)

/-- For every readable character the result replaces bits 24 to 31 of R1, bits 0 to 23 are kept, the CCR classifies the
8-bit result; nothing else changes. (R118, R122, R126, R130, R220) -/
def Obligations.LogicalCharacters : Prop :=
  let logic (f : Byte → Byte → Byte) (ch : Reg → MemOperand → Instr) : Prop := ∀ r1 op s c, s.charCH op = .ok c →
    ∃ t, exec (ch r1 op) s = .next t ∧ lowChar (t.reg r1) = f (lowChar (s.reg r1)) c ∧
      (t.reg r1).extractLsb' 8 24 = (s.reg r1).extractLsb' 8 24 ∧ t.ccr.isClassOf (f (lowChar (s.reg r1)) c) ∧
      t.pc = s.pc ∧ Unchanged [r1] [] s t
  logic (fun x c => x &&& c) .andc ∧ logic (fun x c => x ||| c) .orc ∧ logic (fun x c => x ^^^ c) .xorc ∧
  logic (fun _ c => ~~~c) .notc

/-- BCSR and BCS branch when the AND of the mask and the CCR number is nonzero, BCRR and BCR when it is zero; the target is
4*R2 or bits 16 to 31 of R2 in the RR forms, the effective address in the RS forms, odd or even; pc is all that changes.
(R131 to R134, R60, R22) -/
def Obligations.BranchesTestTheMask : Prop :=
  let target (ind : Bool) (r2 : Reg) (s : State) : Addr := if ind then lowHalf (s.reg r2) else BitVec.ofNat 16 (4 * r2.val)
  (∀ ind m1 r2 s, exec (.bcsr ind m1 r2) s =
      .next { s with pc := if (s.ccr.number &&& m1.toNat) ≠ 0 then target ind r2 s else s.pc }) ∧
  (∀ ind m1 r2 s, exec (.bcrr ind m1 r2) s =
      .next { s with pc := if (s.ccr.number &&& m1.toNat) = 0 then target ind r2 s else s.pc }) ∧
  (∀ m1 op s a, s.ea op = .ok a → exec (.bcs m1 op) s =
      .next { s with pc := if (s.ccr.number &&& m1.toNat) ≠ 0 then a else s.pc }) ∧
  (∀ m1 op s a, s.ea op = .ok a → exec (.bcr m1 op) s =
      .next { s with pc := if (s.ccr.number &&& m1.toNat) = 0 then a else s.pc })

/-- R1 receives pc, zero-extended, and pc the effective address computed from the old registers; a step that executes BAL at
an even address leaves the address after it in R1. Nothing else changes. (R135, R136, R60, R16) -/
def Obligations.BranchAndLinkSavesPc : Prop :=
  (∀ ind r1 r2 s, exec (.balr ind r1 r2) s = .next ({ s with
      pc := if ind then lowHalf (s.reg r2) else BitVec.ofNat 16 (4 * r2.val) }.setReg r1 (s.pc.setWidth 32))) ∧
  (∀ r1 op s a, s.ea op = .ok a → exec (.bal r1 op) s = .next ({ s with pc := a }.setReg r1 (s.pc.setWidth 32))) ∧
  (∀ r1 a s, s.outcome = .running → s.pc.toNat % 2 = 0 → s.present s.pc 4 = true →
    s.instrBytes s.pc 4 = encode (.bal r1 ⟨false, none, a⟩) →
    ∃ t, step s = .next t ∧ t.pc = a ∧ t.reg r1 = (s.pc + 4).setWidth 32 ∧ Unchanged [r1] [] { s with ia := s.pc } t)

/-- SACR with the indirect bit 0 puts the word in R2, with the indirect bit 1, and SAC, in the word at the aligned address,
SACC the character at any address; the CCR and everything else is unchanged. (R137 to R139, R22) -/
def Obligations.SaveConditionStoresOnesOrZeros : Prop :=
  let saved (m1 : Mask) (s : State) : Word := if (s.ccr.number &&& m1.toNat) ≠ 0 then BitVec.allOnes 32 else 0
  (∀ m1 r2 s, ∃ t, exec (.sacr false m1 r2) s = .next t ∧ PutsInRegister r2 (saved m1 s) s t ∧ t.ccr = s.ccr) ∧
  (∀ m1 r2 s a, s.mem.wf = true → lowHalf (s.reg r2) = a → a.toNat % 4 = 0 → s.present a 4 = true →
    ∃ t, exec (.sacr true m1 r2) s = .next t ∧ PutsInMemory a (saved m1 s) s t ∧ t.ccr = s.ccr) ∧
  (∀ m1 op s a, s.mem.wf = true → s.ea op = .ok a → a.toNat % 4 = 0 → s.present a 4 = true →
    ∃ t, exec (.sac m1 op) s = .next t ∧ PutsInMemory a (saved m1 s) s t ∧ t.ccr = s.ccr) ∧
  (∀ m1 op s a, s.mem.wf = true → s.ea op = .ok a → s.present a 1 = true →
    ∃ t, exec (.sacc m1 op) s = .next t ∧ PutsCharacter a (lowChar (saved m1 s)) s t ∧ t.ccr = s.ccr)

/-- CR, C and CI compare R1 with the word or sign-extended immediate as two's complement, CC the low-order character of R1
with the character as unsigned numbers; the next state is the old one with the CCR replaced, no overflow being possible.
(R140 to R143, R20) -/
def Obligations.ComparesSetOnlyTheCcr : Prop :=
  let compares (i : Instr) (s : State) (n : Int) : Prop := ∃ c : Ccr, exec i s = .next { s with ccr := c } ∧ c.isSignOf n
  (∀ ind r1 r2 s w, s.wordRR ind r2 = .ok w → compares (.cr ind r1 r2) s ((s.reg r1).toInt - w.toInt)) ∧
  (∀ r1 op s w, s.wordRS op = .ok w → compares (.c r1 op) s ((s.reg r1).toInt - w.toInt)) ∧
  (∀ ign r1 imm s, compares (.ci ign r1 imm) s ((s.reg r1).toInt - imm.toInt)) ∧
  (∀ r1 op s c, s.charCH op = .ok c → compares (.cc r1 op) s (((lowChar (s.reg r1)).toNat : Int) - c.toNat))

/-- If the first n of at most L pairs of characters (by the stride of M1 and ascending) exist and are equal, and either n is
L or the next pair exists and is unequal, then CCS leaves A1, L and A2 advanced by n pairs, the high half of R2 zero, and
the CCR E if n is L and otherwise G or L by the unequal pair; nothing else changes. (R144, R12) -/
def Obligations.CompareStringFindsFirstDifference : Prop :=
  ∀ (ign : Bool) (m1 : Mask) (r2 : Reg) (s : State) (n : Nat), n ≤ stringLength r2 s →
    (∀ k, k < n ∨ (k = n ∧ n < stringLength r2 s) →
      s.present (stringA1 m1 r2 s k) 1 = true ∧ s.present (stringA2 r2 s k) 1 = true) →
    (∀ k < n, s.byteAt (stringA1 m1 r2 s k) = s.byteAt (stringA2 r2 s k)) →
    (n < stringLength r2 s → s.byteAt (stringA1 m1 r2 s n) ≠ s.byteAt (stringA2 r2 s n)) →
    ∃ t, exec (.ccs ign m1 r2) s = .next t ∧ t.reg r2 = (0 : BitVec 16) ++ stringA1 m1 r2 s n ∧
      t.reg (r2 + 1) = BitVec.ofNat 16 (stringLength r2 s - n) ++ stringA2 r2 s n ∧
      t.ccr.isSignOf (if n < stringLength r2 s then
        ((s.byteAt (stringA1 m1 r2 s n)).toNat : Int) - (s.byteAt (stringA2 r2 s n)).toNat else 0) ∧
      t.pc = s.pc ∧ Unchanged [r2, r2 + 1] [] s t

/-- If all L source and destination characters exist, MCS completes with A1 and A2 advanced by L steps and L zero, the CCR
unchanged. Without register sharing, each destination character is the source character as it was, unless an earlier
destination character of the same move stands at the source address: then it is that character. Nothing else changes. (R145,
R45) -/
def Obligations.MoveStringCopiesInOrder : Prop :=
  ∀ (ign : Bool) (m1 : Mask) (r2 : Reg) (s : State), s.mem.wf = true →
    (∀ k < stringLength r2 s, s.present (stringA1 m1 r2 s k) 1 = true ∧ s.present (stringA2 r2 s k) 1 = true) →
    ∃ t, exec (.mcs ign m1 r2) s = .next t ∧
      t.reg r2 = (0 : BitVec 16) ++ stringA1 m1 r2 s (stringLength r2 s) ∧
      t.reg (r2 + 1) = (0 : BitVec 16) ++ stringA2 r2 s (stringLength r2 s) ∧ t.ccr = s.ccr ∧ t.pc = s.pc ∧
      Unchanged [r2, r2 + 1] (byteRange (stringA2 r2 s 0) (stringLength r2 s)) s t ∧
      (s.params.regMemAlias = .none → ∀ k < stringLength r2 s,
        ((∀ j < k, stringA2 r2 s j ≠ stringA1 m1 r2 s k) →
          t.byteAt (stringA2 r2 s k) = s.byteAt (stringA1 m1 r2 s k)) ∧
        ∀ j < k, stringA2 r2 s j = stringA1 m1 r2 s k → t.byteAt (stringA2 r2 s k) = t.byteAt (stringA2 r2 s j))

/-- For every effective address SVC gives the same state with outcome SupervisorCall(ia, R1, ea); a step that executes SVC
records the address of the SVC and leaves pc after it. (R146, R267) -/
def Obligations.SupervisorCallEndsTheRun : Prop :=
  (∀ r1 op s a, s.ea op = .ok a → exec (.svc r1 op) s = .next { s with outcome := .supervisorCall s.ia r1 a }) ∧
  ∀ r1 op s a, s.outcome = .running → s.pc.toNat % 2 = 0 → s.present s.pc 4 = true → op.wf = true →
    s.instrBytes s.pc 4 = encode (.svc r1 op) → s.ea op = .ok a →
    step s = .next { s with ia := s.pc, pc := s.pc + 4, outcome := .supervisorCall s.pc r1 a }

/-- If the effective address is even and the characters of a well-formed instruction that is not EX exist and stand there,
EX is exec of that instruction in the same state, pc unmoved by the fetch; so EX of LI completes with LI's result. (R147) -/
def Obligations.ExecuteRunsTheSubject : Prop :=
  (∀ (r1 : Reg) (op : MemOperand) (s : State) (a : Addr) (i : Instr), s.ea op = .ok a → a.toNat % 2 = 0 → i.wf = true →
      isEX i = false → s.present a (encode i).length = true → s.instrBytes a (encode i).length = encode i →
      exec (.ex r1 op) s = exec i s) ∧
  ∀ (r1 q : Reg) (op : MemOperand) (s : State) (a : Addr) (v : Imm), s.ea op = .ok a → a.toNat % 2 = 0 →
      s.present a 4 = true → s.instrBytes a 4 = encode (.li false q v) →
      ∃ t, exec (.ex r1 op) s = .next t ∧ PutsInRegister q (v.signExtend 32) s t ∧ t.ccr.isSignOf v.toInt

/-- If the characters of a well-formed EX stand at the even effective address of an EX, the outer EX answers in every state
what the inner one answers. (R147) -/
def Obligations.ExecuteNests : Prop :=
  ∀ (r1 q : Reg) (op op' : MemOperand) (s : State) (a : Addr), s.ea op = .ok a → a.toNat % 2 = 0 → op'.wf = true →
    s.present a 4 = true → s.instrBytes a 4 = encode (.ex q op') → exec (.ex r1 op) s = exec (.ex q op') s

/-- EX with an odd effective address takes the execute address exception with it. EX whose effective address holds an EX
with that same effective address makes no step, and the model's fault says that it never completes (log 8). (R147, R260) -/
def Obligations.ExecuteStopsAreNamed : Prop :=
  (∀ (r1 : Reg) (op : MemOperand) (s : State) (a : Addr), s.ea op = .ok a → a.toNat % 2 = 1 →
      exec (.ex r1 op) s = .next (s.takeException (.executeAddress a))) ∧
  ∀ (r1 q : Reg) (op op' : MemOperand) (s : State) (a : Addr), s.ea op = .ok a → a.toNat % 2 = 0 → op'.wf = true →
      s.present a 4 = true → s.instrBytes a 4 = encode (.ex q op') → s.ea op' = .ok a →
      exec (.ex r1 op) s = .fault .executeNeverCompletes

/-- For every effective address R1 receives it with bits 0 to 15 zero; the CCR, pc, memory and every other register are
unchanged; no memory is touched at the address. (R148) -/
def Obligations.LoadAddressKeepsTheCcr : Prop :=
  ∀ r1 op s a, s.ea op = .ok a →
    ∃ t, exec (.la r1 op) s = .next t ∧ PutsInRegister r1 ((0 : BitVec 16) ++ a) s t ∧ t.ccr = s.ccr

/-- If the effective address is word aligned and the words exist, LM completes: with the words outside any register image,
the k-th register of the range holds the k-th word; the CCR, pc, memory and every register outside the range are unchanged.
(R149, R61) -/
def Obligations.LoadMultipleFillsTheRange : Prop :=
  ∀ (ind : Bool) (r1 r2 : Reg) (addr a : Addr) (s : State), s.eaNoIndex ind addr = .ok a → a.toNat % 4 = 0 →
    (∀ k < rangeLength r1 r2, s.present (rangeWord a k) 4 = true) →
    ∃ t, exec (.lm ind r1 r2 addr) s = .next t ∧ t.ccr = s.ccr ∧ t.pc = s.pc ∧ t.mem = s.mem ∧
      Unchanged (rangeRegs r1 (rangeLength r1 r2)) [] s t ∧
      ((∀ b ∈ byteRange a (4 * rangeLength r1 r2), s.inRegs b = false) →
        ∀ k < rangeLength r1 r2, t.reg (rangeReg r1 k) = s.wordAt (rangeWord a k))

/-- If the effective address is word aligned and the words exist, STM completes: with the words outside any register image,
the k-th word holds the k-th register of the range; the CCR, pc, every register and all other memory are unchanged. (R150,
R61) -/
def Obligations.StoreMultipleWritesTheRange : Prop :=
  ∀ (ind : Bool) (r1 r2 : Reg) (addr a : Addr) (s : State), s.mem.wf = true → s.eaNoIndex ind addr = .ok a →
    a.toNat % 4 = 0 → (∀ k < rangeLength r1 r2, s.present (rangeWord a k) 4 = true) →
    ∃ t, exec (.stm ind r1 r2 addr) s = .next t ∧ t.ccr = s.ccr ∧ t.pc = s.pc ∧
      Unchanged [] (byteRange a (4 * rangeLength r1 r2)) s t ∧
      ((∀ b ∈ byteRange a (4 * rangeLength r1 r2), s.inRegs b = false) →
        ∀ k < rangeLength r1 r2, t.wordAt (rangeWord a k) = s.reg (rangeReg r1 k))

/-- arith(R1, n) puts the low-order 32 bits of the exact integer n in R1, sets O alone exactly when n is not a 32-bit two's
complement integer and otherwise exactly the flag of the sign of n, and changes nothing else: overflow is no exception. This
definition of overflow and of the register after it is the spec's decision D11, which the model follows (log 17). (R221) -/
def Obligations.ArithmeticHelper : Prop :=
  ∀ (s : State) (r1 : Reg) (n : Int), PutsInRegister r1 (BitVec.ofInt 32 n) s (s.arith r1 n) ∧
    (n < -2 ^ 31 ∨ n > 2 ^ 31 - 1 → (s.arith r1 n).ccr = ⟨true, false, false, false⟩) ∧
    (-2 ^ 31 ≤ n → n ≤ 2 ^ 31 - 1 → (s.arith r1 n).ccr.isSignOf n) ∧ (s.arith r1 n).outcome = s.outcome ∧
    ∀ (ind : Bool) (r2 : Reg) (w : Word), s.wordRR ind r2 = .ok w →
      exec (.ar ind r1 r2) s = .next (s.arith r1 ((s.reg r1).toInt + w.toInt))

/-- For every readable operand n (the immediate sign-extended, the character zero-extended) the instructions of the four
families complete with the low-order 32 bits of x+n, x-n, n-x or x*n in R1, x the old value of R1, and the CCR of that exact
integer: O alone if it does not fit, else its sign; nothing else changes. (R151 to R166, R221) -/
def Obligations.AddSubtractMultiply : Prop :=
  FourForms .ar .a .ai .ac (fun i s r1 n => GivesInteger i s r1 ((s.reg r1).toInt + n)) ∧
  FourForms .sr .s .si .sc (fun i s r1 n => GivesInteger i s r1 ((s.reg r1).toInt - n)) ∧
  FourForms .rsr .rs .rsi .rsc (fun i s r1 n => GivesInteger i s r1 (n - (s.reg r1).toInt)) ∧
  FourForms .mr .m .mi .mc (fun i s r1 n => GivesInteger i s r1 ((s.reg r1).toInt * n))

/-- For every readable operand the divide (R1 by the operand) and the reverse divide (the operand by R1) complete, when the
divisor d is not zero, with the integer q for which the dividend is q*d + r with 0 <= r < |d|, and the CCR of q; when d is
zero they take the zero divisor exception. (R167 to R174, R222) -/
def Obligations.DivideGivesTheQuotient : Prop :=
  let divides (i : Instr) (s : State) (r1 : Reg) (a d : Int) : Prop :=
    (d ≠ 0 → ∃ q r : Int, a = q * d + r ∧ 0 ≤ r ∧ r < |d| ∧ GivesInteger i s r1 q) ∧
    (d = 0 → exec i s = .next (s.takeException .zeroDivisor))
  FourForms .dr .d .di .dc (fun i s r1 n => divides i s r1 (s.reg r1).toInt n) ∧
  FourForms .rdr .rd .rdi .rdc (fun i s r1 n => divides i s r1 n (s.reg r1).toInt)

/-- For every readable operand the remainder (of R1 by the operand) and the reverse remainder complete, when the divisor d
is not zero, with the integer r for which the dividend is q*d + r with 0 <= r < |d|, which is never negative, and the CCR of
r; when d is zero they take the zero divisor exception. (R175 to R182, R222) -/
def Obligations.RemainderIsNonNegative : Prop :=
  let remainders (i : Instr) (s : State) (r1 : Reg) (a d : Int) : Prop :=
    (d ≠ 0 → ∃ q r : Int, a = q * d + r ∧ 0 ≤ r ∧ r < |d| ∧
      ∃ t, exec i s = .next t ∧ PutsInRegister r1 (BitVec.ofInt 32 r) s t ∧ (t.reg r1).toInt = r ∧ t.ccr.isSignOf r) ∧
    (d = 0 → exec i s = .next (s.takeException .zeroDivisor))
  FourForms .remr .rem .remi .remc (fun i s r1 n => remainders i s r1 (s.reg r1).toInt n) ∧
  FourForms .rremr .rrem .rremi .rremc (fun i s r1 n => remainders i s r1 n (s.reg r1).toInt)

/-- For every readable operand w (the immediate expanded from the short format) real add, subtract, reverse subtract,
multiply, divide and reverse divide give a next state: where the REAL member answers a word, R1 holds it and the CCR is its
sign; where it answers RealFormat or, for the divides, ZeroDivisor, that exception is taken. A divide whose divisor compares
equal to zero takes the zero divisor exception, or the real-format exception if an operand is badly formed (log 19); for no
other divisor does REAL answer ZeroDivisor. REAL has no value in the model, so this holds for every one. (R183 to R200, R224
to R227, R264) -/
def Obligations.RealArithmetic : Prop :=
  let R := Config.real
  ThreeForms .far .fa .fai R.short (fun i s r1 w => GivesReal i s r1 (.ofOption (R.add (s.reg r1) w))) ∧
  ThreeForms .fsr .fs .fsi R.short (fun i s r1 w => GivesReal i s r1 (.ofOption (R.sub (s.reg r1) w))) ∧
  ThreeForms .rfsr .rfs .rfsi R.short (fun i s r1 w => GivesReal i s r1 (.ofOption (R.sub w (s.reg r1)))) ∧
  ThreeForms .fmr .fm .fmi R.short (fun i s r1 w => GivesReal i s r1 (.ofOption (R.mul (s.reg r1) w))) ∧
  ThreeForms .fdr .fd .fdi R.short (fun i s r1 w => GivesQuotient i s r1 (s.reg r1) w) ∧
  ThreeForms .rfdr .rfd .rfdi R.short (fun i s r1 w => GivesQuotient i s r1 w (s.reg r1))

/-- For every readable integer operand (the immediate sign-extended, not read as a short real) the FLOAT instructions
complete with the real REAL gives for it in R1 and the CCR of the integer's sign. For every readable real operand w with
integer portion n the FIX instructions complete: if n fits in 32 bits R1 holds it and the CCR is its sign, otherwise R1
holds zero and the CCR is O and E; where REAL calls w acceptable, n is its value truncated toward zero (log 11). Nothing
else changes. (R201 to R206, R224, R225, R228) -/
def Obligations.RealConversions : Prop :=
  (ThreeForms .floatr .float .floati (BitVec.signExtend 32) fun i s r1 w =>
    ∃ t, exec i s = .next t ∧ PutsInRegister r1 (Config.real.float w) s t ∧ t.ccr.isSignOf w.toInt) ∧
  ThreeForms .fixr .fix .fixi Config.real.short fun i s r1 w =>
    ∃ t, exec i s = .next t ∧
      (if -2 ^ 31 ≤ Config.real.fix w ∧ Config.real.fix w ≤ 2 ^ 31 - 1 then
        PutsInRegister r1 (BitVec.ofInt 32 (Config.real.fix w)) s t ∧ t.ccr.isSignOf (Config.real.fix w)
      else PutsInRegister r1 0 s t ∧ t.ccr = ⟨true, false, false, true⟩) ∧
      (Config.real.valid w = true → Config.real.fix w =
        (Config.real.value w).num.tdiv (Config.real.value w).den)

/-- For every readable real operand w, FLOOR and CEIL complete with REAL's floor and ceiling of w in R1 and the CCR of its
sign; where REAL calls w acceptable the result is an acceptable real with an integer value, not above (not below) that of w
and the nearest such (log 11). Nothing else changes. (R207, R208, R225) -/
def Obligations.FloorAndCeiling : Prop :=
  let R := Config.real
  (∀ r1 op s w, s.wordRS op = .ok w →
    ∃ t, exec (.floor r1 op) s = .next t ∧ PutsInRegister r1 (R.floor w) s t ∧ t.ccr.isRealSign (R.floor w) ∧
      (R.valid w = true → R.valid (R.floor w) = true ∧ (R.value (R.floor w)).den = 1 ∧ R.value (R.floor w) ≤ R.value w ∧
        ∀ v, R.valid v = true → (R.value v).den = 1 → R.value v ≤ R.value w → R.value v ≤ R.value (R.floor w))) ∧
  (∀ r1 op s w, s.wordRS op = .ok w →
    ∃ t, exec (.ceil r1 op) s = .next t ∧ PutsInRegister r1 (R.ceil w) s t ∧ t.ccr.isRealSign (R.ceil w) ∧
      (R.valid w = true → R.valid (R.ceil w) = true ∧ (R.value (R.ceil w)).den = 1 ∧ R.value w ≤ R.value (R.ceil w) ∧
        ∀ v, R.valid v = true → (R.value v).den = 1 → R.value w ≤ R.value v → R.value (R.ceil w) ≤ R.value v))

/-- For every readable word w, MIN leaves in R1 the smaller and MAX the greater of R1 and w as two's complement integers;
the CCR is L for MIN, G for MAX if R1 changed its value and E otherwise; nothing else changes. (R209, R210) -/
def Obligations.MinimumAndMaximum : Prop :=
  (∀ r1 op s w, s.wordRS op = .ok w → ∃ t, exec (.min r1 op) s = .next t ∧ (t.reg r1).toInt = min (s.reg r1).toInt w.toInt ∧
      t.ccr.isSignOf ((t.reg r1).toInt - (s.reg r1).toInt) ∧ t.pc = s.pc ∧ Unchanged [r1] [] s t) ∧
  (∀ r1 op s w, s.wordRS op = .ok w → ∃ t, exec (.max r1 op) s = .next t ∧ (t.reg r1).toInt = max (s.reg r1).toInt w.toInt ∧
      t.ccr.isSignOf ((t.reg r1).toInt - (s.reg r1).toInt) ∧ t.pc = s.pc ∧ Unchanged [r1] [] s t)

/-- With n the effective address as a 16-bit two's complement count, bit i of the result, counted from the left, is bit i+n
of the original, or 0 where there is none, for n positive or negative and however large; O is set exactly if some 1 bit of
the original falls outside; G, L or E is the sign of the result; nothing else changes. (R211, R230) -/
def Obligations.ShiftLogical : Prop :=
  ∀ r1 op s a, s.ea op = .ok a → ∃ t, exec (.shiftl r1 op) s = .next t ∧ t.pc = s.pc ∧ Unchanged [r1] [] s t ∧
    (∀ i : Nat, i < 32 → (t.reg r1).getMsbD i =
      (decide (0 ≤ (i : Int) + a.toInt) && (s.reg r1).getMsbD ((i : Int) + a.toInt).toNat)) ∧
    t.ccr.isShiftOf (∃ j : Nat, j < 32 ∧ (s.reg r1).getMsbD j = true ∧ ((j : Int) < a.toInt ∨ 32 ≤ (j : Int) - a.toInt)) (t.reg r1)

/-- Bit i of the result, counted from the left, is bit (i + n) mod 32 of the original, n the signed count; the CCR is the
sign of the result; nothing else changes. (R212, R230) -/
def Obligations.ShiftCircular : Prop :=
  ∀ r1 op s a, s.ea op = .ok a → ∃ t, exec (.shiftc r1 op) s = .next t ∧ t.pc = s.pc ∧ Unchanged [r1] [] s t ∧
    (∀ i : Nat, i < 32 → (t.reg r1).getMsbD i = (s.reg r1).getMsbD (((i : Int) + a.toInt) % 32).toNat) ∧
    t.ccr.isSignOf (t.reg r1).toInt

/-- For a count n of zero or more the result is the original times 2^n modulo 2^32, and O is set exactly if that product is
not a 32-bit integer, which is exactly if bits 0 to n of the original (0 beyond bit 31) are not all equal; for a negative
count the result is the original divided by 2^-n, rounded down, and O is clear; G, L or E is the sign of the result; nothing
else changes. (R213, R230) -/
def Obligations.ShiftArithmetic : Prop :=
  ∀ r1 op s a, s.ea op = .ok a → ∃ t, exec (.shifta r1 op) s = .next t ∧ t.pc = s.pc ∧ Unchanged [r1] [] s t ∧
    (0 ≤ a.toInt → t.reg r1 = BitVec.ofInt 32 ((s.reg r1).toInt * 2 ^ a.toInt.toNat) ∧
      t.ccr.isShiftOf (¬ (-2 ^ 31 ≤ (s.reg r1).toInt * 2 ^ a.toInt.toNat ∧ (s.reg r1).toInt * 2 ^ a.toInt.toNat ≤ 2 ^ 31 - 1))
        (t.reg r1) ∧
      (t.ccr.o = true ↔ ∃ j : Nat, j ≤ a.toInt.toNat ∧ (s.reg r1).getMsbD j ≠ (s.reg r1).getMsbD 0)) ∧
    (a.toInt < 0 → (t.reg r1).toInt = (s.reg r1).toInt / 2 ^ (-a.toInt).toNat ∧ t.ccr.isShiftOf False (t.reg r1))

/-- With n the signed count, SHIFTR gives a next state: where REAL answers a word, R1 holds it and the CCR is its sign, the
word being the real zero if the fraction shifted by n hexadecimal digits is zero, and otherwise having the original sign,
that fraction and the exponent less n (log 12), so that a count of zero returns a word with a nonzero fraction unchanged;
where it answers RealFormat, that exception. (R214, R230, R223) -/
def Obligations.ShiftReal : Prop :=
  let R := Config.real
  ∀ r1 op s a, s.ea op = .ok a → GivesReal (.shiftr r1 op) s r1 (.ofOption (R.shiftr (s.reg r1) a.toInt)) ∧
    ∀ v, R.shiftr (s.reg r1) a.toInt = some v →
      (R.shiftedFraction (s.reg r1) a.toInt = 0 → v = R.zero) ∧
      (R.shiftedFraction (s.reg r1) a.toInt ≠ 0 → R.negative v = R.negative (s.reg r1) ∧
        R.fraction v = R.shiftedFraction (s.reg r1) a.toInt ∧ R.exponent v = R.exponent (s.reg r1) - a.toInt) ∧
      (a.toInt = 0 → R.fraction (s.reg r1) ≠ 0 → v = s.reg r1)
end

