-- ==== Sys2Proof/Laws/State.lean ====
section
/-! SUPPORT. One lemma per field of State per update of it, and reading a register after writing one. -/

namespace Sys2Proof.Machine

@[simp] theorem State.setReg_regs (s : State) (r : Reg) (v : Word) : (s.setReg r v).regs = s.regs.set r v := rfl
@[simp] theorem State.setReg_pc (s : State) (r : Reg) (v : Word) : (s.setReg r v).pc = s.pc := rfl
@[simp] theorem State.setReg_ccr (s : State) (r : Reg) (v : Word) : (s.setReg r v).ccr = s.ccr := rfl
@[simp] theorem State.setReg_mem (s : State) (r : Reg) (v : Word) : (s.setReg r v).mem = s.mem := rfl
@[simp] theorem State.setReg_outcome (s : State) (r : Reg) (v : Word) : (s.setReg r v).outcome = s.outcome := rfl
@[simp] theorem State.setReg_ia (s : State) (r : Reg) (v : Word) : (s.setReg r v).ia = s.ia := rfl
@[simp] theorem State.setReg_params (s : State) (r : Reg) (v : Word) : (s.setReg r v).params = s.params := rfl

@[simp] theorem State.setCcr_regs (s : State) (c : Ccr) : (s.setCcr c).regs = s.regs := rfl
@[simp] theorem State.setCcr_pc (s : State) (c : Ccr) : (s.setCcr c).pc = s.pc := rfl
@[simp] theorem State.setCcr_ccr (s : State) (c : Ccr) : (s.setCcr c).ccr = c := rfl
@[simp] theorem State.setCcr_mem (s : State) (c : Ccr) : (s.setCcr c).mem = s.mem := rfl
@[simp] theorem State.setCcr_outcome (s : State) (c : Ccr) : (s.setCcr c).outcome = s.outcome := rfl
@[simp] theorem State.setCcr_ia (s : State) (c : Ccr) : (s.setCcr c).ia = s.ia := rfl
@[simp] theorem State.setCcr_params (s : State) (c : Ccr) : (s.setCcr c).params = s.params := rfl
@[simp] theorem State.setCcr_reg (s : State) (c : Ccr) (q : Reg) : (s.setCcr c).reg q = s.reg q := rfl

@[simp] theorem State.setPc_regs (s : State) (t : Addr) : (s.setPc t).regs = s.regs := rfl
@[simp] theorem State.setPc_pc (s : State) (t : Addr) : (s.setPc t).pc = t := rfl
@[simp] theorem State.setPc_ccr (s : State) (t : Addr) : (s.setPc t).ccr = s.ccr := rfl
@[simp] theorem State.setPc_mem (s : State) (t : Addr) : (s.setPc t).mem = s.mem := rfl
@[simp] theorem State.setPc_outcome (s : State) (t : Addr) : (s.setPc t).outcome = s.outcome := rfl
@[simp] theorem State.setPc_ia (s : State) (t : Addr) : (s.setPc t).ia = s.ia := rfl
@[simp] theorem State.setPc_params (s : State) (t : Addr) : (s.setPc t).params = s.params := rfl
@[simp] theorem State.setPc_reg (s : State) (t : Addr) (q : Reg) : (s.setPc t).reg q = s.reg q := rfl

@[simp] theorem State.takeException_regs (s : State) (e : Exception) : (s.takeException e).regs = s.regs := rfl
@[simp] theorem State.takeException_pc (s : State) (e : Exception) : (s.takeException e).pc = s.ia := rfl
@[simp] theorem State.takeException_ccr (s : State) (e : Exception) : (s.takeException e).ccr = s.ccr := rfl
@[simp] theorem State.takeException_mem (s : State) (e : Exception) : (s.takeException e).mem = s.mem := rfl
@[simp] theorem State.takeException_outcome (s : State) (e : Exception) : (s.takeException e).outcome = .fault e s.ia := rfl
@[simp] theorem State.takeException_ia (s : State) (e : Exception) : (s.takeException e).ia = s.ia := rfl
@[simp] theorem State.takeException_params (s : State) (e : Exception) : (s.takeException e).params = s.params := rfl
@[simp] theorem State.takeException_reg (s : State) (e : Exception) (q : Reg) : (s.takeException e).reg q = s.reg q := rfl

@[simp] theorem State.beginCycle_regs (s : State) : (s.beginCycle).regs = s.regs := rfl
@[simp] theorem State.beginCycle_pc (s : State) : (s.beginCycle).pc = s.pc := rfl
@[simp] theorem State.beginCycle_ccr (s : State) : (s.beginCycle).ccr = s.ccr := rfl
@[simp] theorem State.beginCycle_mem (s : State) : (s.beginCycle).mem = s.mem := rfl
@[simp] theorem State.beginCycle_outcome (s : State) : (s.beginCycle).outcome = s.outcome := rfl
@[simp] theorem State.beginCycle_ia (s : State) : (s.beginCycle).ia = s.pc := rfl
@[simp] theorem State.beginCycle_params (s : State) : (s.beginCycle).params = s.params := rfl
@[simp] theorem State.beginCycle_reg (s : State) (q : Reg) : (s.beginCycle).reg q = s.reg q := rfl

@[simp] theorem State.advance_regs (s : State) (len : Nat) : (s.advance len).regs = s.regs := rfl
@[simp] theorem State.advance_pc (s : State) (len : Nat) : (s.advance len).pc = s.pc + BitVec.ofNat 16 len := rfl
@[simp] theorem State.advance_ccr (s : State) (len : Nat) : (s.advance len).ccr = s.ccr := rfl
@[simp] theorem State.advance_mem (s : State) (len : Nat) : (s.advance len).mem = s.mem := rfl
@[simp] theorem State.advance_outcome (s : State) (len : Nat) : (s.advance len).outcome = s.outcome := rfl
@[simp] theorem State.advance_ia (s : State) (len : Nat) : (s.advance len).ia = s.ia := rfl
@[simp] theorem State.advance_params (s : State) (len : Nat) : (s.advance len).params = s.params := rfl
@[simp] theorem State.advance_reg (s : State) (len : Nat) (q : Reg) : (s.advance len).reg q = s.reg q := rfl

/-- Replacing pc, ia or the outcome by a record update reads the same registers. -/
@[simp] theorem State.pcUpdate_reg (s : State) (t : Addr) (q : Reg) : State.reg { s with pc := t } q = s.reg q := rfl
@[simp] theorem State.outcomeUpdate_reg (s : State) (x : RunOutcome) (q : Reg) :
    State.reg { s with outcome := x } q = s.reg q := rfl
@[simp] theorem State.memUpdate_reg (s : State) (m : Memory) (q : Reg) : State.reg { s with mem := m } q = s.reg q := rfl

/-- A register reads the value last written to it. -/
@[simp] theorem State.reg_setReg_self (s : State) (r : Reg) (v : Word) : (s.setReg r v).reg r = v := by
  simp [State.reg, State.setReg]

/-- Writing one register leaves every other as it was. -/
theorem State.reg_setReg_ne (s : State) {r q : Reg} (v : Word) (h : q ≠ r) : (s.setReg r v).reg q = s.reg q := by
  have : (r : Nat) ≠ (q : Nat) := fun e => h (Fin.ext e.symm)
  simp [State.reg, State.setReg, Vector.getElem_set_ne, this]

/-- Reading any register after writing one. -/
theorem State.reg_setReg (s : State) (r q : Reg) (v : Word) :
    (s.setReg r v).reg q = if q = r then v else s.reg q := by
  split
  · subst q; simp
  · exact s.reg_setReg_ne v ‹_›

/-- Two states with the same fields are equal; the registers compared one by one. -/
theorem State.ext_reg {s t : State} (hr : ∀ r, t.reg r = s.reg r) (hp : t.pc = s.pc) (hc : t.ccr = s.ccr)
    (hm : t.mem = s.mem) (ho : t.outcome = s.outcome) (hi : t.ia = s.ia) (hq : t.params = s.params) : t = s := by
  obtain ⟨r, p, c, m, o, i, q⟩ := s
  obtain ⟨r', p', c', m', o', i', q'⟩ := t
  have : r' = r := by
    apply Vector.ext
    intro k hk
    exact hr ⟨k, hk⟩
  simp_all

end Sys2Proof.Machine
end

