-- ==== Sys2Proof/Laws/Memory.lean ====
section
/-! SUPPORT. Memory as a list of characters: a read after a write, and the canonical form every write keeps. -/

namespace Sys2Proof.Machine

/-- Below the first address of a canonical list, every address reads as an unlisted one. -/
theorem Memory.read_below {lo : Nat} {m : Memory} (h : Memory.wfFrom lo m = true) {a : Nat} (ha : a < lo) :
    Memory.read m a = Memory.unlisted := by
  cases m with
  | nil => rfl
  | cons c m =>
    obtain ⟨b, v⟩ := c
    simp only [Memory.wfFrom, Bool.and_eq_true, decide_eq_true_eq] at h
    have h1 : ¬ a = b := by omega
    have h2 : a < b := by omega
    simp [Memory.read, h1, h2]

/-- A later starting address is the stronger form. -/
theorem Memory.wfFrom_mono {lo hi : Nat} {m : Memory} (h : Memory.wfFrom hi m = true) (hl : lo ≤ hi) :
    Memory.wfFrom lo m = true := by
  cases m with
  | nil => rfl
  | cons c m =>
    obtain ⟨b, v⟩ := c
    simp only [Memory.wfFrom, Bool.and_eq_true, decide_eq_true_eq] at h ⊢
    exact ⟨⟨⟨by omega, h.1.1.2⟩, h.1.2⟩, h.2⟩

/-- A canonical memory read after a write: the written address holds the written character, every other what it held. -/
theorem Memory.read_write_of_wfFrom {m : Memory} :
    ∀ {lo : Nat}, Memory.wfFrom lo m = true → ∀ (a : Nat) (v : Byte) (b : Nat),
      Memory.read (Memory.write m a v) b = if b = a then v else Memory.read m b := by
  induction m with
  | nil =>
    intro lo _ a v b
    by_cases hv : v = Memory.unlisted
    · simp [Memory.write, Memory.read, hv]
    · by_cases hb : b = a <;> simp [Memory.write, Memory.read, hv, hb]
  | cons c m ih =>
    intro lo h a v b
    obtain ⟨d, w⟩ := c
    simp only [Memory.wfFrom, Bool.and_eq_true, decide_eq_true_eq] at h
    obtain ⟨⟨⟨h1, h2⟩, h3⟩, h4⟩ := h
    have hm := @ih (d + 1) h4 a v b
    by_cases hbd : b < d
    · have hr : Memory.read m b = Memory.unlisted := Memory.read_below h4 (by omega)
      have hne : ¬ b = d := by omega
      by_cases had : a < d
      · have had' : ¬ a = d := by omega
        by_cases hv : v = Memory.unlisted <;> by_cases hba : b = a <;>
          simp [Memory.write, Memory.read, had, had', hv, hba, hbd, hne]
      · have hba : ¬ b = a := by omega
        by_cases had' : a = d
        · by_cases hv : v = Memory.unlisted <;>
            simp [Memory.write, Memory.read, had', hv, hbd, hne, hr]
        · simp [Memory.write, Memory.read, had, had', hba, hbd, hne]
    · by_cases hbd' : b = d
      · subst hbd'
        by_cases had : a < b
        · have hba : ¬ b = a := by omega
          have hba' : ¬ b < a := by omega
          by_cases hv : v = Memory.unlisted <;> simp [Memory.write, Memory.read, had, hv, hba, hba']
        · by_cases had' : a = b
          · subst had'
            by_cases hv : v = Memory.unlisted
            · simp [Memory.write, hv, Memory.read_below h4 (Nat.lt_succ_self a)]
            · simp [Memory.write, Memory.read, hv]
          · have hba : ¬ b = a := fun e => had' e.symm
            simp [Memory.write, Memory.read, had, had', hba]
      · by_cases had : a < d
        · have hba : ¬ b = a := by omega
          have hba' : ¬ b < a := by omega
          by_cases hv : v = Memory.unlisted <;> simp [Memory.write, Memory.read, had, hv, hba, hba', hbd, hbd']
        · by_cases had' : a = d
          · have hba : ¬ b = a := by omega
            by_cases hv : v = Memory.unlisted <;>
              simp [Memory.write, Memory.read, had', hv, hbd, hbd']
          · simp [Memory.write, Memory.read, had, had', hbd, hbd', hm]

/-- A canonical memory read after a write. -/
theorem Memory.read_write {m : Memory} (h : m.wf = true) (a : Nat) (v : Byte) (b : Nat) :
    Memory.read (Memory.write m a v) b = if b = a then v else Memory.read m b :=
  Memory.read_write_of_wfFrom h a v b

/-- A write keeps the canonical form from any address at or below the one it writes. -/
theorem Memory.write_wfFrom {m : Memory} :
    ∀ {lo : Nat}, Memory.wfFrom lo m = true → ∀ {a : Nat}, a < 65536 → lo ≤ a → ∀ v : Byte,
      Memory.wfFrom lo (Memory.write m a v) = true := by
  induction m with
  | nil =>
    intro lo _ a ha hl v
    by_cases hv : v = Memory.unlisted <;> simp [Memory.write, Memory.wfFrom, hv, hl, ha]
  | cons c m ih =>
    intro lo h a ha hl v
    obtain ⟨d, w⟩ := c
    simp only [Memory.wfFrom, Bool.and_eq_true, decide_eq_true_eq] at h
    obtain ⟨⟨⟨h1, h2⟩, h3⟩, h4⟩ := h
    by_cases had : a < d
    · by_cases hv : v = Memory.unlisted
      · simp_all [Memory.write, Memory.wfFrom]
      · simp_all [Memory.write, Memory.wfFrom]
    · by_cases had' : a = d
      · by_cases hv : v = Memory.unlisted
        · simpa [Memory.write, had', hv] using Memory.wfFrom_mono h4 (by omega)
        · simp_all [Memory.write, Memory.wfFrom]
      · have hw := @ih (d + 1) h4 a ha (by omega) v
        simp [Memory.write, Memory.wfFrom, had, had', h1, h2, h3, hw]

/-- A write keeps the canonical form. -/
theorem Memory.write_wf {m : Memory} (h : m.wf = true) {a : Nat} (ha : a < 65536) (v : Byte) :
    (Memory.write m a v).wf = true :=
  Memory.write_wfFrom h ha (Nat.zero_le a) v

/-- Writing the character an address already reads as changes nothing. -/
theorem Memory.write_read {m : Memory} :
    ∀ {lo : Nat}, Memory.wfFrom lo m = true → ∀ a : Nat, Memory.write m a (Memory.read m a) = m := by
  induction m with
  | nil => intro lo _ a; simp [Memory.write, Memory.read]
  | cons c m ih =>
    intro lo h a
    obtain ⟨d, w⟩ := c
    simp only [Memory.wfFrom, Bool.and_eq_true, decide_eq_true_eq, bne_iff_ne, ne_eq] at h
    obtain ⟨⟨⟨h1, h2⟩, h3⟩, h4⟩ := h
    by_cases had : a < d
    · have : ¬ a = d := by omega
      simp [Memory.write, Memory.read, had, this]
    · by_cases had' : a = d
      · simp [Memory.write, Memory.read, had', h3]
      · simp [Memory.write, Memory.read, had, had', @ih (d + 1) h4 a]

/-- The memory a run starts from is in canonical form. -/
theorem Memory.wf_nil : Memory.wf [] = true := rfl

end Sys2Proof.Machine
end

