-- ==== Sys2Proof/Laws/Bytes.lean ====
section
/-! SUPPORT. Characters and words of a state under either value of `REG_MEM_ALIAS`: what a write changes and what a read after
it gives. -/

namespace Sys2Proof.Machine

/-! ### Characters of a word -/

/-- The four characters of a word, joined again. -/
@[simp] theorem wordOfChars_charOfWord (v : Word) :
    wordOfChars (charOfWord v 0) (charOfWord v 1) (charOfWord v 2) (charOfWord v 3) = v := by
  apply BitVec.eq_of_getLsbD_eq
  intro i hi
  simp only [wordOfChars, charOfWord, BitVec.getLsbD_append, BitVec.getLsbD_extractLsb']
  by_cases h0 : i < 8
  · simp [h0]
  · by_cases h1 : i < 16
    · have e : i - 8 < 8 := by omega
      have e' : 8 + (i - 8) = i := by omega
      simp only [h0, e, decide_true, Bool.true_and, if_true, if_false]
      exact congrArg _ (by omega)
    · by_cases h2 : i < 24
      · have e : ¬ i - 8 < 8 := by omega
        have e' : i - 8 - 8 < 8 := by omega
        simp only [h0, e, e', decide_true, Bool.true_and, if_true, if_false]
        exact congrArg _ (by omega)
      · have e : ¬ i - 8 < 8 := by omega
        have e' : ¬ i - 8 - 8 < 8 := by omega
        have e2 : i - 8 - 8 - 8 < 8 := by omega
        simp only [h0, e, e', e2, decide_true, Bool.true_and, if_false]
        exact congrArg _ (by omega)

theorem charOfWord_wordOfChars (a b c d : Byte) :
    charOfWord (wordOfChars a b c d) 0 = a ∧ charOfWord (wordOfChars a b c d) 1 = b ∧
      charOfWord (wordOfChars a b c d) 2 = c ∧ charOfWord (wordOfChars a b c d) 3 = d := by
  refine ⟨?_, ?_, ?_, ?_⟩ <;>
  · ext i hi
    simp only [wordOfChars, charOfWord, BitVec.getElem_extractLsb', BitVec.getLsbD_append]
    split_ifs <;> first | omega | (rw [← BitVec.getLsbD_eq_getElem]; congr 1; omega)

/-- A character of a word after one of its characters is replaced. -/
theorem charOfWord_withCharOfWord (v : Word) (c : Byte) {k j : Nat} (hk : k < 4) (hj : j < 4) :
    charOfWord (withCharOfWord v k c) j = if j = k then c else charOfWord v j := by
  have h := charOfWord_wordOfChars (if k = 0 then c else charOfWord v 0) (if k = 1 then c else charOfWord v 1)
    (if k = 2 then c else charOfWord v 2) (if k = 3 then c else charOfWord v 3)
  obtain ⟨h0, h1, h2, h3⟩ := h
  simp only [withCharOfWord]
  interval_cases j
  · rw [h0]; interval_cases k <;> simp
  · rw [h1]; interval_cases k <;> simp
  · rw [h2]; interval_cases k <;> simp
  · rw [h3]; interval_cases k <;> simp

/-! ### What the characters of a state depend on -/

@[simp] theorem State.inRegs_setReg (s : State) (r : Reg) (v : Word) (a : Addr) :
    (s.setReg r v).inRegs a = s.inRegs a := rfl
@[simp] theorem State.inRegs_setCcr (s : State) (c : Ccr) (a : Addr) : (s.setCcr c).inRegs a = s.inRegs a := rfl
@[simp] theorem State.inRegs_memUpdate (s : State) (m : Memory) (a : Addr) :
    State.inRegs { s with mem := m } a = s.inRegs a := rfl

@[simp] theorem State.byteAt_setCcr (s : State) (c : Ccr) (a : Addr) : (s.setCcr c).byteAt a = s.byteAt a := rfl
@[simp] theorem State.byteAt_setPc (s : State) (t a : Addr) : (s.setPc t).byteAt a = s.byteAt a := rfl
@[simp] theorem State.byteAt_takeException (s : State) (e : Exception) (a : Addr) :
    (s.takeException e).byteAt a = s.byteAt a := rfl
@[simp] theorem State.byteAt_beginCycle (s : State) (a : Addr) : s.beginCycle.byteAt a = s.byteAt a := rfl
@[simp] theorem State.byteAt_advance (s : State) (n : Nat) (a : Addr) : (s.advance n).byteAt a = s.byteAt a := rfl
@[simp] theorem State.byteAt_outcomeUpdate (s : State) (x : RunOutcome) (a : Addr) :
    State.byteAt { s with outcome := x } a = s.byteAt a := rfl

/-- Without register sharing no character is a register's. -/
theorem State.inRegs_of_none {s : State} (h : s.params.regMemAlias = .none) (a : Addr) : s.inRegs a = false := by
  simp [State.inRegs, h]

theorem State.shares_of_none {s : State} (h : s.params.regMemAlias = .none) (a : Addr) (r : Reg) :
    s.shares a r = false := by
  simp [State.shares, State.inRegs_of_none h]

/-- A character below 64 under `low64` is character a mod 4 of register a div 4. -/
theorem State.byteAt_of_inRegs {s : State} {a : Addr} (h : s.inRegs a = true) :
    s.byteAt a = charOfWord (s.reg (regAt a)) (a.toNat % 4) := by
  simp [State.byteAt, h]

theorem State.byteAt_of_not_inRegs {s : State} {a : Addr} (h : s.inRegs a = false) :
    s.byteAt a = Memory.read s.mem a.toNat := by
  simp [State.byteAt, h]

/-- A register write changes no character but its own image's. -/
theorem State.byteAt_setReg (s : State) (r : Reg) (v : Word) {a : Addr} (h : s.shares a r = false) :
    (s.setReg r v).byteAt a = s.byteAt a := by
  by_cases hi : s.inRegs a = true
  · have : regAt a ≠ r := by
      intro e
      simp [State.shares, hi, e] at h
    simp [State.byteAt, hi, State.reg_setReg_ne s v this]
  · simp [State.byteAt, hi]

/-! ### Writing a character -/

@[simp] theorem State.putByte_pc (s : State) (a : Addr) (c : Byte) : (s.putByte a c).pc = s.pc := by
  unfold State.putByte; split <;> rfl
@[simp] theorem State.putByte_ccr (s : State) (a : Addr) (c : Byte) : (s.putByte a c).ccr = s.ccr := by
  unfold State.putByte; split <;> rfl
@[simp] theorem State.putByte_outcome (s : State) (a : Addr) (c : Byte) : (s.putByte a c).outcome = s.outcome := by
  unfold State.putByte; split <;> rfl
@[simp] theorem State.putByte_ia (s : State) (a : Addr) (c : Byte) : (s.putByte a c).ia = s.ia := by
  unfold State.putByte; split <;> rfl
@[simp] theorem State.putByte_params (s : State) (a : Addr) (c : Byte) : (s.putByte a c).params = s.params := by
  unfold State.putByte; split <;> rfl
@[simp] theorem State.inRegs_putByte (s : State) (a : Addr) (c : Byte) (b : Addr) :
    (s.putByte a c).inRegs b = s.inRegs b := by
  simp [State.inRegs]

/-- A character write leaves every register but the one it is a character of. -/
theorem State.reg_putByte (s : State) (c : Byte) {a : Addr} {r : Reg} (h : s.shares a r = false) :
    (s.putByte a c).reg r = s.reg r := by
  unfold State.putByte
  split
  · rename_i hi
    have : r ≠ regAt a := by
      intro e
      simp [State.shares, hi, e] at h
    exact State.reg_setReg_ne s _ this
  · rfl

/-- A character write keeps the canonical form of memory. -/
theorem State.putByte_wf {s : State} (h : s.mem.wf = true) (a : Addr) (c : Byte) : (s.putByte a c).mem.wf = true := by
  unfold State.putByte
  split
  · exact h
  · exact Memory.write_wf h a.isLt c

/-- Addresses below 64 in one register's image with one character number are equal. -/
theorem regAt_eq_imp {a b : Addr} (ha : a.toNat < 64) (hb : b.toNat < 64) (hr : regAt a = regAt b)
    (hm : a.toNat % 4 = b.toNat % 4) : a = b := by
  have h := congrArg Fin.val hr
  simp only [regAt, Fin.ofNat, Fin.val_mk] at h
  apply BitVec.eq_of_toNat_eq
  omega

/-- A character read after a character write. -/
theorem State.byteAt_putByte {s : State} (h : s.mem.wf = true) (a : Addr) (c : Byte) (b : Addr) :
    (s.putByte a c).byteAt b = if b = a then c else s.byteAt b := by
  by_cases ha : s.inRegs a = true
  · have hp : s.putByte a c = s.setReg (regAt a) (withCharOfWord (s.reg (regAt a)) (a.toNat % 4) c) := by
      simp [State.putByte, ha]
    rw [hp]
    by_cases hb : s.inRegs b = true
    · simp only [State.byteAt, State.inRegs_setReg, hb, if_true]
      by_cases hr : regAt b = regAt a
      · rw [hr, State.reg_setReg_self,
          charOfWord_withCharOfWord _ _ (Nat.mod_lt _ (by decide)) (Nat.mod_lt _ (by decide))]
        by_cases hm : b.toNat % 4 = a.toNat % 4
        · have hba : b = a := by
            simp only [State.inRegs, Bool.and_eq_true, decide_eq_true_eq] at ha hb
            exact regAt_eq_imp hb.2 ha.2 hr hm
          simp [hba]
        · have hba : b ≠ a := fun e => hm (by rw [e])
          simp [hm, hba]
      · have hba : b ≠ a := fun e => hr (by rw [e])
        simp [hba, State.reg_setReg_ne s _ hr]
    · have hba : b ≠ a := fun e => hb (by rw [e]; exact ha)
      simp [State.byteAt, hb, hba]
  · have hp : s.putByte a c = { s with mem := Memory.write s.mem a.toNat c } := by
      simp [State.putByte, ha]
    rw [hp]
    by_cases hb : s.inRegs b = true
    · have hba : b ≠ a := fun e => ha (by rw [← e]; exact hb)
      simp [State.byteAt, hb, hba]
    · by_cases hba : b = a
      · simp [State.byteAt, ha, hba, Memory.read_write h]
      · have : ¬ b.toNat = a.toNat := fun e => hba (BitVec.eq_of_toNat_eq e)
        simp [State.byteAt, hb, hba, this, Memory.read_write h]

/-! ### Writing a word -/

@[simp] theorem State.putWord_pc (s : State) (a : Addr) (v : Word) : (s.putWord a v).pc = s.pc := by
  simp [State.putWord]
@[simp] theorem State.putWord_ccr (s : State) (a : Addr) (v : Word) : (s.putWord a v).ccr = s.ccr := by
  simp [State.putWord]
@[simp] theorem State.putWord_outcome (s : State) (a : Addr) (v : Word) : (s.putWord a v).outcome = s.outcome := by
  simp [State.putWord]
@[simp] theorem State.putWord_ia (s : State) (a : Addr) (v : Word) : (s.putWord a v).ia = s.ia := by
  simp [State.putWord]
@[simp] theorem State.putWord_params (s : State) (a : Addr) (v : Word) : (s.putWord a v).params = s.params := by
  simp [State.putWord]
@[simp] theorem State.inRegs_putWord (s : State) (a : Addr) (v : Word) (b : Addr) :
    (s.putWord a v).inRegs b = s.inRegs b := by
  simp [State.inRegs]

theorem State.putWord_wf {s : State} (h : s.mem.wf = true) (a : Addr) (v : Word) : (s.putWord a v).mem.wf = true :=
  State.putByte_wf (State.putByte_wf (State.putByte_wf (State.putByte_wf h _ _) _ _) _ _) _ _

/-- A character read after a word write. -/
theorem State.byteAt_putWord {s : State} (h : s.mem.wf = true) (a : Addr) (v : Word) (b : Addr) :
    (s.putWord a v).byteAt b =
      if b = a + 3 then charOfWord v 3 else if b = a + 2 then charOfWord v 2
      else if b = a + 1 then charOfWord v 1 else if b = a then charOfWord v 0 else s.byteAt b := by
  have h1 := State.putByte_wf h a (charOfWord v 0)
  have h2 := State.putByte_wf h1 (a + 1) (charOfWord v 1)
  have h3 := State.putByte_wf h2 (a + 2) (charOfWord v 2)
  simp only [State.putWord, State.byteAt_putByte h3, State.byteAt_putByte h2, State.byteAt_putByte h1,
    State.byteAt_putByte h]

/-- The four addresses of a word are distinct. -/
theorem addr_ne (a : Addr) : a ≠ a + 1 ∧ a ≠ a + 2 ∧ a ≠ a + 3 ∧ a + 1 ≠ a + 2 ∧ a + 1 ≠ a + 3 ∧ a + 2 ≠ a + 3 := by
  refine ⟨?_, ?_, ?_, ?_, ?_, ?_⟩ <;> intro h <;> bv_omega

/-- A word read where it was written. -/
theorem State.wordAt_putWord {s : State} (h : s.mem.wf = true) (a : Addr) (v : Word) :
    (s.putWord a v).wordAt a = v := by
  obtain ⟨h1, h2, h3, h4, h5, h6⟩ := addr_ne a
  simp only [State.wordAt, State.byteAt_putWord h, h1, h2, h3, h4, h5, h6, if_true, if_false, wordOfChars_charOfWord]

/-- A character outside a written word is as it was. -/
theorem State.byteAt_putWord_ne {s : State} (h : s.mem.wf = true) {a b : Addr} (v : Word) (hb : b ∉ wordBytes a) :
    (s.putWord a v).byteAt b = s.byteAt b := by
  simp only [wordBytes, List.mem_cons, List.not_mem_nil, or_false, not_or] at hb
  obtain ⟨h0, h1, h2, h3⟩ := hb
  simp only [State.byteAt_putWord h, h0, h1, h2, h3, if_false]

/-- A word write leaves every register none of whose characters it writes. -/
theorem State.reg_putWord (s : State) {a : Addr} (v : Word) {r : Reg} (h : ∀ b ∈ wordBytes a, s.shares b r = false) :
    (s.putWord a v).reg r = s.reg r := by
  simp only [wordBytes, List.forall_mem_cons] at h
  obtain ⟨h0, h1, h2, h3, -⟩ := h
  have e : ∀ (t : State) (b : Addr), t.params = s.params → s.shares b r = false → t.shares b r = false := by
    intro t b ht hb
    simpa [State.shares, State.inRegs, ht] using hb
  simp only [State.putWord]
  rw [State.reg_putByte _ _ (e _ _ (by simp) h3), State.reg_putByte _ _ (e _ _ (by simp) h2),
    State.reg_putByte _ _ (e _ _ (by simp) h1), State.reg_putByte _ _ h0]

/-! ### Which characters exist (R38) -/

/-- Existence depends on the parameters alone. -/
theorem State.present_congr {s t : State} (h : t.params = s.params) (a : Addr) (n : Nat) :
    t.present a n = s.present a n := by
  simp [State.present, h]

/-- When `MEM_SIZE` is 65536 every character exists. -/
theorem State.present_of_full {s : State} (h : s.params.memSize = 65536) (a : Addr) (n : Nat) :
    s.present a n = true := by
  simp only [State.present, h, List.all_eq_true, decide_eq_true_eq]
  intro k _
  exact (a + BitVec.ofNat 16 k).isLt

/-- Every character of an access exists. -/
theorem State.present_iff (s : State) (a : Addr) (n : Nat) :
    s.present a n = true ↔ ∀ k < n, (a + BitVec.ofNat 16 k).toNat < s.params.memSize := by
  simp [State.present]

end Sys2Proof.Machine
end

