-- ==== Sys2Proof/Laws/Decode.lean ====
section
/-! SUPPORT. The parts of the decoder and the encoder: register and index designators, and the characters of raw fields. -/

namespace Sys2Proof

@[simp] theorem regOfBits_bitsOfReg (r : Reg) : regOfBits (bitsOfReg r) = r := by
  apply Fin.ext
  simp [regOfBits, bitsOfReg]

@[simp] theorem bitsOfReg_regOfBits (n : BitVec 4) : bitsOfReg (regOfBits n) = n := by
  simp [regOfBits, bitsOfReg]

/-- An index designator that names no register 0 survives encoding and decoding. -/
theorem indexOfBits_bitsOfIndex (x : Option Reg) (h : x ≠ some 0) : indexOfBits (bitsOfIndex x) = x := by
  cases x with
  | none => rfl
  | some r => revert h; revert r; decide

@[simp] theorem bitsOfIndex_indexOfBits (n : BitVec 4) : bitsOfIndex (indexOfBits n) = n := by
  revert n; decide

/-- The decoder names no register 0 as an index. -/
theorem indexOfBits_ne (n : BitVec 4) : indexOfBits n ≠ some 0 := by
  revert n; decide

/-! ### Characters of raw fields -/

@[simp] theorem opcodeOf_append (b : Bool) (op : Opcode) : opcodeOf (BitVec.ofBool b ++ op) = op := by
  revert b op; decide

@[simp] theorem indirectOf_append (b : Bool) (op : Opcode) : indirectOf (BitVec.ofBool b ++ op) = b := by
  revert b op; decide

theorem ofBool_append_opcodeOf (c : Byte) : (BitVec.ofBool (indirectOf c) ++ opcodeOf c : Byte) = c := by
  revert c; decide

@[simp] theorem extract_high_append (n m : BitVec 4) : (n ++ m).extractLsb' 4 4 = n := by
  revert n m; decide

@[simp] theorem extract_low_append (n m : BitVec 4) : (n ++ m).extractLsb' 0 4 = m := by
  revert n m; decide

theorem append_extract (c : Byte) : (c.extractLsb' 4 4 ++ c.extractLsb' 0 4 : Byte) = c := by
  revert c; decide

theorem append_extract_half (v : BitVec 16) : (v.extractLsb' 8 8 ++ v.extractLsb' 0 8 : BitVec 16) = v := by
  apply BitVec.eq_of_getLsbD_eq
  intro i hi
  simp only [BitVec.getLsbD_append, BitVec.getLsbD_extractLsb']
  by_cases h : i < 8
  · simp [h]
  · have e : i - 8 < 8 := by omega
    have e' : 8 + (i - 8) = i := by omega
    simp [h, e, e']

theorem extract_append_half (c d : Byte) :
    (c ++ d : BitVec 16).extractLsb' 8 8 = c ∧ (c ++ d : BitVec 16).extractLsb' 0 8 = d := by
  constructor <;> (apply BitVec.eq_of_getLsbD_eq; intro i hi; simp only [BitVec.getLsbD_extractLsb', BitVec.getLsbD_append])
  · have e : ¬ 8 + i < 8 := by omega
    have e' : 8 + i - 8 = i := by omega
    simp [e, e', hi]
  · simp [hi]

theorem Fields.ofBytes_parts (f : Fields) :
    Fields.ofBytes (BitVec.ofBool f.indirect ++ f.opcode) (f.n1 ++ f.n2) (f.low.extractLsb' 8 8) (f.low.extractLsb' 0 8) = f := by
  simp [Fields.ofBytes, append_extract_half]

theorem Fields.ofShort_parts (f : Fields) (h : f.low = 0) :
    Fields.ofShort (BitVec.ofBool f.indirect ++ f.opcode) (f.n1 ++ f.n2) = f := by
  obtain ⟨i, o, n1, n2, l⟩ := f
  simp at h
  simp [Fields.ofShort, h]

/-- What the decoder does with the characters of raw fields. -/
theorem decode_toBytes (f : Fields) (rest : List Byte) (ha : isAssigned f.opcode = true)
    (hs : isShort f.opcode = true → f.low = 0) : decode (f.toBytes ++ rest) = f.decoded rest := by
  by_cases h : isShort f.opcode = true
  · simp [Fields.toBytes, h, decode, ha, Fields.ofShort_parts f (hs h)]
  · simp [Fields.toBytes, h, decode, ha, Fields.ofBytes_parts f]

/-- What a successful decoding read: the characters of some fields of an assigned opcode, then the rest. -/
theorem decode_ok {bs rest : List Byte} {i : Instr} (h : decode bs = .ok (i, rest)) :
    ∃ f : Fields, f.instr? = some i ∧ isAssigned f.opcode = true ∧ (isShort f.opcode = true → f.low = 0) ∧
      bs = f.toBytes ++ rest := by
  cases bs with
  | nil => simp [decode] at h
  | cons c0 tail =>
    have hd : ∀ (f : Fields) (r : List Byte), f.decoded r = .ok (i, rest) → f.instr? = some i ∧ r = rest := by
      intro f r hf
      unfold Fields.decoded at hf
      split at hf <;> simp_all
    by_cases ha : isAssigned (opcodeOf c0) = true
    · by_cases hs : isShort (opcodeOf c0) = true
      · cases tail with
        | nil => simp [decode, ha, hs] at h
        | cons c1 tl =>
          simp only [decode, ha, hs, Bool.not_true, Bool.false_eq_true, if_false, if_true] at h
          obtain ⟨h1, h2⟩ := hd _ _ h
          refine ⟨_, h1, ha, fun _ => rfl, ?_⟩
          simp [Fields.toBytes, Fields.ofShort, hs, ofBool_append_opcodeOf, append_extract, h2]
      · match tail, h with
        | [], h => simp [decode, ha, hs] at h
        | [_], h => simp [decode, ha, hs] at h
        | [_, _], h => simp [decode, ha, hs] at h
        | c1 :: c2 :: c3 :: tl, h =>
          simp only [decode, ha, hs, Bool.not_true, Bool.false_eq_true, if_false] at h
          obtain ⟨h1, h2⟩ := hd _ _ h
          refine ⟨_, h1, ha, fun e => absurd e hs, ?_⟩
          simp [Fields.toBytes, Fields.ofBytes, hs, ofBool_append_opcodeOf, append_extract, h2, extract_append_half]
    · simp [decode, ha] at h

end Sys2Proof
end

