-- ==== Sys2Proof/Laws/Ops.lean ====
section
/-! SUPPORT. For each shared operation, everything it can do: when it succeeds, what it then gives, and how an instruction's
work ends a step. -/

namespace Sys2Proof.Machine

/-- A checked result that succeeds. -/
theorem check_ok {α : Type} {b : Bool} {x y : α} {e : Stop} :
    (if b = true then (.ok x : Except Stop α) else .error e) = .ok y ↔ b = true ∧ x = y := by
  cases b <;> simp

/-- A checked result that fails. -/
theorem check_error {α : Type} {b : Bool} {x : α} {e e' : Stop} :
    (if b = true then (.ok x : Except Stop α) else .error e) = .error e' ↔ b = false ∧ e' = e := by
  cases b <;> simp [eq_comm (a := e')]

/-! ### Reading and writing memory (R30, R38) -/

theorem State.memRead1_ok {s : State} {a : Addr} {c : Byte} :
    s.memRead1 a = .ok c ↔ s.present a 1 = true ∧ s.byteAt a = c :=
  check_ok

theorem State.memRead2_ok {s : State} {a : Addr} {f : BitVec 16} :
    s.memRead2 a = .ok f ↔ s.present a 2 = true ∧ s.halfAt a = f :=
  check_ok

theorem State.memRead4_ok {s : State} {a : Addr} {v : Word} :
    s.memRead4 a = .ok v ↔ s.present a 4 = true ∧ s.wordAt a = v :=
  check_ok

theorem State.memWrite1_ok {s t : State} {a : Addr} {c : Byte} :
    s.memWrite1 a c = .ok t ↔ s.present a 1 = true ∧ s.putByte a c = t :=
  check_ok

theorem State.memWrite4_ok {s t : State} {a : Addr} {v : Word} :
    s.memWrite4 a v = .ok t ↔ s.present a 4 = true ∧ s.putWord a v = t :=
  check_ok

/-- The one way an access to memory fails (R38). -/
theorem State.memRead1_error {s : State} {a : Addr} {e : Stop} :
    s.memRead1 a = .error e ↔ s.present a 1 = false ∧ e = .absent a :=
  check_error

theorem State.memRead2_error {s : State} {a : Addr} {e : Stop} :
    s.memRead2 a = .error e ↔ s.present a 2 = false ∧ e = .absent a :=
  check_error

theorem State.memRead4_error {s : State} {a : Addr} {e : Stop} :
    s.memRead4 a = .error e ↔ s.present a 4 = false ∧ e = .absent a :=
  check_error

theorem State.memWrite1_error {s : State} {a : Addr} {c : Byte} {e : Stop} :
    s.memWrite1 a c = .error e ↔ s.present a 1 = false ∧ e = .absent a :=
  check_error

theorem State.memWrite4_error {s : State} {a : Addr} {v : Word} {e : Stop} :
    s.memWrite4 a v = .error e ↔ s.present a 4 = false ∧ e = .absent a :=
  check_error

/-! ### Word operands (R57, R58) -/

@[simp] theorem State.readW_reg (s : State) (r : Reg) : s.readW (.reg r) = .ok (s.reg r) := rfl
@[simp] theorem State.writeW_reg (s : State) (r : Reg) (v : Word) : s.writeW (.reg r) v = .ok (s.setReg r v) := rfl

theorem State.readW_mem_ok {s : State} {a : Addr} {v : Word} :
    s.readW (.mem a) = .ok v ↔ onWordBoundary a = true ∧ s.present a 4 = true ∧ s.wordAt a = v := by
  simp only [State.readW]; split <;> simp_all [State.memRead4_ok]

theorem State.writeW_mem_ok {s t : State} {a : Addr} {v : Word} :
    s.writeW (.mem a) v = .ok t ↔ onWordBoundary a = true ∧ s.present a 4 = true ∧ s.putWord a v = t := by
  simp only [State.writeW]; split <;> simp_all [State.memWrite4_ok]

theorem State.readW_mem_error {s : State} {a : Addr} {e : Stop} :
    s.readW (.mem a) = .error e ↔
      (onWordBoundary a = false ∧ e = .raise (.wordAddressing a)) ∨
      (onWordBoundary a = true ∧ s.present a 4 = false ∧ e = .absent a) := by
  simp only [State.readW]; split <;> simp_all [State.memRead4_error, eq_comm (b := e)]

theorem State.writeW_mem_error {s : State} {a : Addr} {v : Word} {e : Stop} :
    s.writeW (.mem a) v = .error e ↔
      (onWordBoundary a = false ∧ e = .raise (.wordAddressing a)) ∨
      (onWordBoundary a = true ∧ s.present a 4 = false ∧ e = .absent a) := by
  simp only [State.writeW]; split <;> simp_all [State.memWrite4_error, eq_comm (b := e)]

/-! ### Effective addresses (R59) -/

theorem State.ea_direct (s : State) (x : Option Reg) (a : Addr) :
    s.ea ⟨false, x, a⟩ = .ok (a + s.indexValue x) := rfl

theorem State.ea_indirect {s : State} {op : MemOperand} (h : op.indirect = true) (he : isEven op.addr = true) :
    s.ea op = (s.memRead2 op.addr >>= fun f => .ok (f + s.indexValue op.index)) := by
  simp only [State.ea, h, he, if_true]
  rfl

theorem State.ea_ok {s : State} {op : MemOperand} {a : Addr} :
    s.ea op = .ok a ↔
      (op.indirect = false ∧ op.addr + s.indexValue op.index = a) ∨
      (op.indirect = true ∧ isEven op.addr = true ∧ s.present op.addr 2 = true ∧
        s.halfAt op.addr + s.indexValue op.index = a) := by
  cases hi : op.indirect
  · simp [State.ea, hi]
  · cases he : isEven op.addr
    · simp [State.ea, hi, he]
    · rw [State.ea_indirect hi he]
      cases hp : s.present op.addr 2 <;> simp [State.memRead2, hp, bind, Except.bind]

theorem State.ea_error {s : State} {op : MemOperand} {e : Stop} :
    s.ea op = .error e ↔
      op.indirect = true ∧
        ((isEven op.addr = false ∧ Stop.raise (.indirectAddress op.addr) = e) ∨
          (isEven op.addr = true ∧ s.present op.addr 2 = false ∧ Stop.absent op.addr = e)) := by
  cases hi : op.indirect
  · simp [State.ea, hi]
  · cases he : isEven op.addr
    · simp [State.ea, hi, he]
    · rw [State.ea_indirect hi he]
      cases hp : s.present op.addr 2 <;> simp [State.memRead2, hp, bind, Except.bind]

theorem State.wordRR_ok {s : State} {ind : Bool} {r2 : Reg} {v : Word} :
    s.wordRR ind r2 = .ok v ↔
      (ind = false ∧ s.reg r2 = v) ∨
      (ind = true ∧ onWordBoundary (lowHalf (s.reg r2)) = true ∧ s.present (lowHalf (s.reg r2)) 4 = true ∧
        s.wordAt (lowHalf (s.reg r2)) = v) := by
  cases ind <;> simp [State.wordRR, State.rrLoc, State.readW_mem_ok]

theorem State.wordRR_error {s : State} {ind : Bool} {r2 : Reg} {e : Stop} :
    s.wordRR ind r2 = .error e ↔
      ind = true ∧
        ((onWordBoundary (lowHalf (s.reg r2)) = false ∧ e = .raise (.wordAddressing (lowHalf (s.reg r2)))) ∨
          (onWordBoundary (lowHalf (s.reg r2)) = true ∧ s.present (lowHalf (s.reg r2)) 4 = false ∧
            e = .absent (lowHalf (s.reg r2)))) := by
  cases ind <;> simp [State.wordRR, State.rrLoc, State.readW_mem_error]

theorem State.wordRS_ok {s : State} {op : MemOperand} {v : Word} :
    s.wordRS op = .ok v ↔
      ∃ a, s.ea op = .ok a ∧ onWordBoundary a = true ∧ s.present a 4 = true ∧ s.wordAt a = v := by
  unfold State.wordRS
  cases s.ea op <;> simp [bind, Except.bind, State.readW_mem_ok]

theorem State.wordRS_error {s : State} {op : MemOperand} {e : Stop} :
    s.wordRS op = .error e ↔
      s.ea op = .error e ∨
      ∃ a, s.ea op = .ok a ∧
        ((onWordBoundary a = false ∧ e = .raise (.wordAddressing a)) ∨
          (onWordBoundary a = true ∧ s.present a 4 = false ∧ e = .absent a)) := by
  unfold State.wordRS
  cases s.ea op <;> simp [bind, Except.bind, State.readW_mem_error]

theorem State.charCH_ok {s : State} {op : MemOperand} {c : Byte} :
    s.charCH op = .ok c ↔ ∃ a, s.ea op = .ok a ∧ s.present a 1 = true ∧ s.byteAt a = c := by
  unfold State.charCH
  cases s.ea op <;> simp [bind, Except.bind, State.memRead1_ok]

theorem State.charCH_error {s : State} {op : MemOperand} {e : Stop} :
    s.charCH op = .error e ↔
      s.ea op = .error e ∨ ∃ a, s.ea op = .ok a ∧ s.present a 1 = false ∧ e = .absent a := by
  unfold State.charCH
  cases s.ea op <;> simp [bind, Except.bind, State.memRead1_error]

/-! ### The end of an instruction (R261) -/

@[simp] theorem State.finish_ok (s t : State) : s.finish (.ok t) = .next t := rfl
@[simp] theorem State.finish_error (s : State) (e : Stop) : s.finish (.error e) = s.stop e := rfl
@[simp] theorem State.stop_raise (s : State) (e : Exception) : s.stop (.raise e) = .next (s.takeException e) := rfl
@[simp] theorem State.stop_absent (s : State) (a : Addr) : s.stop (.absent a) = .fault (.absentMemory a) := rfl
@[simp] theorem State.stop_endless (s : State) : s.stop .endless = .fault .executeNeverCompletes := rfl

/-- A stopped instruction gives a next state only by taking its exception. -/
theorem State.stop_next {s t : State} {e : Stop} :
    s.stop e = .next t ↔ ∃ x, e = .raise x ∧ t = s.takeException x := by
  cases e <;> simp [State.stop, eq_comm]

/-- An instruction gives a next state when its work succeeds or an exception is taken. -/
theorem State.finish_next {s t : State} {r : Except Stop State} :
    s.finish r = .next t ↔ r = .ok t ∨ ∃ x, r = .error (.raise x) ∧ t = s.takeException x := by
  cases r <;> simp [State.stop_next]

theorem bind_ok {α β : Type} {r : Except Stop α} {f : α → Except Stop β} {b : β} :
    (r >>= f) = .ok b ↔ ∃ a, r = .ok a ∧ f a = .ok b := by
  cases r <;> simp [bind, Except.bind]

theorem bind_error {α β : Type} {r : Except Stop α} {f : α → Except Stop β} {e : Stop} :
    (r >>= f) = .error e ↔ r = .error e ∨ ∃ a, r = .ok a ∧ f a = .error e := by
  cases r <;> simp [bind, Except.bind]

theorem State.withRR_of_ok {s : State} {ind : Bool} {r2 : Reg} {v : Word} (h : s.wordRR ind r2 = .ok v)
    (work : Word → Except Stop State) : s.withRR ind r2 work = s.finish (work v) := by
  simp [State.withRR, h, bind, Except.bind]

theorem State.withRS_of_ok {s : State} {op : MemOperand} {v : Word} (h : s.wordRS op = .ok v)
    (work : Word → Except Stop State) : s.withRS op work = s.finish (work v) := by
  simp [State.withRS, h, bind, Except.bind]

theorem State.withCH_of_ok {s : State} {op : MemOperand} {c : Byte} (h : s.charCH op = .ok c)
    (work : Byte → Except Stop State) : s.withCH op work = s.finish (work c) := by
  simp [State.withCH, h, bind, Except.bind]

theorem State.withEA_of_ok {s : State} {op : MemOperand} {a : Addr} (h : s.ea op = .ok a)
    (work : Addr → Except Stop State) : s.withEA op work = s.finish (work a) := by
  simp [State.withEA, h, bind, Except.bind]

theorem State.withRR_of_error {s : State} {ind : Bool} {r2 : Reg} {e : Stop} (h : s.wordRR ind r2 = .error e)
    (work : Word → Except Stop State) : s.withRR ind r2 work = s.stop e := by
  simp [State.withRR, h, bind, Except.bind]

theorem State.withRS_of_error {s : State} {op : MemOperand} {e : Stop} (h : s.wordRS op = .error e)
    (work : Word → Except Stop State) : s.withRS op work = s.stop e := by
  simp [State.withRS, h, bind, Except.bind]

theorem State.withCH_of_error {s : State} {op : MemOperand} {e : Stop} (h : s.charCH op = .error e)
    (work : Byte → Except Stop State) : s.withCH op work = s.stop e := by
  simp [State.withCH, h, bind, Except.bind]

theorem State.withEA_of_error {s : State} {op : MemOperand} {e : Stop} (h : s.ea op = .error e)
    (work : Addr → Except Stop State) : s.withEA op work = s.stop e := by
  simp [State.withEA, h, bind, Except.bind]

/-! ### Frames -/

theorem State.shares_congr {s t : State} (h : t.params = s.params) (a : Addr) (r : Reg) :
    t.shares a r = s.shares a r := by
  simp [State.shares, State.inRegs, h]

theorem Unchanged.refl (s : State) : Unchanged [] [] s s :=
  ⟨fun _ _ _ => rfl, fun _ _ _ => rfl, rfl, rfl, rfl⟩

/-- Two changes one after the other. -/
theorem Unchanged.trans {rs rs' : List Reg} {as as' : List Addr} {s t u : State} (h : Unchanged rs as s t)
    (h' : Unchanged rs' as' t u) : Unchanged (rs ++ rs') (as ++ as') s u := by
  refine ⟨?_, ?_, h'.outcome.trans h.outcome, h'.ia.trans h.ia, h'.params.trans h.params⟩
  · intro r hr ha
    simp only [List.mem_append, not_or] at hr
    rw [h'.regs r hr.2, h.regs r hr.1]
    · exact fun a hm => ha a (List.mem_append_left _ hm)
    · intro a hm
      rw [State.shares_congr h.params]
      exact ha a (List.mem_append_right _ hm)
  · intro a ha hr
    simp only [List.mem_append, not_or] at ha
    rw [h'.bytes a ha.2, h.bytes a ha.1]
    · exact fun r hm => hr r (List.mem_append_left _ hm)
    · intro r hm
      rw [State.shares_congr h.params]
      exact hr r (List.mem_append_right _ hm)

/-- A frame with more excepted is a weaker frame. -/
theorem Unchanged.mono {rs rs' : List Reg} {as as' : List Addr} {s t : State} (h : Unchanged rs as s t)
    (hr : rs ⊆ rs') (ha : as ⊆ as') : Unchanged rs' as' s t :=
  ⟨fun r hn hs => h.regs r (fun m => hn (hr m)) fun a m => hs a (ha m),
    fun a hn hs => h.bytes a (fun m => hn (ha m)) fun r m => hs r (hr m), h.outcome, h.ia, h.params⟩

theorem unchanged_setReg (s : State) (r : Reg) (v : Word) : Unchanged [r] [] s (s.setReg r v) :=
  ⟨fun q hq _ => State.reg_setReg_ne s v (by simpa using hq),
    fun a _ hs => State.byteAt_setReg s r v (hs r (by simp)), rfl, rfl, rfl⟩

theorem unchanged_setCcr (s : State) (c : Ccr) : Unchanged [] [] s (s.setCcr c) :=
  ⟨fun _ _ _ => rfl, fun _ _ _ => rfl, rfl, rfl, rfl⟩

theorem unchanged_setPc (s : State) (t : Addr) : Unchanged [] [] s (s.setPc t) :=
  ⟨fun _ _ _ => rfl, fun _ _ _ => rfl, rfl, rfl, rfl⟩

theorem unchanged_putByte {s : State} (h : s.mem.wf = true) (a : Addr) (c : Byte) :
    Unchanged [] [a] s (s.putByte a c) := by
  refine ⟨fun r _ hs => State.reg_putByte s c (hs a (by simp)), fun b hb _ => ?_, by simp, by simp, by simp⟩
  rw [State.byteAt_putByte h]
  simp only [List.mem_singleton] at hb
  simp [hb]

theorem unchanged_putWord {s : State} (h : s.mem.wf = true) (a : Addr) (v : Word) :
    Unchanged [] (wordBytes a) s (s.putWord a v) :=
  ⟨fun _ _ hs => State.reg_putWord s v hs, fun _ hb _ => State.byteAt_putWord_ne h v hb, by simp, by simp, by simp⟩

/-- A register and the CCR written. -/
theorem unchanged_setReg_setCcr (s : State) (r : Reg) (v : Word) (c : Ccr) :
    Unchanged [r] [] s ((s.setReg r v).setCcr c) := by
  simpa using (unchanged_setReg s r v).trans (unchanged_setCcr (s.setReg r v) c)

/-! ### Real divides -/

/-- What a real divide by a divisor that compares equal to zero answers (R195, R264). -/
theorem realDiv_of_sign_zero (a : Word) {b : Word} (h : Config.real.sign b = .zero) :
    realDiv a b = if Config.real.valid a = true ∧ Config.real.valid b = true then .zeroDivisor else .realFormat := by
  split
  · rename_i hv
    exact Config.real.div_zero a b h hv.1 hv.2
  · rename_i hv
    exact Config.real.div_zero_badlyFormed a b h hv

/-- A real divide that answers a word has a divisor that does not compare equal to zero. -/
theorem sign_ne_zero_of_realDiv {a b w : Word} (h : realDiv a b = .ok w) : Config.real.sign b ≠ .zero := by
  intro hz
  rw [realDiv_of_sign_zero a hz] at h
  split at h <;> simp at h

end Sys2Proof.Machine
end

