-- ==== Sys2Proof/Laws/Execute.lean ====
section
/-! SUPPORT. The fetch, the cycle and EX: what a fetch of an instruction's characters gives, and how a chain of EX is followed. -/

namespace Sys2Proof.Machine

/-- The characters of an instruction depend on the characters of the state alone. -/
theorem State.instrBytes_congr {s t : State} (h : ∀ a, t.byteAt a = s.byteAt a) (a : Addr) (n : Nat) :
    t.instrBytes a n = s.instrBytes a n := by
  simp [State.instrBytes, h]

@[simp] theorem State.instrBytes_two (s : State) (a : Addr) : s.instrBytes a 2 = [s.byteAt a, s.byteAt (a + 1)] := by
  simp [State.instrBytes, List.range_succ]

@[simp] theorem State.instrBytes_four (s : State) (a : Addr) :
    s.instrBytes a 4 = [s.byteAt a, s.byteAt (a + 1), s.byteAt (a + 2), s.byteAt (a + 3)] := by
  simp [State.instrBytes, List.range_succ]

/-- The length of an encoding: that of its opcode (R50, R52). -/
theorem Fields.toBytes_length (f : Fields) : f.toBytes.length = instrLength f.opcode := by
  unfold Fields.toBytes instrLength
  split <;> rfl

/-- Two or four characters, by the opcode. -/
theorem instrLength_cases (op : Opcode) : instrLength op = 2 ∨ instrLength op = 4 := by
  unfold instrLength
  split <;> simp

/-- The first character of the fields of an opcode. -/
theorem Fields.toBytes_head (f : Fields) : ∃ cs, f.toBytes = (BitVec.ofBool f.indirect ++ f.opcode) :: cs := by
  unfold Fields.toBytes
  split <;> exact ⟨_, rfl⟩

/-- Existence of an instruction's characters gives existence of the first. -/
theorem State.present_one {s : State} {a : Addr} {n : Nat} (h : s.present a n = true) (hn : 0 < n) :
    s.present a 1 = true := by
  rw [State.present_iff] at h ⊢
  intro k hk
  obtain rfl : k = 0 := by omega
  exact h 0 hn

/-- A fetch of the characters of some fields that decode. -/
theorem State.fetchAt_of_fields {s : State} {a : Addr} {f : Fields} {i : Instr} (hi : f.instr? = some i)
    (ha : isAssigned f.opcode = true) (hs : isShort f.opcode = true → f.low = 0)
    (hp : s.present a (instrLength f.opcode) = true) (hb : s.instrBytes a (instrLength f.opcode) = f.toBytes) :
    s.fetchAt a = .ok ⟨i, instrLength f.opcode⟩ := by
  have h0 : s.byteAt a = BitVec.ofBool f.indirect ++ f.opcode := by
    obtain ⟨cs, hcs⟩ := Fields.toBytes_head f
    rcases instrLength_cases f.opcode with h | h <;> rw [h, hcs] at hb <;> simp at hb <;> exact hb.1
  have hp1 : s.present a 1 = true :=
    State.present_one hp (by rcases instrLength_cases f.opcode with h | h <;> omega)
  have ho : opcodeOf (s.byteAt a) = f.opcode := by rw [h0]; exact opcodeOf_append _ _
  have hd : decode (s.instrBytes a (instrLength f.opcode)) = .ok (i, []) := by
    have := decode_toBytes f [] ha hs
    rw [List.append_nil] at this
    rw [hb, this]
    simp [Fields.decoded, hi]
  simp [State.fetchAt, State.memRead1, hp1, ho, ha, hp, hd, bind, Except.bind]

/-- A fetch of a character with an unassigned opcode (R66). -/
theorem State.fetchAt_unassigned {s : State} {a : Addr} (hp : s.present a 1 = true)
    (ho : isAssigned (opcodeOf (s.byteAt a)) = false) :
    s.fetchAt a = .error (.raise (.unimplementedInstruction a (opcodeOf (s.byteAt a)))) := by
  simp [State.fetchAt, State.memRead1, hp, ho, bind, Except.bind]

/-- The ways a fetch fails. -/
theorem State.fetchAt_error {s : State} {a : Addr} {e : Stop} (h : s.fetchAt a = .error e) :
    e = .absent a ∨ (e = .raise (.unimplementedInstruction a (opcodeOf (s.byteAt a)))) := by
  unfold State.fetchAt at h
  rcases bind_error.1 h with h1 | ⟨c, hc, h2⟩
  · exact .inl (State.memRead1_error.1 h1).2
  · obtain ⟨hp, hc⟩ := State.memRead1_ok.1 hc
    subst hc
    split at h2
    · split at h2
      · split at h2
        · simp at h2
        · right; simpa [eq_comm] using h2
      · left; simpa [eq_comm] using h2
    · right; simpa [eq_comm] using h2

/-! ### EX (R147) -/

/-- One link of a chain of EX. -/
theorem State.exSubject_succ (s : State) (n : Nat) (op : MemOperand) :
    s.exSubject (n + 1) op =
      (s.ea op >>= fun ea =>
        if isEven ea then
          (s.fetchAt ea >>= fun f =>
            match f.instr with
            | .ex _ op' => s.exSubject n op'
            | i => .ok i)
        else .error (.raise (.executeAddress ea))) := rfl

/-- A subject that is not an EX is executed as any instruction is. -/
theorem execSubject_eq_exec {i : Instr} (h : isEX i = false) (s : State) : execSubject i s = exec i s := by
  cases i <;> first | rfl | simp [isEX] at h

/-- No chain ends in an EX. -/
theorem State.exSubject_not_ex {s : State} {n : Nat} :
    ∀ {op : MemOperand} {i : Instr}, s.exSubject n op = .ok i → isEX i = false := by
  induction n with
  | zero => intro op i h; simp [State.exSubject] at h
  | succ n ih =>
    intro op i h
    rw [State.exSubject_succ] at h
    obtain ⟨ea, -, h⟩ := bind_ok.1 h
    split at h
    · obtain ⟨f, -, h⟩ := bind_ok.1 h
      split at h
      · exact ih h
      · rename_i hne
        cases h
        revert hne
        cases f.instr <;> simp [isEX]
    · simp at h

/-- EX is its subject, or takes the exception of its chain. -/
theorem execEX_eq (r1 : Reg) (op : MemOperand) (s : State) :
    exec (.ex r1 op) s = match s.exSubject exLinks op with
      | .ok i => exec i s
      | .error e => s.stop e := by
  show execEX r1 op s = _
  unfold execEX
  cases h : s.exSubject exLinks op with
  | ok i => exact execSubject_eq_exec (State.exSubject_not_ex h) s
  | error e => rfl

/-- How a chain of EX fails: the model's stops, or one of three exceptions with the detail of its cause. -/
theorem State.exSubject_error {s : State} {n : Nat} :
    ∀ {op : MemOperand} {e : Stop}, s.exSubject n op = .error e →
      e = .endless ∨ (∃ a, e = .absent a) ∨ (∃ a, isEven a = false ∧ e = .raise (.indirectAddress a)) ∨
      (∃ a, isEven a = false ∧ e = .raise (.executeAddress a)) ∨
      (∃ a op', isEven a = true ∧ s.fetchAt a = .error (.raise (.unimplementedInstruction a op')) ∧
        e = .raise (.unimplementedInstruction a op')) := by
  induction n with
  | zero => intro op e h; left; simpa [State.exSubject, eq_comm] using h
  | succ n ih =>
    intro op e h
    rw [State.exSubject_succ] at h
    rcases bind_error.1 h with h | ⟨ea, -, h⟩
    · obtain ⟨-, ⟨he, h⟩ | ⟨-, -, h⟩⟩ := State.ea_error.1 h
      · exact .inr (.inr (.inl ⟨_, he, h.symm⟩))
      · exact .inr (.inl ⟨_, h.symm⟩)
    · split at h
      · rename_i hev
        rcases bind_error.1 h with h | ⟨f, -, h⟩
        · rcases State.fetchAt_error h with h' | h'
          · exact .inr (.inl ⟨_, h'⟩)
          · subst h'
            exact .inr (.inr (.inr (.inr ⟨_, _, hev, h, rfl⟩)))
        · split at h
          · exact ih h
          · simp at h
      · rename_i hev
        refine .inr (.inr (.inr (.inl ⟨ea, by simpa using hev, ?_⟩)))
        simpa [eq_comm] using h

end Sys2Proof.Machine
end

