-- ==== Sys2Proof/Laws/Loops.lean ====
section
/-! SUPPORT. The loops of LM, STM, CCS and MCS: when they complete, what every successful one keeps, and how they fail. -/

namespace Sys2Proof.Machine

/-! ### Addresses and registers of a range -/

@[simp] theorem rangeWord_zero (a : Addr) : rangeWord a 0 = a := by simp [rangeWord]

theorem rangeWord_succ (a : Addr) (k : Nat) : rangeWord (a + 4) k = rangeWord a (k + 1) := by
  have h4 : (4 : Addr).toNat = 4 := rfl
  apply BitVec.eq_of_toNat_eq
  simp only [rangeWord, BitVec.toNat_add, BitVec.toNat_ofNat, h4]
  omega

@[simp] theorem rangeReg_zero (r : Reg) : rangeReg r 0 = r := by simp [rangeReg]

theorem rangeReg_succ (r : Reg) (k : Nat) : rangeReg (r + 1) k = rangeReg r (k + 1) := by
  apply Fin.ext
  simp only [rangeReg, Fin.val_add, Fin.ofNat]
  omega

/-- The registers of a range of at most sixteen are distinct. -/
theorem rangeReg_inj {r : Reg} {j k : Nat} (hj : j < 16) (hk : k < 16) (h : rangeReg r j = rangeReg r k) : j = k := by
  have := congrArg Fin.val h
  simp only [rangeReg, Fin.val_add, Fin.ofNat] at this
  omega

/-- LM and STM transfer as many registers as the range of the designators holds. -/
theorem rangeCount_eq (r1 r2 : Reg) : rangeCount r1 r2 = rangeLength r1 r2 := by
  revert r1 r2; decide

theorem rangeLength_le (r1 r2 : Reg) : rangeLength r1 r2 ≤ 16 := by
  revert r1 r2; decide

/-! ### LM (R149) -/

/-- A successful load of a range keeps everything but registers. -/
theorem State.loadRange_keeps {n : Nat} :
    ∀ {r : Reg} {a : Addr} {s t : State}, State.loadRange n r a s = .ok t →
      t.pc = s.pc ∧ t.ccr = s.ccr ∧ t.mem = s.mem ∧ t.outcome = s.outcome ∧ t.ia = s.ia ∧ t.params = s.params := by
  induction n with
  | zero => intro r a s t h; cases h; simp
  | succ n ih =>
    intro r a s t h
    obtain ⟨v, -, h⟩ := bind_ok.1 h
    simpa using ih h

/-- A load of a range fails only on a missing word. -/
theorem State.loadRange_error {n : Nat} :
    ∀ {r : Reg} {a : Addr} {s : State} {e : Stop}, State.loadRange n r a s = .error e → ∃ b, e = .absent b := by
  induction n with
  | zero => intro r a s e h; simp [State.loadRange] at h
  | succ n ih =>
    intro r a s e h
    rcases bind_error.1 h with h | ⟨v, -, h⟩
    · exact ⟨a, (State.memRead4_error.1 h).2⟩
    · exact ih h

/-- A load of a range completes when every word exists. -/
theorem State.loadRange_completes {n : Nat} :
    ∀ {r : Reg} {a : Addr} {s : State}, (∀ k < n, s.present (rangeWord a k) 4 = true) →
      ∃ t, State.loadRange n r a s = .ok t ∧ Unchanged (rangeRegs r n) [] s t := by
  induction n with
  | zero => intro r a s _; exact ⟨s, rfl, by simpa [rangeRegs] using Unchanged.refl s⟩
  | succ n ih =>
    intro r a s h
    have h0 : s.present a 4 = true := by simpa using h 0 (Nat.succ_pos n)
    obtain ⟨t, ht, hu⟩ := @ih (r + 1) (a + 4) (s.setReg r (s.wordAt a)) (by
      intro k hk
      rw [rangeWord_succ]
      exact h (k + 1) (by omega))
    refine ⟨t, ?_, ?_⟩
    · simp only [State.loadRange, State.memRead4, h0, if_true, bind, Except.bind]
      exact ht
    · refine ((unchanged_setReg s r _).trans hu).mono ?_ (by simp)
      intro q hq
      simp only [rangeRegs, List.mem_append, List.mem_singleton, List.mem_map, List.mem_range] at hq ⊢
      rcases hq with rfl | ⟨k, hk, rfl⟩
      · exact ⟨0, by omega, by simp⟩
      · exact ⟨k + 1, by omega, (rangeReg_succ r k).symm⟩

/-! ### STM (R150) -/

/-- A successful store of a range keeps everything but characters. -/
theorem State.storeRange_keeps {n : Nat} :
    ∀ {r : Reg} {a : Addr} {s t : State}, State.storeRange n r a s = .ok t →
      t.pc = s.pc ∧ t.ccr = s.ccr ∧ t.outcome = s.outcome ∧ t.ia = s.ia ∧ t.params = s.params ∧
        (s.mem.wf = true → t.mem.wf = true) := by
  induction n with
  | zero => intro r a s t h; cases h; simp
  | succ n ih =>
    intro r a s t h
    obtain ⟨u, hu, h⟩ := bind_ok.1 h
    obtain ⟨-, rfl⟩ := State.memWrite4_ok.1 hu
    have := ih h
    exact ⟨by simpa using this.1, by simpa using this.2.1, by simpa using this.2.2.1, by simpa using this.2.2.2.1,
      by simpa using this.2.2.2.2.1, fun hw => this.2.2.2.2.2 (State.putWord_wf hw _ _)⟩

/-- A store of a range fails only on a missing word. -/
theorem State.storeRange_error {n : Nat} :
    ∀ {r : Reg} {a : Addr} {s : State} {e : Stop}, State.storeRange n r a s = .error e → ∃ b, e = .absent b := by
  induction n with
  | zero => intro r a s e h; simp [State.storeRange] at h
  | succ n ih =>
    intro r a s e h
    rcases bind_error.1 h with h | ⟨v, -, h⟩
    · exact ⟨a, (State.memWrite4_error.1 h).2⟩
    · exact ih h

/-! ### CCS (R144) -/

/-- The comparison of strings fails only on a missing character. -/
theorem State.compareLoop_error {s : State} {d : Addr} {n : Nat} :
    ∀ {a1 a2 : Addr} {c : Ccr} {e : Stop}, s.compareLoop d n a1 a2 c = .error e → ∃ b, e = .absent b := by
  induction n with
  | zero => intro a1 a2 c e h; simp [State.compareLoop] at h
  | succ n ih =>
    intro a1 a2 c e h
    rcases bind_error.1 h with h | ⟨b1, -, h⟩
    · exact ⟨a1, (State.memRead1_error.1 h).2⟩
    · rcases bind_error.1 h with h | ⟨b2, -, h⟩
      · exact ⟨a2, (State.memRead1_error.1 h).2⟩
      · split at h
        · exact ih h
        · simp [pure, Except.pure] at h

/-- The CCR after the loop is the one it began with or that of a comparison. -/
theorem State.compareLoop_ccr {s : State} {d : Addr} {n : Nat} :
    ∀ {a1 a2 : Addr} {c : Ccr} {x : StringRegs}, s.compareLoop d n a1 a2 c = .ok x →
      x.ccr = c ∨ ∃ b1 b2, x.ccr = cmpU b1 b2 := by
  induction n with
  | zero => intro a1 a2 c x h; cases h; simp
  | succ n ih =>
    intro a1 a2 c x h
    obtain ⟨b1, -, h⟩ := bind_ok.1 h
    obtain ⟨b2, -, h⟩ := bind_ok.1 h
    split at h
    · rcases ih h with h | h
      · exact .inr ⟨b1, b2, h⟩
      · exact .inr h
    · cases h; exact .inr ⟨b1, b2, rfl⟩

/-! ### MCS (R145) -/

/-- A successful move keeps everything but characters. -/
theorem State.moveLoop_keeps {d : Addr} {n : Nat} :
    ∀ {a1 a2 : Addr} {s t : State}, State.moveLoop d n a1 a2 s = .ok t →
      t.pc = s.pc ∧ t.ccr = s.ccr ∧ t.outcome = s.outcome ∧ t.ia = s.ia ∧ t.params = s.params ∧
        (s.mem.wf = true → t.mem.wf = true) := by
  induction n with
  | zero => intro a1 a2 s t h; cases h; simp
  | succ n ih =>
    intro a1 a2 s t h
    obtain ⟨b, -, h⟩ := bind_ok.1 h
    obtain ⟨u, hu, h⟩ := bind_ok.1 h
    obtain ⟨-, rfl⟩ := State.memWrite1_ok.1 hu
    have := ih h
    exact ⟨by simpa using this.1, by simpa using this.2.1, by simpa using this.2.2.1, by simpa using this.2.2.2.1,
      by simpa using this.2.2.2.2.1, fun hw => this.2.2.2.2.2 (State.putByte_wf hw _ _)⟩

/-- A move fails only on a missing character. -/
theorem State.moveLoop_error {d : Addr} {n : Nat} :
    ∀ {a1 a2 : Addr} {s : State} {e : Stop}, State.moveLoop d n a1 a2 s = .error e → ∃ b, e = .absent b := by
  induction n with
  | zero => intro a1 a2 s e h; simp [State.moveLoop] at h
  | succ n ih =>
    intro a1 a2 s e h
    rcases bind_error.1 h with h | ⟨b, -, h⟩
    · exact ⟨a1, (State.memRead1_error.1 h).2⟩
    · rcases bind_error.1 h with h | ⟨u, -, h⟩
      · exact ⟨a2, (State.memWrite1_error.1 h).2⟩
      · exact ih h

end Sys2Proof.Machine
end

