-- ==== Sys2Proof/Laws/PerInstr.lean ====
section
/-! SUPPORT. The per-instruction family FieldsReadBack: the raw fields of a well-formed instruction belong to an assigned opcode
and are read back as the instruction (R51 to R56, R65). -/

namespace Sys2Proof

/-- The immediate, split into the fields of R55 and joined again. -/
@[simp] theorem imm_append (v : Imm) : (v.extractLsb' 16 4 ++ v.extractLsb' 0 16 : Imm) = v := by
  apply BitVec.eq_of_getLsbD_eq
  intro i hi
  simp only [BitVec.getLsbD_append, BitVec.getLsbD_extractLsb']
  by_cases h : i < 16
  · simp [h]
  · have e : i - 16 < 4 := by omega
    have e' : 16 + (i - 16) = i := by omega
    simp [h, e, e']

/-- The raw fields of an instruction belong to an assigned opcode, are those of a short instruction only without bits 16 to 31,
and are read back as the instruction. -/
def Laws.FieldsReadBack.Statement (i : Instr) : Prop :=
  i.wf = true → i.fields.instr? = some i ∧ isAssigned i.fields.opcode = true ∧
    (isShort i.fields.opcode = true → i.fields.low = 0)

/-- Fields read back through two register designators. -/
theorem readBack_two {f : Fields} {mk : Reg → Reg → Instr} {r1 r2 : Reg}
    (h : f.instr? = some (mk (regOfBits (bitsOfReg r1)) (regOfBits (bitsOfReg r2)))) : f.instr? = some (mk r1 r2) := by
  simpa using h

/-- Fields read back through one register designator. -/
theorem readBack_one {f : Fields} {mk : Reg → Instr} {r2 : Reg}
    (h : f.instr? = some (mk (regOfBits (bitsOfReg r2)))) : f.instr? = some (mk r2) := by
  simpa using h

/-- Address fields of a well-formed operand read back. -/
theorem readBack_op {f : Fields} {mk : MemOperand → Instr} {op : MemOperand} (hw : op.wf = true)
    (h : f.instr? = some (mk ⟨op.indirect, indexOfBits (bitsOfIndex op.index), op.addr⟩)) : f.instr? = some (mk op) := by
  obtain ⟨i, x, a⟩ := op
  simp only [MemOperand.wf, bne_iff_ne, ne_eq] at hw
  simpa [indexOfBits_bitsOfIndex x hw] using h

/-- A register designator and the address fields of a well-formed operand read back. -/
theorem readBack_mem {f : Fields} {mk : Reg → MemOperand → Instr} {r1 : Reg} {op : MemOperand} (hw : op.wf = true)
    (h : f.instr? = some (mk (regOfBits (bitsOfReg r1)) ⟨op.indirect, indexOfBits (bitsOfIndex op.index), op.addr⟩)) :
    f.instr? = some (mk r1 op) :=
  readBack_op (mk := mk r1) hw (by simpa using h)

/-- A register designator and an immediate read back. -/
theorem readBack_imm {f : Fields} {mk : Reg → Imm → Instr} {r1 : Reg} {v : Imm}
    (h : f.instr? = some (mk (regOfBits (bitsOfReg r1)) (v.extractLsb' 16 4 ++ v.extractLsb' 0 16))) :
    f.instr? = some (mk r1 v) := by
  simpa using h

/-- A long opcode is not short. -/
theorem not_isShort {op : Opcode} {p : Prop} (h : isShort op = false) : isShort op = true → p :=
  fun e => absurd (e.symm.trans h) (by decide)

theorem Laws.FieldsReadBack.lr (ind : Bool) (r1 r2 : Reg) : Laws.FieldsReadBack.Statement (.lr ind r1 r2) :=
  fun _ => ⟨readBack_two (mk := .lr ind) rfl, rfl, fun _ => rfl⟩
theorem Laws.FieldsReadBack.l (r1 : Reg) (op : MemOperand) : Laws.FieldsReadBack.Statement (.l r1 op) :=
  fun h => ⟨readBack_mem (mk := .l) h rfl, rfl, not_isShort rfl⟩
theorem Laws.FieldsReadBack.li (ign : Bool) (r1 : Reg) (imm : Imm) : Laws.FieldsReadBack.Statement (.li ign r1 imm) :=
  fun _ => ⟨readBack_imm (mk := .li ign) rfl, rfl, not_isShort rfl⟩
theorem Laws.FieldsReadBack.lc (r1 : Reg) (op : MemOperand) : Laws.FieldsReadBack.Statement (.lc r1 op) :=
  fun h => ⟨readBack_mem (mk := .lc) h rfl, rfl, not_isShort rfl⟩
theorem Laws.FieldsReadBack.lnr (ind : Bool) (r1 r2 : Reg) : Laws.FieldsReadBack.Statement (.lnr ind r1 r2) :=
  fun _ => ⟨readBack_two (mk := .lnr ind) rfl, rfl, fun _ => rfl⟩
theorem Laws.FieldsReadBack.ln (r1 : Reg) (op : MemOperand) : Laws.FieldsReadBack.Statement (.ln r1 op) :=
  fun h => ⟨readBack_mem (mk := .ln) h rfl, rfl, not_isShort rfl⟩
theorem Laws.FieldsReadBack.lni (ign : Bool) (r1 : Reg) (imm : Imm) : Laws.FieldsReadBack.Statement (.lni ign r1 imm) :=
  fun _ => ⟨readBack_imm (mk := .lni ign) rfl, rfl, not_isShort rfl⟩
theorem Laws.FieldsReadBack.lnc (r1 : Reg) (op : MemOperand) : Laws.FieldsReadBack.Statement (.lnc r1 op) :=
  fun h => ⟨readBack_mem (mk := .lnc) h rfl, rfl, not_isShort rfl⟩
theorem Laws.FieldsReadBack.str (ind : Bool) (r1 r2 : Reg) : Laws.FieldsReadBack.Statement (.str ind r1 r2) :=
  fun _ => ⟨readBack_two (mk := .str ind) rfl, rfl, fun _ => rfl⟩
theorem Laws.FieldsReadBack.st (r1 : Reg) (op : MemOperand) : Laws.FieldsReadBack.Statement (.st r1 op) :=
  fun h => ⟨readBack_mem (mk := .st) h rfl, rfl, not_isShort rfl⟩
theorem Laws.FieldsReadBack.stc (r1 : Reg) (op : MemOperand) : Laws.FieldsReadBack.Statement (.stc r1 op) :=
  fun h => ⟨readBack_mem (mk := .stc) h rfl, rfl, not_isShort rfl⟩
theorem Laws.FieldsReadBack.swapr (ind : Bool) (r1 r2 : Reg) : Laws.FieldsReadBack.Statement (.swapr ind r1 r2) :=
  fun _ => ⟨readBack_two (mk := .swapr ind) rfl, rfl, fun _ => rfl⟩
theorem Laws.FieldsReadBack.swap (r1 : Reg) (op : MemOperand) : Laws.FieldsReadBack.Statement (.swap r1 op) :=
  fun h => ⟨readBack_mem (mk := .swap) h rfl, rfl, not_isShort rfl⟩
theorem Laws.FieldsReadBack.swapc (r1 : Reg) (op : MemOperand) : Laws.FieldsReadBack.Statement (.swapc r1 op) :=
  fun h => ⟨readBack_mem (mk := .swapc) h rfl, rfl, not_isShort rfl⟩
theorem Laws.FieldsReadBack.andr (ind : Bool) (r1 r2 : Reg) : Laws.FieldsReadBack.Statement (.andr ind r1 r2) :=
  fun _ => ⟨readBack_two (mk := .andr ind) rfl, rfl, fun _ => rfl⟩
theorem Laws.FieldsReadBack.and (r1 : Reg) (op : MemOperand) : Laws.FieldsReadBack.Statement (.and r1 op) :=
  fun h => ⟨readBack_mem (mk := .and) h rfl, rfl, not_isShort rfl⟩
theorem Laws.FieldsReadBack.andi (ign : Bool) (r1 : Reg) (imm : Imm) : Laws.FieldsReadBack.Statement (.andi ign r1 imm) :=
  fun _ => ⟨readBack_imm (mk := .andi ign) rfl, rfl, not_isShort rfl⟩
theorem Laws.FieldsReadBack.andc (r1 : Reg) (op : MemOperand) : Laws.FieldsReadBack.Statement (.andc r1 op) :=
  fun h => ⟨readBack_mem (mk := .andc) h rfl, rfl, not_isShort rfl⟩
theorem Laws.FieldsReadBack.orr (ind : Bool) (r1 r2 : Reg) : Laws.FieldsReadBack.Statement (.orr ind r1 r2) :=
  fun _ => ⟨readBack_two (mk := .orr ind) rfl, rfl, fun _ => rfl⟩
theorem Laws.FieldsReadBack.or (r1 : Reg) (op : MemOperand) : Laws.FieldsReadBack.Statement (.or r1 op) :=
  fun h => ⟨readBack_mem (mk := .or) h rfl, rfl, not_isShort rfl⟩
theorem Laws.FieldsReadBack.ori (ign : Bool) (r1 : Reg) (imm : Imm) : Laws.FieldsReadBack.Statement (.ori ign r1 imm) :=
  fun _ => ⟨readBack_imm (mk := .ori ign) rfl, rfl, not_isShort rfl⟩
theorem Laws.FieldsReadBack.orc (r1 : Reg) (op : MemOperand) : Laws.FieldsReadBack.Statement (.orc r1 op) :=
  fun h => ⟨readBack_mem (mk := .orc) h rfl, rfl, not_isShort rfl⟩
theorem Laws.FieldsReadBack.xorr (ind : Bool) (r1 r2 : Reg) : Laws.FieldsReadBack.Statement (.xorr ind r1 r2) :=
  fun _ => ⟨readBack_two (mk := .xorr ind) rfl, rfl, fun _ => rfl⟩
theorem Laws.FieldsReadBack.xor (r1 : Reg) (op : MemOperand) : Laws.FieldsReadBack.Statement (.xor r1 op) :=
  fun h => ⟨readBack_mem (mk := .xor) h rfl, rfl, not_isShort rfl⟩
theorem Laws.FieldsReadBack.xori (ign : Bool) (r1 : Reg) (imm : Imm) : Laws.FieldsReadBack.Statement (.xori ign r1 imm) :=
  fun _ => ⟨readBack_imm (mk := .xori ign) rfl, rfl, not_isShort rfl⟩
theorem Laws.FieldsReadBack.xorc (r1 : Reg) (op : MemOperand) : Laws.FieldsReadBack.Statement (.xorc r1 op) :=
  fun h => ⟨readBack_mem (mk := .xorc) h rfl, rfl, not_isShort rfl⟩
theorem Laws.FieldsReadBack.notr (ind : Bool) (r1 r2 : Reg) : Laws.FieldsReadBack.Statement (.notr ind r1 r2) :=
  fun _ => ⟨readBack_two (mk := .notr ind) rfl, rfl, fun _ => rfl⟩
theorem Laws.FieldsReadBack.not (r1 : Reg) (op : MemOperand) : Laws.FieldsReadBack.Statement (.not r1 op) :=
  fun h => ⟨readBack_mem (mk := .not) h rfl, rfl, not_isShort rfl⟩
theorem Laws.FieldsReadBack.noti (ign : Bool) (r1 : Reg) (imm : Imm) : Laws.FieldsReadBack.Statement (.noti ign r1 imm) :=
  fun _ => ⟨readBack_imm (mk := .noti ign) rfl, rfl, not_isShort rfl⟩
theorem Laws.FieldsReadBack.notc (r1 : Reg) (op : MemOperand) : Laws.FieldsReadBack.Statement (.notc r1 op) :=
  fun h => ⟨readBack_mem (mk := .notc) h rfl, rfl, not_isShort rfl⟩
theorem Laws.FieldsReadBack.bcsr (ind : Bool) (m1 : Mask) (r2 : Reg) : Laws.FieldsReadBack.Statement (.bcsr ind m1 r2) :=
  fun _ => ⟨readBack_one (mk := .bcsr ind m1) rfl, rfl, fun _ => rfl⟩
theorem Laws.FieldsReadBack.bcs (m1 : Mask) (op : MemOperand) : Laws.FieldsReadBack.Statement (.bcs m1 op) :=
  fun h => ⟨readBack_op (mk := .bcs m1) h rfl, rfl, not_isShort rfl⟩
theorem Laws.FieldsReadBack.bcrr (ind : Bool) (m1 : Mask) (r2 : Reg) : Laws.FieldsReadBack.Statement (.bcrr ind m1 r2) :=
  fun _ => ⟨readBack_one (mk := .bcrr ind m1) rfl, rfl, fun _ => rfl⟩
theorem Laws.FieldsReadBack.bcr (m1 : Mask) (op : MemOperand) : Laws.FieldsReadBack.Statement (.bcr m1 op) :=
  fun h => ⟨readBack_op (mk := .bcr m1) h rfl, rfl, not_isShort rfl⟩
theorem Laws.FieldsReadBack.balr (ind : Bool) (r1 r2 : Reg) : Laws.FieldsReadBack.Statement (.balr ind r1 r2) :=
  fun _ => ⟨readBack_two (mk := .balr ind) rfl, rfl, fun _ => rfl⟩
theorem Laws.FieldsReadBack.bal (r1 : Reg) (op : MemOperand) : Laws.FieldsReadBack.Statement (.bal r1 op) :=
  fun h => ⟨readBack_mem (mk := .bal) h rfl, rfl, not_isShort rfl⟩
theorem Laws.FieldsReadBack.sacr (ind : Bool) (m1 : Mask) (r2 : Reg) : Laws.FieldsReadBack.Statement (.sacr ind m1 r2) :=
  fun _ => ⟨readBack_one (mk := .sacr ind m1) rfl, rfl, fun _ => rfl⟩
theorem Laws.FieldsReadBack.sac (m1 : Mask) (op : MemOperand) : Laws.FieldsReadBack.Statement (.sac m1 op) :=
  fun h => ⟨readBack_op (mk := .sac m1) h rfl, rfl, not_isShort rfl⟩
theorem Laws.FieldsReadBack.sacc (m1 : Mask) (op : MemOperand) : Laws.FieldsReadBack.Statement (.sacc m1 op) :=
  fun h => ⟨readBack_op (mk := .sacc m1) h rfl, rfl, not_isShort rfl⟩
theorem Laws.FieldsReadBack.cr (ind : Bool) (r1 r2 : Reg) : Laws.FieldsReadBack.Statement (.cr ind r1 r2) :=
  fun _ => ⟨readBack_two (mk := .cr ind) rfl, rfl, fun _ => rfl⟩
theorem Laws.FieldsReadBack.c (r1 : Reg) (op : MemOperand) : Laws.FieldsReadBack.Statement (.c r1 op) :=
  fun h => ⟨readBack_mem (mk := .c) h rfl, rfl, not_isShort rfl⟩
theorem Laws.FieldsReadBack.ci (ign : Bool) (r1 : Reg) (imm : Imm) : Laws.FieldsReadBack.Statement (.ci ign r1 imm) :=
  fun _ => ⟨readBack_imm (mk := .ci ign) rfl, rfl, not_isShort rfl⟩
theorem Laws.FieldsReadBack.cc (r1 : Reg) (op : MemOperand) : Laws.FieldsReadBack.Statement (.cc r1 op) :=
  fun h => ⟨readBack_mem (mk := .cc) h rfl, rfl, not_isShort rfl⟩
theorem Laws.FieldsReadBack.ccs (ign : Bool) (m1 : Mask) (r2 : Reg) : Laws.FieldsReadBack.Statement (.ccs ign m1 r2) :=
  fun _ => ⟨readBack_one (mk := .ccs ign m1) rfl, rfl, fun _ => rfl⟩
theorem Laws.FieldsReadBack.mcs (ign : Bool) (m1 : Mask) (r2 : Reg) : Laws.FieldsReadBack.Statement (.mcs ign m1 r2) :=
  fun _ => ⟨readBack_one (mk := .mcs ign m1) rfl, rfl, fun _ => rfl⟩
theorem Laws.FieldsReadBack.svc (r1 : Reg) (op : MemOperand) : Laws.FieldsReadBack.Statement (.svc r1 op) :=
  fun h => ⟨readBack_mem (mk := .svc) h rfl, rfl, not_isShort rfl⟩
theorem Laws.FieldsReadBack.ex (r1 : Reg) (op : MemOperand) : Laws.FieldsReadBack.Statement (.ex r1 op) :=
  fun h => ⟨readBack_mem (mk := .ex) h rfl, rfl, not_isShort rfl⟩
theorem Laws.FieldsReadBack.la (r1 : Reg) (op : MemOperand) : Laws.FieldsReadBack.Statement (.la r1 op) :=
  fun h => ⟨readBack_mem (mk := .la) h rfl, rfl, not_isShort rfl⟩
theorem Laws.FieldsReadBack.lm (ind : Bool) (r1 r2 : Reg) (addr : Addr) : Laws.FieldsReadBack.Statement (.lm ind r1 r2 addr) :=
  fun _ => ⟨readBack_two (mk := fun p q => .lm ind p q addr) rfl, rfl, not_isShort rfl⟩
theorem Laws.FieldsReadBack.stm (ind : Bool) (r1 r2 : Reg) (addr : Addr) : Laws.FieldsReadBack.Statement (.stm ind r1 r2 addr) :=
  fun _ => ⟨readBack_two (mk := fun p q => .stm ind p q addr) rfl, rfl, not_isShort rfl⟩
theorem Laws.FieldsReadBack.ar (ind : Bool) (r1 r2 : Reg) : Laws.FieldsReadBack.Statement (.ar ind r1 r2) :=
  fun _ => ⟨readBack_two (mk := .ar ind) rfl, rfl, fun _ => rfl⟩
theorem Laws.FieldsReadBack.a (r1 : Reg) (op : MemOperand) : Laws.FieldsReadBack.Statement (.a r1 op) :=
  fun h => ⟨readBack_mem (mk := .a) h rfl, rfl, not_isShort rfl⟩
theorem Laws.FieldsReadBack.ai (ign : Bool) (r1 : Reg) (imm : Imm) : Laws.FieldsReadBack.Statement (.ai ign r1 imm) :=
  fun _ => ⟨readBack_imm (mk := .ai ign) rfl, rfl, not_isShort rfl⟩
theorem Laws.FieldsReadBack.ac (r1 : Reg) (op : MemOperand) : Laws.FieldsReadBack.Statement (.ac r1 op) :=
  fun h => ⟨readBack_mem (mk := .ac) h rfl, rfl, not_isShort rfl⟩
theorem Laws.FieldsReadBack.sr (ind : Bool) (r1 r2 : Reg) : Laws.FieldsReadBack.Statement (.sr ind r1 r2) :=
  fun _ => ⟨readBack_two (mk := .sr ind) rfl, rfl, fun _ => rfl⟩
theorem Laws.FieldsReadBack.s (r1 : Reg) (op : MemOperand) : Laws.FieldsReadBack.Statement (.s r1 op) :=
  fun h => ⟨readBack_mem (mk := .s) h rfl, rfl, not_isShort rfl⟩
theorem Laws.FieldsReadBack.si (ign : Bool) (r1 : Reg) (imm : Imm) : Laws.FieldsReadBack.Statement (.si ign r1 imm) :=
  fun _ => ⟨readBack_imm (mk := .si ign) rfl, rfl, not_isShort rfl⟩
theorem Laws.FieldsReadBack.sc (r1 : Reg) (op : MemOperand) : Laws.FieldsReadBack.Statement (.sc r1 op) :=
  fun h => ⟨readBack_mem (mk := .sc) h rfl, rfl, not_isShort rfl⟩
theorem Laws.FieldsReadBack.rsr (ind : Bool) (r1 r2 : Reg) : Laws.FieldsReadBack.Statement (.rsr ind r1 r2) :=
  fun _ => ⟨readBack_two (mk := .rsr ind) rfl, rfl, fun _ => rfl⟩
theorem Laws.FieldsReadBack.rs (r1 : Reg) (op : MemOperand) : Laws.FieldsReadBack.Statement (.rs r1 op) :=
  fun h => ⟨readBack_mem (mk := .rs) h rfl, rfl, not_isShort rfl⟩
theorem Laws.FieldsReadBack.rsi (ign : Bool) (r1 : Reg) (imm : Imm) : Laws.FieldsReadBack.Statement (.rsi ign r1 imm) :=
  fun _ => ⟨readBack_imm (mk := .rsi ign) rfl, rfl, not_isShort rfl⟩
theorem Laws.FieldsReadBack.rsc (r1 : Reg) (op : MemOperand) : Laws.FieldsReadBack.Statement (.rsc r1 op) :=
  fun h => ⟨readBack_mem (mk := .rsc) h rfl, rfl, not_isShort rfl⟩
theorem Laws.FieldsReadBack.mr (ind : Bool) (r1 r2 : Reg) : Laws.FieldsReadBack.Statement (.mr ind r1 r2) :=
  fun _ => ⟨readBack_two (mk := .mr ind) rfl, rfl, fun _ => rfl⟩
theorem Laws.FieldsReadBack.m (r1 : Reg) (op : MemOperand) : Laws.FieldsReadBack.Statement (.m r1 op) :=
  fun h => ⟨readBack_mem (mk := .m) h rfl, rfl, not_isShort rfl⟩
theorem Laws.FieldsReadBack.mi (ign : Bool) (r1 : Reg) (imm : Imm) : Laws.FieldsReadBack.Statement (.mi ign r1 imm) :=
  fun _ => ⟨readBack_imm (mk := .mi ign) rfl, rfl, not_isShort rfl⟩
theorem Laws.FieldsReadBack.mc (r1 : Reg) (op : MemOperand) : Laws.FieldsReadBack.Statement (.mc r1 op) :=
  fun h => ⟨readBack_mem (mk := .mc) h rfl, rfl, not_isShort rfl⟩
theorem Laws.FieldsReadBack.dr (ind : Bool) (r1 r2 : Reg) : Laws.FieldsReadBack.Statement (.dr ind r1 r2) :=
  fun _ => ⟨readBack_two (mk := .dr ind) rfl, rfl, fun _ => rfl⟩
theorem Laws.FieldsReadBack.d (r1 : Reg) (op : MemOperand) : Laws.FieldsReadBack.Statement (.d r1 op) :=
  fun h => ⟨readBack_mem (mk := .d) h rfl, rfl, not_isShort rfl⟩
theorem Laws.FieldsReadBack.di (ign : Bool) (r1 : Reg) (imm : Imm) : Laws.FieldsReadBack.Statement (.di ign r1 imm) :=
  fun _ => ⟨readBack_imm (mk := .di ign) rfl, rfl, not_isShort rfl⟩
theorem Laws.FieldsReadBack.dc (r1 : Reg) (op : MemOperand) : Laws.FieldsReadBack.Statement (.dc r1 op) :=
  fun h => ⟨readBack_mem (mk := .dc) h rfl, rfl, not_isShort rfl⟩
theorem Laws.FieldsReadBack.rdr (ind : Bool) (r1 r2 : Reg) : Laws.FieldsReadBack.Statement (.rdr ind r1 r2) :=
  fun _ => ⟨readBack_two (mk := .rdr ind) rfl, rfl, fun _ => rfl⟩
theorem Laws.FieldsReadBack.rd (r1 : Reg) (op : MemOperand) : Laws.FieldsReadBack.Statement (.rd r1 op) :=
  fun h => ⟨readBack_mem (mk := .rd) h rfl, rfl, not_isShort rfl⟩
theorem Laws.FieldsReadBack.rdi (ign : Bool) (r1 : Reg) (imm : Imm) : Laws.FieldsReadBack.Statement (.rdi ign r1 imm) :=
  fun _ => ⟨readBack_imm (mk := .rdi ign) rfl, rfl, not_isShort rfl⟩
theorem Laws.FieldsReadBack.rdc (r1 : Reg) (op : MemOperand) : Laws.FieldsReadBack.Statement (.rdc r1 op) :=
  fun h => ⟨readBack_mem (mk := .rdc) h rfl, rfl, not_isShort rfl⟩
theorem Laws.FieldsReadBack.remr (ind : Bool) (r1 r2 : Reg) : Laws.FieldsReadBack.Statement (.remr ind r1 r2) :=
  fun _ => ⟨readBack_two (mk := .remr ind) rfl, rfl, fun _ => rfl⟩
theorem Laws.FieldsReadBack.rem (r1 : Reg) (op : MemOperand) : Laws.FieldsReadBack.Statement (.rem r1 op) :=
  fun h => ⟨readBack_mem (mk := .rem) h rfl, rfl, not_isShort rfl⟩
theorem Laws.FieldsReadBack.remi (ign : Bool) (r1 : Reg) (imm : Imm) : Laws.FieldsReadBack.Statement (.remi ign r1 imm) :=
  fun _ => ⟨readBack_imm (mk := .remi ign) rfl, rfl, not_isShort rfl⟩
theorem Laws.FieldsReadBack.remc (r1 : Reg) (op : MemOperand) : Laws.FieldsReadBack.Statement (.remc r1 op) :=
  fun h => ⟨readBack_mem (mk := .remc) h rfl, rfl, not_isShort rfl⟩
theorem Laws.FieldsReadBack.rremr (ind : Bool) (r1 r2 : Reg) : Laws.FieldsReadBack.Statement (.rremr ind r1 r2) :=
  fun _ => ⟨readBack_two (mk := .rremr ind) rfl, rfl, fun _ => rfl⟩
theorem Laws.FieldsReadBack.rrem (r1 : Reg) (op : MemOperand) : Laws.FieldsReadBack.Statement (.rrem r1 op) :=
  fun h => ⟨readBack_mem (mk := .rrem) h rfl, rfl, not_isShort rfl⟩
theorem Laws.FieldsReadBack.rremi (ign : Bool) (r1 : Reg) (imm : Imm) : Laws.FieldsReadBack.Statement (.rremi ign r1 imm) :=
  fun _ => ⟨readBack_imm (mk := .rremi ign) rfl, rfl, not_isShort rfl⟩
theorem Laws.FieldsReadBack.rremc (r1 : Reg) (op : MemOperand) : Laws.FieldsReadBack.Statement (.rremc r1 op) :=
  fun h => ⟨readBack_mem (mk := .rremc) h rfl, rfl, not_isShort rfl⟩
theorem Laws.FieldsReadBack.far (ind : Bool) (r1 r2 : Reg) : Laws.FieldsReadBack.Statement (.far ind r1 r2) :=
  fun _ => ⟨readBack_two (mk := .far ind) rfl, rfl, fun _ => rfl⟩
theorem Laws.FieldsReadBack.fa (r1 : Reg) (op : MemOperand) : Laws.FieldsReadBack.Statement (.fa r1 op) :=
  fun h => ⟨readBack_mem (mk := .fa) h rfl, rfl, not_isShort rfl⟩
theorem Laws.FieldsReadBack.fai (ign : Bool) (r1 : Reg) (imm : Imm) : Laws.FieldsReadBack.Statement (.fai ign r1 imm) :=
  fun _ => ⟨readBack_imm (mk := .fai ign) rfl, rfl, not_isShort rfl⟩
theorem Laws.FieldsReadBack.fsr (ind : Bool) (r1 r2 : Reg) : Laws.FieldsReadBack.Statement (.fsr ind r1 r2) :=
  fun _ => ⟨readBack_two (mk := .fsr ind) rfl, rfl, fun _ => rfl⟩
theorem Laws.FieldsReadBack.fs (r1 : Reg) (op : MemOperand) : Laws.FieldsReadBack.Statement (.fs r1 op) :=
  fun h => ⟨readBack_mem (mk := .fs) h rfl, rfl, not_isShort rfl⟩
theorem Laws.FieldsReadBack.fsi (ign : Bool) (r1 : Reg) (imm : Imm) : Laws.FieldsReadBack.Statement (.fsi ign r1 imm) :=
  fun _ => ⟨readBack_imm (mk := .fsi ign) rfl, rfl, not_isShort rfl⟩
theorem Laws.FieldsReadBack.rfsr (ind : Bool) (r1 r2 : Reg) : Laws.FieldsReadBack.Statement (.rfsr ind r1 r2) :=
  fun _ => ⟨readBack_two (mk := .rfsr ind) rfl, rfl, fun _ => rfl⟩
theorem Laws.FieldsReadBack.rfs (r1 : Reg) (op : MemOperand) : Laws.FieldsReadBack.Statement (.rfs r1 op) :=
  fun h => ⟨readBack_mem (mk := .rfs) h rfl, rfl, not_isShort rfl⟩
theorem Laws.FieldsReadBack.rfsi (ign : Bool) (r1 : Reg) (imm : Imm) : Laws.FieldsReadBack.Statement (.rfsi ign r1 imm) :=
  fun _ => ⟨readBack_imm (mk := .rfsi ign) rfl, rfl, not_isShort rfl⟩
theorem Laws.FieldsReadBack.fmr (ind : Bool) (r1 r2 : Reg) : Laws.FieldsReadBack.Statement (.fmr ind r1 r2) :=
  fun _ => ⟨readBack_two (mk := .fmr ind) rfl, rfl, fun _ => rfl⟩
theorem Laws.FieldsReadBack.fm (r1 : Reg) (op : MemOperand) : Laws.FieldsReadBack.Statement (.fm r1 op) :=
  fun h => ⟨readBack_mem (mk := .fm) h rfl, rfl, not_isShort rfl⟩
theorem Laws.FieldsReadBack.fmi (ign : Bool) (r1 : Reg) (imm : Imm) : Laws.FieldsReadBack.Statement (.fmi ign r1 imm) :=
  fun _ => ⟨readBack_imm (mk := .fmi ign) rfl, rfl, not_isShort rfl⟩
theorem Laws.FieldsReadBack.fdr (ind : Bool) (r1 r2 : Reg) : Laws.FieldsReadBack.Statement (.fdr ind r1 r2) :=
  fun _ => ⟨readBack_two (mk := .fdr ind) rfl, rfl, fun _ => rfl⟩
theorem Laws.FieldsReadBack.fd (r1 : Reg) (op : MemOperand) : Laws.FieldsReadBack.Statement (.fd r1 op) :=
  fun h => ⟨readBack_mem (mk := .fd) h rfl, rfl, not_isShort rfl⟩
theorem Laws.FieldsReadBack.fdi (ign : Bool) (r1 : Reg) (imm : Imm) : Laws.FieldsReadBack.Statement (.fdi ign r1 imm) :=
  fun _ => ⟨readBack_imm (mk := .fdi ign) rfl, rfl, not_isShort rfl⟩
theorem Laws.FieldsReadBack.rfdr (ind : Bool) (r1 r2 : Reg) : Laws.FieldsReadBack.Statement (.rfdr ind r1 r2) :=
  fun _ => ⟨readBack_two (mk := .rfdr ind) rfl, rfl, fun _ => rfl⟩
theorem Laws.FieldsReadBack.rfd (r1 : Reg) (op : MemOperand) : Laws.FieldsReadBack.Statement (.rfd r1 op) :=
  fun h => ⟨readBack_mem (mk := .rfd) h rfl, rfl, not_isShort rfl⟩
theorem Laws.FieldsReadBack.rfdi (ign : Bool) (r1 : Reg) (imm : Imm) : Laws.FieldsReadBack.Statement (.rfdi ign r1 imm) :=
  fun _ => ⟨readBack_imm (mk := .rfdi ign) rfl, rfl, not_isShort rfl⟩
theorem Laws.FieldsReadBack.floatr (ind : Bool) (r1 r2 : Reg) : Laws.FieldsReadBack.Statement (.floatr ind r1 r2) :=
  fun _ => ⟨readBack_two (mk := .floatr ind) rfl, rfl, fun _ => rfl⟩
theorem Laws.FieldsReadBack.float (r1 : Reg) (op : MemOperand) : Laws.FieldsReadBack.Statement (.float r1 op) :=
  fun h => ⟨readBack_mem (mk := .float) h rfl, rfl, not_isShort rfl⟩
theorem Laws.FieldsReadBack.floati (ign : Bool) (r1 : Reg) (imm : Imm) : Laws.FieldsReadBack.Statement (.floati ign r1 imm) :=
  fun _ => ⟨readBack_imm (mk := .floati ign) rfl, rfl, not_isShort rfl⟩
theorem Laws.FieldsReadBack.fixr (ind : Bool) (r1 r2 : Reg) : Laws.FieldsReadBack.Statement (.fixr ind r1 r2) :=
  fun _ => ⟨readBack_two (mk := .fixr ind) rfl, rfl, fun _ => rfl⟩
theorem Laws.FieldsReadBack.fix (r1 : Reg) (op : MemOperand) : Laws.FieldsReadBack.Statement (.fix r1 op) :=
  fun h => ⟨readBack_mem (mk := .fix) h rfl, rfl, not_isShort rfl⟩
theorem Laws.FieldsReadBack.fixi (ign : Bool) (r1 : Reg) (imm : Imm) : Laws.FieldsReadBack.Statement (.fixi ign r1 imm) :=
  fun _ => ⟨readBack_imm (mk := .fixi ign) rfl, rfl, not_isShort rfl⟩
theorem Laws.FieldsReadBack.floor (r1 : Reg) (op : MemOperand) : Laws.FieldsReadBack.Statement (.floor r1 op) :=
  fun h => ⟨readBack_mem (mk := .floor) h rfl, rfl, not_isShort rfl⟩
theorem Laws.FieldsReadBack.ceil (r1 : Reg) (op : MemOperand) : Laws.FieldsReadBack.Statement (.ceil r1 op) :=
  fun h => ⟨readBack_mem (mk := .ceil) h rfl, rfl, not_isShort rfl⟩
theorem Laws.FieldsReadBack.min (r1 : Reg) (op : MemOperand) : Laws.FieldsReadBack.Statement (.min r1 op) :=
  fun h => ⟨readBack_mem (mk := .min) h rfl, rfl, not_isShort rfl⟩
theorem Laws.FieldsReadBack.max (r1 : Reg) (op : MemOperand) : Laws.FieldsReadBack.Statement (.max r1 op) :=
  fun h => ⟨readBack_mem (mk := .max) h rfl, rfl, not_isShort rfl⟩
theorem Laws.FieldsReadBack.shiftl (r1 : Reg) (op : MemOperand) : Laws.FieldsReadBack.Statement (.shiftl r1 op) :=
  fun h => ⟨readBack_mem (mk := .shiftl) h rfl, rfl, not_isShort rfl⟩
theorem Laws.FieldsReadBack.shiftc (r1 : Reg) (op : MemOperand) : Laws.FieldsReadBack.Statement (.shiftc r1 op) :=
  fun h => ⟨readBack_mem (mk := .shiftc) h rfl, rfl, not_isShort rfl⟩
theorem Laws.FieldsReadBack.shifta (r1 : Reg) (op : MemOperand) : Laws.FieldsReadBack.Statement (.shifta r1 op) :=
  fun h => ⟨readBack_mem (mk := .shifta) h rfl, rfl, not_isShort rfl⟩
theorem Laws.FieldsReadBack.shiftr (r1 : Reg) (op : MemOperand) : Laws.FieldsReadBack.Statement (.shiftr r1 op) :=
  fun h => ⟨readBack_mem (mk := .shiftr) h rfl, rfl, not_isShort rfl⟩

end Sys2Proof
end

