-- ==== Sys2Proof/Machine/Assembly.lean ====
section
/-! DEFINITION. The assembly form of each instruction (R68). The machine does not use it. What R68 leaves open is in log 18. -/

namespace Sys2Proof

/-- "the indirect bit is set by writing an asterisk" (R68). -/
def asterisk (ind : Bool) : String := if ind then "*" else ""

/-- `MNEMONIC, r1 r2` (R68). -/
def asmRR (mnemonic : String) (n1 : Nat) (ind : Bool) (r2 : Reg) : String :=
  mnemonic ++ ", " ++ n1.repr ++ " " ++ asterisk ind ++ r2.val.repr

/-- `MNEMONIC, r1 a, r2`, with the index register always written (R68, D28). -/
def asmRS (mnemonic : String) (n1 : Nat) (ind : Bool) (addr : Addr) (n2 : Nat) : String :=
  mnemonic ++ ", " ++ n1.repr ++ " " ++ asterisk ind ++ addr.toNat.repr ++ ", " ++ n2.repr

/-- The address fields of an RS or CH instruction in `asmRS`. -/
def asmMem (mnemonic : String) (n1 : Nat) (op : MemOperand) : String :=
  asmRS mnemonic n1 op.indirect op.addr (match op.index with | none => 0 | some r => r.val)

/-- `MNEMONIC, r1 i` (R68). -/
def asmIM (mnemonic : String) (r1 : Reg) (i : Int) : String :=
  mnemonic ++ ", " ++ r1.val.repr ++ " " ++ i.repr

/-- The statement of an instruction (R68): registers, masks and addresses in decimal; an immediate in decimal, signed where the
instruction reads a two's complement integer (R62), else the unsigned field. -/
def Instr.assembly : Instr → String
  | .lr ind r1 r2 => asmRR "LR" r1.val ind r2
  | .l r1 op => asmMem "L" r1.val op
  | .li _ r1 imm => asmIM "LI" r1 imm.toInt
  | .lc r1 op => asmMem "LC" r1.val op
  | .lnr ind r1 r2 => asmRR "LNR" r1.val ind r2
  | .ln r1 op => asmMem "LN" r1.val op
  | .lni _ r1 imm => asmIM "LNI" r1 imm.toInt
  | .lnc r1 op => asmMem "LNC" r1.val op
  | .str ind r1 r2 => asmRR "STR" r1.val ind r2
  | .st r1 op => asmMem "ST" r1.val op
  | .stc r1 op => asmMem "STC" r1.val op
  | .swapr ind r1 r2 => asmRR "SWAPR" r1.val ind r2
  | .swap r1 op => asmMem "SWAP" r1.val op
  | .swapc r1 op => asmMem "SWAPC" r1.val op
  | .andr ind r1 r2 => asmRR "ANDR" r1.val ind r2
  | .and r1 op => asmMem "AND" r1.val op
  | .andi _ r1 imm => asmIM "ANDI" r1 (imm.toNat : Int)
  | .andc r1 op => asmMem "ANDC" r1.val op
  | .orr ind r1 r2 => asmRR "ORR" r1.val ind r2
  | .or r1 op => asmMem "OR" r1.val op
  | .ori _ r1 imm => asmIM "ORI" r1 (imm.toNat : Int)
  | .orc r1 op => asmMem "ORC" r1.val op
  | .xorr ind r1 r2 => asmRR "XORR" r1.val ind r2
  | .xor r1 op => asmMem "XOR" r1.val op
  | .xori _ r1 imm => asmIM "XORI" r1 (imm.toNat : Int)
  | .xorc r1 op => asmMem "XORC" r1.val op
  | .notr ind r1 r2 => asmRR "NOTR" r1.val ind r2
  | .not r1 op => asmMem "NOT" r1.val op
  | .noti _ r1 imm => asmIM "NOTI" r1 (imm.toNat : Int)
  | .notc r1 op => asmMem "NOTC" r1.val op
  | .bcsr ind m1 r2 => asmRR "BCSR" m1.toNat ind r2
  | .bcs m1 op => asmMem "BCS" m1.toNat op
  | .bcrr ind m1 r2 => asmRR "BCRR" m1.toNat ind r2
  | .bcr m1 op => asmMem "BCR" m1.toNat op
  | .balr ind r1 r2 => asmRR "BALR" r1.val ind r2
  | .bal r1 op => asmMem "BAL" r1.val op
  | .sacr ind m1 r2 => asmRR "SACR" m1.toNat ind r2
  | .sac m1 op => asmMem "SAC" m1.toNat op
  | .sacc m1 op => asmMem "SACC" m1.toNat op
  | .cr ind r1 r2 => asmRR "CR" r1.val ind r2
  | .c r1 op => asmMem "C" r1.val op
  | .ci _ r1 imm => asmIM "CI" r1 imm.toInt
  | .cc r1 op => asmMem "CC" r1.val op
  | .ccs _ m1 r2 => asmRR "CCS" m1.toNat false r2
  | .mcs _ m1 r2 => asmRR "MCS" m1.toNat false r2
  | .svc r1 op => asmMem "SVC" r1.val op
  | .ex r1 op => asmMem "EX" r1.val op
  | .la r1 op => asmMem "LA" r1.val op
  | .lm ind r1 r2 addr => asmRS "LM" r1.val ind addr r2.val
  | .stm ind r1 r2 addr => asmRS "STM" r1.val ind addr r2.val
  | .ar ind r1 r2 => asmRR "AR" r1.val ind r2
  | .a r1 op => asmMem "A" r1.val op
  | .ai _ r1 imm => asmIM "AI" r1 imm.toInt
  | .ac r1 op => asmMem "AC" r1.val op
  | .sr ind r1 r2 => asmRR "SR" r1.val ind r2
  | .s r1 op => asmMem "S" r1.val op
  | .si _ r1 imm => asmIM "SI" r1 imm.toInt
  | .sc r1 op => asmMem "SC" r1.val op
  | .rsr ind r1 r2 => asmRR "RSR" r1.val ind r2
  | .rs r1 op => asmMem "RS" r1.val op
  | .rsi _ r1 imm => asmIM "RSI" r1 imm.toInt
  | .rsc r1 op => asmMem "RSC" r1.val op
  | .mr ind r1 r2 => asmRR "MR" r1.val ind r2
  | .m r1 op => asmMem "M" r1.val op
  | .mi _ r1 imm => asmIM "MI" r1 imm.toInt
  | .mc r1 op => asmMem "MC" r1.val op
  | .dr ind r1 r2 => asmRR "DR" r1.val ind r2
  | .d r1 op => asmMem "D" r1.val op
  | .di _ r1 imm => asmIM "DI" r1 imm.toInt
  | .dc r1 op => asmMem "DC" r1.val op
  | .rdr ind r1 r2 => asmRR "RDR" r1.val ind r2
  | .rd r1 op => asmMem "RD" r1.val op
  | .rdi _ r1 imm => asmIM "RDI" r1 imm.toInt
  | .rdc r1 op => asmMem "RDC" r1.val op
  | .remr ind r1 r2 => asmRR "REMR" r1.val ind r2
  | .rem r1 op => asmMem "REM" r1.val op
  | .remi _ r1 imm => asmIM "REMI" r1 imm.toInt
  | .remc r1 op => asmMem "REMC" r1.val op
  | .rremr ind r1 r2 => asmRR "RREMR" r1.val ind r2
  | .rrem r1 op => asmMem "RREM" r1.val op
  | .rremi _ r1 imm => asmIM "RREMI" r1 imm.toInt
  | .rremc r1 op => asmMem "RREMC" r1.val op
  | .far ind r1 r2 => asmRR "FAR" r1.val ind r2
  | .fa r1 op => asmMem "FA" r1.val op
  | .fai _ r1 imm => asmIM "FAI" r1 (imm.toNat : Int)
  | .fsr ind r1 r2 => asmRR "FSR" r1.val ind r2
  | .fs r1 op => asmMem "FS" r1.val op
  | .fsi _ r1 imm => asmIM "FSI" r1 (imm.toNat : Int)
  | .rfsr ind r1 r2 => asmRR "RFSR" r1.val ind r2
  | .rfs r1 op => asmMem "RFS" r1.val op
  | .rfsi _ r1 imm => asmIM "RFSI" r1 (imm.toNat : Int)
  | .fmr ind r1 r2 => asmRR "FMR" r1.val ind r2
  | .fm r1 op => asmMem "FM" r1.val op
  | .fmi _ r1 imm => asmIM "FMI" r1 (imm.toNat : Int)
  | .fdr ind r1 r2 => asmRR "FDR" r1.val ind r2
  | .fd r1 op => asmMem "FD" r1.val op
  | .fdi _ r1 imm => asmIM "FDI" r1 (imm.toNat : Int)
  | .rfdr ind r1 r2 => asmRR "RFDR" r1.val ind r2
  | .rfd r1 op => asmMem "RFD" r1.val op
  | .rfdi _ r1 imm => asmIM "RFDI" r1 (imm.toNat : Int)
  | .floatr ind r1 r2 => asmRR "FLOATR" r1.val ind r2
  | .float r1 op => asmMem "FLOAT" r1.val op
  | .floati _ r1 imm => asmIM "FLOATI" r1 imm.toInt
  | .fixr ind r1 r2 => asmRR "FIXR" r1.val ind r2
  | .fix r1 op => asmMem "FIX" r1.val op
  | .fixi _ r1 imm => asmIM "FIXI" r1 (imm.toNat : Int)
  | .floor r1 op => asmMem "FLOOR" r1.val op
  | .ceil r1 op => asmMem "CEIL" r1.val op
  | .min r1 op => asmMem "MIN" r1.val op
  | .max r1 op => asmMem "MAX" r1.val op
  | .shiftl r1 op => asmMem "SHIFTL" r1.val op
  | .shiftc r1 op => asmMem "SHIFTC" r1.val op
  | .shifta r1 op => asmMem "SHIFTA" r1.val op
  | .shiftr r1 op => asmMem "SHIFTR" r1.val op

end Sys2Proof
end

