-- ==== Sys2Proof/Tests/Slice0.lean ====
section
/-! SUPPORT. Tests on fixed values. Expected results are the spec's: the encodings of 30_encoding.md, the vectors of
95_test_vectors.md (the id is in each docstring), and for every statement of Certificates/Slice0/Obligations.lean with hypotheses
a witness that they can be met. -/

namespace Sys2Proof.Tests

open Sys2Proof.Machine

/-! ### Well-formedness: register 0 cannot be an index register (R11) -/

/-- An index designator that names register 0. -/
def indexZero : MemOperand := ⟨false, some 0, 0x0100⟩

/-- The check refuses it in every instruction with address fields. -/
theorem test_wf_refuses_index_zero :
    ([Instr.l 1 indexZero, .lc 1 indexZero, .ln 1 indexZero, .lnc 1 indexZero, .st 1 indexZero, .stc 1 indexZero, .swap 1 indexZero,
       .swapc 1 indexZero, .and 1 indexZero, .andc 1 indexZero, .or 1 indexZero, .orc 1 indexZero, .xor 1 indexZero,
       .xorc 1 indexZero, .not 1 indexZero, .notc 1 indexZero, .bcs 1 indexZero, .bcr 1 indexZero, .bal 1 indexZero,
       .sac 1 indexZero, .sacc 1 indexZero, .c 1 indexZero, .cc 1 indexZero, .svc 1 indexZero, .ex 1 indexZero, .la 1 indexZero,
       .a 1 indexZero, .ac 1 indexZero, .s 1 indexZero, .sc 1 indexZero, .rs 1 indexZero, .rsc 1 indexZero, .m 1 indexZero,
       .mc 1 indexZero, .d 1 indexZero, .dc 1 indexZero, .rd 1 indexZero, .rdc 1 indexZero, .rem 1 indexZero, .remc 1 indexZero,
       .rrem 1 indexZero, .rremc 1 indexZero, .fa 1 indexZero, .fs 1 indexZero, .rfs 1 indexZero, .fm 1 indexZero,
       .fd 1 indexZero, .rfd 1 indexZero, .float 1 indexZero, .fix 1 indexZero, .floor 1 indexZero, .ceil 1 indexZero,
       .min 1 indexZero, .max 1 indexZero, .shiftl 1 indexZero, .shiftc 1 indexZero, .shifta 1 indexZero, .shiftr 1 indexZero]
      |>.all (fun i => !i.wf)) = true := by
  decide

theorem test_wf_accepts :
    (Instr.ln 1 ⟨true, some 2, 0x0100⟩).wf = true ∧ (Instr.lm true 15 0 0xFFFF).wf = true ∧
    (Instr.l 0 ⟨false, none, 0⟩).wf = true := by
  decide

/-! ### Decoding: one word of every instruction, from its row of the opcode map (R65) and its format (R53 to R56) -/

/-- Do characters decode to an instruction, with nothing left over? -/
def decodesTo (bs : List Byte) (i : Instr) : Bool :=
  match decode bs with
  | .ok (j, rest) => j == i && rest == []
  | .error _ => false

theorem test_decode_load_store_swap :
    decodesTo [0x80, 0x3A] (.lr true 3 10) = true ∧
    decodesTo [0xA0, 0x3A, 0x01, 0x24] (.l 3 ⟨true, some 10, 0x0124⟩) = true ∧
    decodesTo [0xC0, 0x3A, 0x01, 0x24] (.li true 3 0xA0124) = true ∧
    decodesTo [0xE0, 0x3A, 0x01, 0x24] (.lc 3 ⟨true, some 10, 0x0124⟩) = true ∧
    decodesTo [0x81, 0x3A] (.lnr true 3 10) = true ∧
    decodesTo [0xA1, 0x3A, 0x01, 0x24] (.ln 3 ⟨true, some 10, 0x0124⟩) = true ∧
    decodesTo [0xC1, 0x3A, 0x01, 0x24] (.lni true 3 0xA0124) = true ∧
    decodesTo [0xE1, 0x3A, 0x01, 0x24] (.lnc 3 ⟨true, some 10, 0x0124⟩) = true ∧
    decodesTo [0x82, 0x3A] (.str true 3 10) = true ∧
    decodesTo [0xA2, 0x3A, 0x01, 0x24] (.st 3 ⟨true, some 10, 0x0124⟩) = true ∧
    decodesTo [0xE2, 0x3A, 0x01, 0x24] (.stc 3 ⟨true, some 10, 0x0124⟩) = true ∧
    decodesTo [0x83, 0x3A] (.swapr true 3 10) = true ∧
    decodesTo [0xA3, 0x3A, 0x01, 0x24] (.swap 3 ⟨true, some 10, 0x0124⟩) = true ∧
    decodesTo [0xE3, 0x3A, 0x01, 0x24] (.swapc 3 ⟨true, some 10, 0x0124⟩) = true := by
  decide

theorem test_decode_logical :
    decodesTo [0x84, 0x3A] (.andr true 3 10) = true ∧
    decodesTo [0xA4, 0x3A, 0x01, 0x24] (.and 3 ⟨true, some 10, 0x0124⟩) = true ∧
    decodesTo [0xC4, 0x3A, 0x01, 0x24] (.andi true 3 0xA0124) = true ∧
    decodesTo [0xE4, 0x3A, 0x01, 0x24] (.andc 3 ⟨true, some 10, 0x0124⟩) = true ∧
    decodesTo [0x85, 0x3A] (.orr true 3 10) = true ∧
    decodesTo [0xA5, 0x3A, 0x01, 0x24] (.or 3 ⟨true, some 10, 0x0124⟩) = true ∧
    decodesTo [0xC5, 0x3A, 0x01, 0x24] (.ori true 3 0xA0124) = true ∧
    decodesTo [0xE5, 0x3A, 0x01, 0x24] (.orc 3 ⟨true, some 10, 0x0124⟩) = true ∧
    decodesTo [0x86, 0x3A] (.xorr true 3 10) = true ∧
    decodesTo [0xA6, 0x3A, 0x01, 0x24] (.xor 3 ⟨true, some 10, 0x0124⟩) = true ∧
    decodesTo [0xC6, 0x3A, 0x01, 0x24] (.xori true 3 0xA0124) = true ∧
    decodesTo [0xE6, 0x3A, 0x01, 0x24] (.xorc 3 ⟨true, some 10, 0x0124⟩) = true ∧
    decodesTo [0x87, 0x3A] (.notr true 3 10) = true ∧
    decodesTo [0xA7, 0x3A, 0x01, 0x24] (.not 3 ⟨true, some 10, 0x0124⟩) = true ∧
    decodesTo [0xC7, 0x3A, 0x01, 0x24] (.noti true 3 0xA0124) = true ∧
    decodesTo [0xE7, 0x3A, 0x01, 0x24] (.notc 3 ⟨true, some 10, 0x0124⟩) = true := by
  decide

theorem test_decode_branch_and_condition :
    decodesTo [0x88, 0x3A] (.bcsr true 3 10) = true ∧
    decodesTo [0xA8, 0x3A, 0x01, 0x24] (.bcs 3 ⟨true, some 10, 0x0124⟩) = true ∧
    decodesTo [0x89, 0x3A] (.bcrr true 3 10) = true ∧
    decodesTo [0xA9, 0x3A, 0x01, 0x24] (.bcr 3 ⟨true, some 10, 0x0124⟩) = true ∧
    decodesTo [0x8A, 0x3A] (.balr true 3 10) = true ∧
    decodesTo [0xAA, 0x3A, 0x01, 0x24] (.bal 3 ⟨true, some 10, 0x0124⟩) = true ∧
    decodesTo [0x8B, 0x3A] (.sacr true 3 10) = true ∧
    decodesTo [0xAB, 0x3A, 0x01, 0x24] (.sac 3 ⟨true, some 10, 0x0124⟩) = true ∧
    decodesTo [0xEB, 0x3A, 0x01, 0x24] (.sacc 3 ⟨true, some 10, 0x0124⟩) = true := by
  decide

theorem test_decode_compare_and_string :
    decodesTo [0x8C, 0x3A] (.cr true 3 10) = true ∧
    decodesTo [0xAC, 0x3A, 0x01, 0x24] (.c 3 ⟨true, some 10, 0x0124⟩) = true ∧
    decodesTo [0xCC, 0x3A, 0x01, 0x24] (.ci true 3 0xA0124) = true ∧
    decodesTo [0xEC, 0x3A, 0x01, 0x24] (.cc 3 ⟨true, some 10, 0x0124⟩) = true ∧
    decodesTo [0x0E, 0x3A] (.ccs false 3 10) = true ∧
    decodesTo [0x0F, 0x3A] (.mcs false 3 10) = true := by
  decide

theorem test_decode_system_and_multiple :
    decodesTo [0xAE, 0x3A, 0x01, 0x24] (.svc 3 ⟨true, some 10, 0x0124⟩) = true ∧
    decodesTo [0xAF, 0x3A, 0x01, 0x24] (.ex 3 ⟨true, some 10, 0x0124⟩) = true ∧
    decodesTo [0xCE, 0x3A, 0x01, 0x24] (.la 3 ⟨true, some 10, 0x0124⟩) = true ∧
    decodesTo [0xEE, 0x3A, 0x01, 0x24] (.lm true 3 10 0x0124) = true ∧
    decodesTo [0xEF, 0x3A, 0x01, 0x24] (.stm true 3 10 0x0124) = true := by
  decide

theorem test_decode_add_subtract_multiply :
    decodesTo [0x90, 0x3A] (.ar true 3 10) = true ∧
    decodesTo [0xB0, 0x3A, 0x01, 0x24] (.a 3 ⟨true, some 10, 0x0124⟩) = true ∧
    decodesTo [0xD0, 0x3A, 0x01, 0x24] (.ai true 3 0xA0124) = true ∧
    decodesTo [0xF0, 0x3A, 0x01, 0x24] (.ac 3 ⟨true, some 10, 0x0124⟩) = true ∧
    decodesTo [0x91, 0x3A] (.sr true 3 10) = true ∧
    decodesTo [0xB1, 0x3A, 0x01, 0x24] (.s 3 ⟨true, some 10, 0x0124⟩) = true ∧
    decodesTo [0xD1, 0x3A, 0x01, 0x24] (.si true 3 0xA0124) = true ∧
    decodesTo [0xF1, 0x3A, 0x01, 0x24] (.sc 3 ⟨true, some 10, 0x0124⟩) = true ∧
    decodesTo [0x92, 0x3A] (.rsr true 3 10) = true ∧
    decodesTo [0xB2, 0x3A, 0x01, 0x24] (.rs 3 ⟨true, some 10, 0x0124⟩) = true ∧
    decodesTo [0xD2, 0x3A, 0x01, 0x24] (.rsi true 3 0xA0124) = true ∧
    decodesTo [0xF2, 0x3A, 0x01, 0x24] (.rsc 3 ⟨true, some 10, 0x0124⟩) = true ∧
    decodesTo [0x93, 0x3A] (.mr true 3 10) = true ∧
    decodesTo [0xB3, 0x3A, 0x01, 0x24] (.m 3 ⟨true, some 10, 0x0124⟩) = true ∧
    decodesTo [0xD3, 0x3A, 0x01, 0x24] (.mi true 3 0xA0124) = true ∧
    decodesTo [0xF3, 0x3A, 0x01, 0x24] (.mc 3 ⟨true, some 10, 0x0124⟩) = true := by
  decide

theorem test_decode_divide :
    decodesTo [0x94, 0x3A] (.dr true 3 10) = true ∧
    decodesTo [0xB4, 0x3A, 0x01, 0x24] (.d 3 ⟨true, some 10, 0x0124⟩) = true ∧
    decodesTo [0xD4, 0x3A, 0x01, 0x24] (.di true 3 0xA0124) = true ∧
    decodesTo [0xF4, 0x3A, 0x01, 0x24] (.dc 3 ⟨true, some 10, 0x0124⟩) = true ∧
    decodesTo [0x95, 0x3A] (.rdr true 3 10) = true ∧
    decodesTo [0xB5, 0x3A, 0x01, 0x24] (.rd 3 ⟨true, some 10, 0x0124⟩) = true ∧
    decodesTo [0xD5, 0x3A, 0x01, 0x24] (.rdi true 3 0xA0124) = true ∧
    decodesTo [0xF5, 0x3A, 0x01, 0x24] (.rdc 3 ⟨true, some 10, 0x0124⟩) = true ∧
    decodesTo [0x96, 0x3A] (.remr true 3 10) = true ∧
    decodesTo [0xB6, 0x3A, 0x01, 0x24] (.rem 3 ⟨true, some 10, 0x0124⟩) = true ∧
    decodesTo [0xD6, 0x3A, 0x01, 0x24] (.remi true 3 0xA0124) = true ∧
    decodesTo [0xF6, 0x3A, 0x01, 0x24] (.remc 3 ⟨true, some 10, 0x0124⟩) = true ∧
    decodesTo [0x97, 0x3A] (.rremr true 3 10) = true ∧
    decodesTo [0xB7, 0x3A, 0x01, 0x24] (.rrem 3 ⟨true, some 10, 0x0124⟩) = true ∧
    decodesTo [0xD7, 0x3A, 0x01, 0x24] (.rremi true 3 0xA0124) = true ∧
    decodesTo [0xF7, 0x3A, 0x01, 0x24] (.rremc 3 ⟨true, some 10, 0x0124⟩) = true := by
  decide

theorem test_decode_real :
    decodesTo [0x98, 0x3A] (.far true 3 10) = true ∧
    decodesTo [0xB8, 0x3A, 0x01, 0x24] (.fa 3 ⟨true, some 10, 0x0124⟩) = true ∧
    decodesTo [0xD8, 0x3A, 0x01, 0x24] (.fai true 3 0xA0124) = true ∧
    decodesTo [0x99, 0x3A] (.fsr true 3 10) = true ∧
    decodesTo [0xB9, 0x3A, 0x01, 0x24] (.fs 3 ⟨true, some 10, 0x0124⟩) = true ∧
    decodesTo [0xD9, 0x3A, 0x01, 0x24] (.fsi true 3 0xA0124) = true ∧
    decodesTo [0x9A, 0x3A] (.rfsr true 3 10) = true ∧
    decodesTo [0xBA, 0x3A, 0x01, 0x24] (.rfs 3 ⟨true, some 10, 0x0124⟩) = true ∧
    decodesTo [0xDA, 0x3A, 0x01, 0x24] (.rfsi true 3 0xA0124) = true ∧
    decodesTo [0x9B, 0x3A] (.fmr true 3 10) = true ∧
    decodesTo [0xBB, 0x3A, 0x01, 0x24] (.fm 3 ⟨true, some 10, 0x0124⟩) = true ∧
    decodesTo [0xDB, 0x3A, 0x01, 0x24] (.fmi true 3 0xA0124) = true ∧
    decodesTo [0x9C, 0x3A] (.fdr true 3 10) = true ∧
    decodesTo [0xBC, 0x3A, 0x01, 0x24] (.fd 3 ⟨true, some 10, 0x0124⟩) = true ∧
    decodesTo [0xDC, 0x3A, 0x01, 0x24] (.fdi true 3 0xA0124) = true ∧
    decodesTo [0x9D, 0x3A] (.rfdr true 3 10) = true ∧
    decodesTo [0xBD, 0x3A, 0x01, 0x24] (.rfd 3 ⟨true, some 10, 0x0124⟩) = true ∧
    decodesTo [0xDD, 0x3A, 0x01, 0x24] (.rfdi true 3 0xA0124) = true ∧
    decodesTo [0x9E, 0x3A] (.floatr true 3 10) = true ∧
    decodesTo [0xBE, 0x3A, 0x01, 0x24] (.float 3 ⟨true, some 10, 0x0124⟩) = true ∧
    decodesTo [0xDE, 0x3A, 0x01, 0x24] (.floati true 3 0xA0124) = true ∧
    decodesTo [0x9F, 0x3A] (.fixr true 3 10) = true ∧
    decodesTo [0xBF, 0x3A, 0x01, 0x24] (.fix 3 ⟨true, some 10, 0x0124⟩) = true ∧
    decodesTo [0xDF, 0x3A, 0x01, 0x24] (.fixi true 3 0xA0124) = true ∧
    decodesTo [0xF8, 0x3A, 0x01, 0x24] (.floor 3 ⟨true, some 10, 0x0124⟩) = true ∧
    decodesTo [0xF9, 0x3A, 0x01, 0x24] (.ceil 3 ⟨true, some 10, 0x0124⟩) = true := by
  decide

theorem test_decode_minmax_shift :
    decodesTo [0xFA, 0x3A, 0x01, 0x24] (.min 3 ⟨true, some 10, 0x0124⟩) = true ∧
    decodesTo [0xFB, 0x3A, 0x01, 0x24] (.max 3 ⟨true, some 10, 0x0124⟩) = true ∧
    decodesTo [0xFC, 0x3A, 0x01, 0x24] (.shiftl 3 ⟨true, some 10, 0x0124⟩) = true ∧
    decodesTo [0xFD, 0x3A, 0x01, 0x24] (.shiftc 3 ⟨true, some 10, 0x0124⟩) = true ∧
    decodesTo [0xFE, 0x3A, 0x01, 0x24] (.shifta 3 ⟨true, some 10, 0x0124⟩) = true ∧
    decodesTo [0xFF, 0x3A, 0x01, 0x24] (.shiftr 3 ⟨true, some 10, 0x0124⟩) = true := by
  decide

/-- The 14 unassigned opcodes decode to nothing, with the indirect bit 0 and 1 (R66). -/
theorem test_decode_unassigned :
    ([0x0D, 0x2D, 0x42, 0x43, 0x48, 0x49, 0x4A, 0x4B, 0x4D, 0x4F, 0x68, 0x69, 0x6A, 0x6D].all fun op : Nat =>
      (decodeTableWord 32 (op <<< 24)).isNone && (decodeTableWord 32 ((op + 0x80) <<< 24)).isNone) = true := by
  decide

/-- Words of the opcode table: the leftmost character of the 16 or 32 bits is the first. -/
theorem test_table_words :
    decodeTableWord 16 0x1821 = some (.far false 2 1) ∧ decodeTableWord 32 0xA1120200 = some (.ln 1 ⟨true, some 2, 0x0200⟩) ∧
    decodeTableWord 16 0x1112 = some (.sr false 1 2) ∧ decodeTableWord 32 0x403FFFFF = some (.li false 3 0xFFFFF) := by
  decide

/-! ### Assembly (R68) -/

/-- Statements that 95_test_vectors.md writes beside their encodings, and the source's `FAR, 2 1`. -/
theorem test_assembly :
    (Instr.ln 1 ⟨true, some 2, 512⟩).assembly = "LN, 1 *512, 2" ∧ (Instr.far false 2 1).assembly = "FAR, 2 1" ∧
    (Instr.li false 1 0x80000).assembly = "LI, 1 -524288" ∧ (Instr.lr true 1 2).assembly = "LR, 1 *2" ∧
    (Instr.bcrr true 0 14).assembly = "BCRR, 0 *14" ∧ (Instr.la 1 ⟨false, none, 65520⟩).assembly = "LA, 1 65520, 0" := by
  decide

/-! ### One cycle: the vectors of 95_test_vectors.md -/

/-- A running machine with an instruction at pc, a CCR, some registers and some characters of memory; all else zero. -/
def start (pc : Addr) (code : List Byte) (ccr : Ccr) (regs : List (Reg × Word)) (data : List (Addr × List Byte)) : State :=
  let s : State := regs.foldl (fun (s : State) r => s.setReg r.1 r.2) { State.reset with pc := pc, ccr := ccr }
  data.foldl (fun (s : State) d => s.putBytes d.1 d.2) (s.putBytes pc code)

/-- One step gives a next state with a property. -/
def runs (s : State) (p : State → Bool) : Bool :=
  match step s with
  | .next t => p t
  | .fault _ => false
  | .refused _ => false

/-- V17, V18 -/
theorem test_LR :
    runs (start 0x0100 [0x00, 0x12] .empty [(2, 0xDEADBEEF)] [])
      (fun t => t.reg 1 == 0xDEADBEEF && t.ccr == .onlyL && t.pc == 0x0102) = true ∧
    runs (start 0x0100 [0x80, 0x12] .empty [(2, 0xFFFF0200)] [(0x0200, [0x00, 0x00, 0x00, 0x07])])
      (fun t => t.reg 1 == 0x00000007 && t.ccr == .onlyG && t.pc == 0x0102) = true := by
  decide

/-- V11, V13 -/
theorem test_L :
    runs (start 0x0100 [0x20, 0x10, 0x02, 0x00] .empty [] [(0x0200, [0x80, 0x00, 0x00, 0x01])])
      (fun t => t.reg 1 == 0x80000001 && t.ccr == .onlyL && t.pc == 0x0104) = true ∧
    runs (start 0x0100 [0x20, 0x12, 0x02, 0x00] .empty [(2, 0x00000001)] [(0x0200, [0x80, 0x00, 0x00, 0x01])])
      (fun t => t.ccr == .empty && t.pc == 0x0100 && t.outcome == .fault (.wordAddressing 0x0201) 0x0100) = true := by
  decide

/-- V21, V22 -/
theorem test_LI :
    runs (start 0x0100 [0x40, 0x1F, 0xFF, 0xFF] .empty [] [])
      (fun t => t.reg 1 == 0xFFFFFFFF && t.ccr == .onlyL && t.pc == 0x0104) = true ∧
    runs (start 0xFFFE [0x40, 0x10, 0x00, 0x07] .empty [] [(0x0000, [0x00, 0x07])])
      (fun t => t.reg 1 == 0x00000007 && t.ccr == .onlyG && t.pc == 0x0002) = true := by
  decide

/-- V32, V16 -/
theorem test_LC :
    runs (start 0x0100 [0x60, 0x10, 0x02, 0x00] .empty [] [(0x0200, [0xFF])])
      (fun t => t.reg 1 == 0x000000FF && t.ccr == .onlyG && t.pc == 0x0104) = true ∧
    runs (start 0x0100 [0x60, 0x10, 0xFF, 0xFF] .empty [] [(0xFFFC, [0x0A, 0x0B, 0x0C, 0x0D])])
      (fun t => t.reg 1 == 0x0000000D && t.ccr == .onlyG && t.pc == 0x0104) = true := by
  decide

/-- V28, V26 -/
theorem test_LNR :
    runs (start 0x0100 [0x01, 0x12] .empty [(2, 0x80000000)] [])
      (fun t => t.reg 1 == 0x80000000 && t.ccr == .onlyO && t.pc == 0x0102) = true ∧
    runs (start 0x0100 [0x01, 0x12] .empty [(2, 0x00000005)] [])
      (fun t => t.reg 1 == 0xFFFFFFFB && t.ccr == .onlyL && t.pc == 0x0102) = true := by
  decide

/-- V29 -/
theorem test_LN :
    runs (start 0x0100 [0x21, 0x10, 0x02, 0x00] .empty [] [(0x0200, [0xFF, 0xFF, 0xFF, 0xFF])])
      (fun t => t.reg 1 == 0x00000001 && t.ccr == .onlyG && t.pc == 0x0104) = true := by
  decide

/-- V30 -/
theorem test_LNI :
    runs (start 0x0100 [0x41, 0x18, 0x00, 0x00] .empty [] [])
      (fun t => t.reg 1 == 0x00080000 && t.ccr == .onlyG && t.pc == 0x0104) = true := by
  decide

/-- V33, V34 -/
theorem test_LNC :
    runs (start 0x0100 [0x61, 0x10, 0x02, 0x00] .empty [] [(0x0200, [0xFF])])
      (fun t => t.reg 1 == 0xFFFFFF01 && t.ccr == .onlyL && t.pc == 0x0104) = true ∧
    runs (start 0x0100 [0x61, 0x10, 0x02, 0x00] .empty [(1, 0x00000007)] [])
      (fun t => t.reg 1 == 0x00000000 && t.ccr == .onlyE && t.pc == 0x0104) = true := by
  decide

/-- V35, V36 -/
theorem test_STR :
    runs (start 0x0100 [0x02, 0x12] .empty [(1, 0x80000000), (2, 0x00000001)] [])
      (fun t => t.reg 2 == 0x80000000 && t.ccr == .onlyL && t.pc == 0x0102) = true ∧
    runs (start 0x0100 [0x82, 0x12] .empty [(1, 0x01020304), (2, 0x00000200)] [])
      (fun t => t.byteAt 0x0200 == 0x01 && t.byteAt 0x0201 == 0x02 && t.byteAt 0x0202 == 0x03 &&
        t.byteAt 0x0203 == 0x04 && t.ccr == .onlyG && t.pc == 0x0102) = true := by
  decide

/-- V37, V38 -/
theorem test_ST :
    runs (start 0x0100 [0x22, 0x10, 0x02, 0x00] .empty [(1, 0xFFFFFFFE)] [])
      (fun t => t.byteAt 0x0200 == 0xFF && t.byteAt 0x0201 == 0xFF && t.byteAt 0x0202 == 0xFF &&
        t.byteAt 0x0203 == 0xFE && t.ccr == .onlyL && t.pc == 0x0104) = true ∧
    runs (start 0x0100 [0x22, 0x10, 0x02, 0x01] .empty [(1, 0xFFFFFFFE)] [])
      (fun t => t.ccr == .empty && t.pc == 0x0100 && t.outcome == .fault (.wordAddressing 0x0201) 0x0100) = true := by
  decide

/-- V39 -/
theorem test_STC :
    runs (start 0x0100 [0x62, 0x10, 0x02, 0x01] .empty [(1, 0xFFFFFF00)] [(0x0200, [0x11, 0x11, 0x11, 0x11])])
      (fun t => t.byteAt 0x0201 == 0x00 && t.ccr == .onlyE && t.pc == 0x0104) = true := by
  decide

/-- V40, V42 -/
theorem test_SWAPR :
    runs (start 0x0100 [0x03, 0x12] .empty [(1, 0x00000001), (2, 0xFFFFFFFF)] [])
      (fun t => t.reg 1 == 0xFFFFFFFF && t.reg 2 == 0x00000001 && t.ccr == .onlyL && t.pc == 0x0102) = true ∧
    runs (start 0x0100 [0x83, 0x12] .empty [(1, 0xAAAAAAAA), (2, 0x00000200)] [(0x0200, [0x00, 0x00, 0x00, 0x01])])
      (fun t => t.reg 1 == 0x00000001 && t.byteAt 0x0200 == 0xAA && t.byteAt 0x0201 == 0xAA &&
        t.byteAt 0x0202 == 0xAA && t.byteAt 0x0203 == 0xAA && t.ccr == .onlyG && t.pc == 0x0102) = true := by
  decide

/-- V43 -/
theorem test_SWAP :
    runs (start 0x0100 [0x23, 0x10, 0x02, 0x00] .empty [(1, 0x00000005)] [(0x0200, [0x80, 0x00, 0x00, 0x00])])
      (fun t => t.reg 1 == 0x80000000 && t.byteAt 0x0200 == 0x00 && t.byteAt 0x0201 == 0x00 &&
        t.byteAt 0x0202 == 0x00 && t.byteAt 0x0203 == 0x05 && t.ccr == .onlyL && t.pc == 0x0104) = true := by
  decide

/-- V44 -/
theorem test_SWAPC :
    runs (start 0x0100 [0x63, 0x10, 0x02, 0x00] .empty [(1, 0x123456AB)] [(0x0200, [0x00])])
      (fun t => t.reg 1 == 0x12345600 && t.byteAt 0x0200 == 0xAB && t.ccr == .onlyE && t.pc == 0x0104) = true := by
  decide

/-- V45, V47 -/
theorem test_ANDR :
    runs (start 0x0100 [0x04, 0x12] .empty [(1, 0xF0F0F0F0), (2, 0x0F0F0F0F)] [])
      (fun t => t.reg 1 == 0x00000000 && t.ccr == .onlyE && t.pc == 0x0102) = true ∧
    runs (start 0x0100 [0x04, 0x12] .empty [(1, 0xFFFF0000), (2, 0x0FF00FF0)] [])
      (fun t => t.reg 1 == 0x0FF00000 && t.ccr == .onlyL && t.pc == 0x0102) = true := by
  decide

/-- V48 -/
theorem test_AND :
    runs (start 0x0100 [0x24, 0x10, 0x02, 0x00] .empty [(1, 0xFFFFFFFF)] [(0x0200, [0x00, 0x00, 0xFF, 0xFF])])
      (fun t => t.reg 1 == 0x0000FFFF && t.ccr == .onlyL && t.pc == 0x0104) = true := by
  decide

/-- V49 -/
theorem test_ANDI :
    runs (start 0x0100 [0x44, 0x1F, 0xFF, 0xFF] .empty [(1, 0xFFFFFFFF)] [])
      (fun t => t.reg 1 == 0x000FFFFF && t.ccr == .onlyL && t.pc == 0x0104) = true := by
  decide

/-- V57 -/
theorem test_ANDC :
    runs (start 0x0100 [0x64, 0x10, 0x02, 0x00] .empty [(1, 0xFFFFFFF0)] [(0x0200, [0x0F])])
      (fun t => t.reg 1 == 0xFFFFFF00 && t.ccr == .onlyE && t.pc == 0x0104) = true := by
  decide

/-- V51 -/
theorem test_ORR :
    runs (start 0x0100 [0x05, 0x12] .empty [] [])
      (fun t => t.ccr == .onlyE && t.pc == 0x0102) = true := by
  decide

/-- V50 -/
theorem test_ORI :
    runs (start 0x0100 [0x45, 0x1F, 0xFF, 0xFF] .empty [(1, 0xFFF00000)] [])
      (fun t => t.reg 1 == 0xFFFFFFFF && t.ccr == .onlyG && t.pc == 0x0104) = true := by
  decide

/-- V58 -/
theorem test_ORC :
    runs (start 0x0100 [0x65, 0x10, 0x02, 0x00] .empty [(1, 0x000000F0)] [(0x0200, [0x0F])])
      (fun t => t.reg 1 == 0x000000FF && t.ccr == .onlyG && t.pc == 0x0104) = true := by
  decide

/-- V52 -/
theorem test_XORR :
    runs (start 0x0100 [0x06, 0x11] .empty [(1, 0x12345678)] [])
      (fun t => t.reg 1 == 0x00000000 && t.ccr == .onlyE && t.pc == 0x0102) = true := by
  decide

/-- V53 -/
theorem test_XORI :
    runs (start 0x0100 [0x46, 0x10, 0x00, 0x01] .empty [(1, 0xFFFFFFFE)] [])
      (fun t => t.reg 1 == 0xFFFFFFFF && t.ccr == .onlyG && t.pc == 0x0104) = true := by
  decide

/-- V59 -/
theorem test_XORC :
    runs (start 0x0100 [0x66, 0x10, 0x02, 0x00] .empty [(1, 0xABCDEF55)] [(0x0200, [0x0F])])
      (fun t => t.reg 1 == 0xABCDEF5A && t.ccr == .onlyL && t.pc == 0x0104) = true := by
  decide

/-- V54 -/
theorem test_NOTR :
    runs (start 0x0100 [0x07, 0x12] .empty [(2, 0x00000000)] [])
      (fun t => t.reg 1 == 0xFFFFFFFF && t.ccr == .onlyG && t.pc == 0x0102) = true := by
  decide

/-- V56 -/
theorem test_NOT :
    runs (start 0x0100 [0x27, 0x10, 0x02, 0x00] .empty [(1, 0x00000005)] [(0x0200, [0xFF, 0xFF, 0xFF, 0xFF])])
      (fun t => t.reg 1 == 0x00000000 && t.ccr == .onlyE && t.pc == 0x0104) = true := by
  decide

/-- V55 -/
theorem test_NOTI :
    runs (start 0x0100 [0x47, 0x1F, 0xFF, 0xFF] .empty [] [])
      (fun t => t.reg 1 == 0xFFF00000 && t.ccr == .onlyL && t.pc == 0x0104) = true := by
  decide

/-- V60 -/
theorem test_NOTC :
    runs (start 0x0100 [0x67, 0x10, 0x02, 0x00] .empty [(1, 0xABCDEF55)] [(0x0200, [0xFF])])
      (fun t => t.reg 1 == 0xABCDEF00 && t.ccr == .onlyE && t.pc == 0x0104) = true := by
  decide

/-- V73, V74 -/
theorem test_BCSR :
    runs (start 0x0100 [0x88, 0x12] .onlyE [(2, 0xFFFF0300)] [])
      (fun t => t.ccr == .onlyE && t.pc == 0x0300) = true ∧
    runs (start 0x0100 [0x08, 0x12] .onlyE [(2, 0x00000300)] [])
      (fun t => t.ccr == .onlyE && t.pc == 0x0008) = true := by
  decide

/-- V66, V78 -/
theorem test_BCS :
    runs (start 0x0100 [0x28, 0x60, 0x02, 0x00] .onlyL [] [])
      (fun t => t.ccr == .onlyL && t.pc == 0x0200) = true ∧
    runs (start 0x0100 [0xA8, 0x00, 0x02, 0x01] .empty [] [])
      (fun t => t.ccr == .empty && t.pc == 0x0100 && t.outcome == .fault (.indirectAddress 0x0201) 0x0100) = true := by
  decide

/-- V75 -/
theorem test_BCRR :
    runs (start 0x0100 [0x89, 0x0E] .onlyG [(14, 0x00000120)] [])
      (fun t => t.ccr == .onlyG && t.pc == 0x0120) = true := by
  decide

/-- V71, V69 -/
theorem test_BCR :
    runs (start 0x0100 [0x29, 0x40, 0x02, 0x00] .onlyG [] [])
      (fun t => t.ccr == .onlyG && t.pc == 0x0104) = true ∧
    runs (start 0x0100 [0x29, 0x00, 0x02, 0x00] ⟨true, false, false, true⟩ [] [])
      (fun t => t.ccr == ⟨true, false, false, true⟩ && t.pc == 0x0200) = true := by
  decide

/-- V82, V83 -/
theorem test_BALR :
    runs (start 0x0100 [0x0A, 0xE3] .empty [(3, 0x00000400)] [])
      (fun t => t.reg 14 == 0x00000102 && t.ccr == .empty && t.pc == 0x000C) = true ∧
    runs (start 0x0100 [0x8A, 0x33] .empty [(3, 0x00000400)] [])
      (fun t => t.reg 3 == 0x00000102 && t.ccr == .empty && t.pc == 0x0400) = true := by
  decide

/-- V79, V80 -/
theorem test_BAL :
    runs (start 0x0100 [0x2A, 0xE0, 0x03, 0x00] .onlyL [(14, 0xFFFFFFFF)] [])
      (fun t => t.reg 14 == 0x00000104 && t.ccr == .onlyL && t.pc == 0x0300) = true ∧
    runs (start 0x0100 [0x2A, 0x22, 0x03, 0x00] .empty [(2, 0x00000010)] [])
      (fun t => t.reg 2 == 0x00000104 && t.ccr == .empty && t.pc == 0x0310) = true := by
  decide

/-- V86, V88 -/
theorem test_SACR :
    runs (start 0x0100 [0x0B, 0x42] .onlyG [(2, 0x12345678)] [])
      (fun t => t.reg 2 == 0xFFFFFFFF && t.ccr == .onlyG && t.pc == 0x0102) = true ∧
    runs (start 0x0100 [0x8B, 0x12] .onlyE [(2, 0x00000200)] [])
      (fun t => t.byteAt 0x0200 == 0xFF && t.byteAt 0x0201 == 0xFF && t.byteAt 0x0202 == 0xFF &&
        t.byteAt 0x0203 == 0xFF && t.ccr == .onlyE && t.pc == 0x0102) = true := by
  decide

/-- V89, V90 -/
theorem test_SAC :
    runs (start 0x0100 [0x2B, 0x80, 0x02, 0x00] ⟨true, false, false, true⟩ [] [(0x0200, [0x11, 0x11, 0x11, 0x11])])
      (fun t => t.byteAt 0x0200 == 0xFF && t.byteAt 0x0201 == 0xFF && t.byteAt 0x0202 == 0xFF &&
        t.byteAt 0x0203 == 0xFF && t.ccr == ⟨true, false, false, true⟩ && t.pc == 0x0104) = true ∧
    runs (start 0x0100 [0x2B, 0x80, 0x02, 0x02] .onlyO [] [])
      (fun t => t.ccr == .onlyO && t.pc == 0x0100 && t.outcome == .fault (.wordAddressing 0x0202) 0x0100) = true := by
  decide

/-- V91, V92 -/
theorem test_SACC :
    runs (start 0x0100 [0x6B, 0x20, 0x02, 0x01] .onlyL [] [(0x0200, [0x11, 0x11, 0x11, 0x11])])
      (fun t => t.byteAt 0x0201 == 0xFF && t.ccr == .onlyL && t.pc == 0x0104) = true ∧
    runs (start 0x0100 [0x6B, 0x20, 0x02, 0x01] .onlyG [] [(0x0200, [0x11, 0x11, 0x11, 0x11])])
      (fun t => t.byteAt 0x0201 == 0x00 && t.ccr == .onlyG && t.pc == 0x0104) = true := by
  decide

/-- V94, V95 -/
theorem test_CR :
    runs (start 0x0100 [0x0C, 0x12] .empty [(1, 0x80000000), (2, 0x00000001)] [])
      (fun t => t.ccr == .onlyL && t.pc == 0x0102) = true ∧
    runs (start 0x0100 [0x0C, 0x11] .onlyO [(1, 0x00000007)] [])
      (fun t => t.ccr == .onlyE && t.pc == 0x0102) = true := by
  decide

/-- V96 -/
theorem test_C :
    runs (start 0x0100 [0x2C, 0x10, 0x02, 0x00] .empty [(1, 0x00000001)] [(0x0200, [0xFF, 0xFF, 0xFF, 0xFF])])
      (fun t => t.ccr == .onlyG && t.pc == 0x0104) = true := by
  decide

/-- V97 -/
theorem test_CI :
    runs (start 0x0100 [0x4C, 0x1F, 0xFF, 0xFE] .empty [(1, 0xFFFFFFFE)] [])
      (fun t => t.ccr == .onlyE && t.pc == 0x0104) = true := by
  decide

/-- V98, V99 -/
theorem test_CC :
    runs (start 0x0100 [0x6C, 0x10, 0x02, 0x00] .empty [(1, 0xFFFFFF80)] [(0x0200, [0x7F])])
      (fun t => t.ccr == .onlyG && t.pc == 0x0104) = true ∧
    runs (start 0x0100 [0x6C, 0x10, 0x02, 0x00] .empty [(1, 0x00000000)] [(0x0200, [0x01])])
      (fun t => t.ccr == .onlyL && t.pc == 0x0104) = true := by
  decide

/-- V101, V104 -/
theorem test_CCS :
    runs (start 0x0100 [0x0E, 0x12] .empty [(2, 0x00000200), (3, 0x00030300)] [(0x0200, [0x42]), (0x0300, [0x41])])
      (fun t => t.ccr == .onlyG && t.pc == 0x0102) = true ∧
    runs (start 0x0100 [0x0E, 0xF2] .empty [(2, 0x00000202), (3, 0x00030300)] [(0x0200, [0x03, 0x02, 0x01]),
  (0x0300, [0x01, 0x02, 0x03])])
      (fun t => t.reg 2 == 0x000001FF && t.reg 3 == 0x00000303 && t.ccr == .onlyE && t.pc == 0x0102) = true := by
  decide

/-- V112, V114 -/
theorem test_MCS :
    runs (start 0x0100 [0x0F, 0x14] .empty [(4, 0x00000200),
  (5, 0x00040201)] [(0x0200, [0x58, 0x01, 0x02, 0x03, 0x04])])
      (fun t => t.reg 4 == 0x00000204 && t.reg 5 == 0x00000205 && t.byteAt 0x0201 == 0x58 &&
        t.byteAt 0x0202 == 0x58 && t.byteAt 0x0203 == 0x58 && t.byteAt 0x0204 == 0x58 && t.ccr == .empty &&
        t.pc == 0x0102) = true ∧
    runs (start 0x0100 [0x0F, 0x14] .empty [(4, 0x00000200), (5, 0x0002FFFF)] [(0x0200, [0x77, 0x88])])
      (fun t => t.reg 4 == 0x00000202 && t.reg 5 == 0x00000001 && t.byteAt 0x0000 == 0x88 &&
        t.byteAt 0xFFFF == 0x77 && t.ccr == .empty && t.pc == 0x0102) = true := by
  decide

/-- V115, V116 -/
theorem test_SVC :
    runs (start 0x0100 [0x2E, 0x32, 0x00, 0x10] .onlyG [(2, 0x00000004)] [])
      (fun t => t.ccr == .onlyG && t.pc == 0x0104 && t.outcome == .supervisorCall 0x0100 3 0x0014) = true ∧
    runs (start 0x0100 [0xAE, 0x00, 0x00, 0x11] .empty [] [])
      (fun t => t.ccr == .empty && t.pc == 0x0100 && t.outcome == .fault (.indirectAddress 0x0011) 0x0100) = true := by
  decide

/-- V121, V124 -/
theorem test_EX :
    runs (start 0x0100 [0x2F, 0x00, 0x02, 0x00] .empty [] [(0x0200, [0x2F, 0x00, 0x02, 0x04, 0x40, 0x7F, 0xFF,
  0xFD])])
      (fun t => t.reg 7 == 0xFFFFFFFD && t.ccr == .onlyL && t.pc == 0x0104) = true ∧
    runs (start 0x0100 [0x2F, 0x00, 0x02, 0x00] .empty [] [(0x0200, [0x0D, 0x00])])
      (fun t => t.ccr == .empty && t.pc == 0x0100 &&
        t.outcome == .fault (.unimplementedInstruction 0x0200 0x0D) 0x0100) = true := by
  decide

/-- V8, V127 -/
theorem test_LA :
    runs (start 0x0100 [0xCE, 0x12, 0x02, 0x00] .empty [(2, 0x00000004)] [(0x0200, [0x12, 0x34])])
      (fun t => t.reg 1 == 0x00001238 && t.ccr == .empty && t.pc == 0x0104) = true ∧
    runs (start 0x0100 [0x4E, 0x10, 0xFF, 0xFF] .onlyO [] [])
      (fun t => t.reg 1 == 0x0000FFFF && t.ccr == .onlyO && t.pc == 0x0104) = true := by
  decide

/-- V134, V136 -/
theorem test_STM :
    runs (start 0x0100 [0x6F, 0xF0, 0x02, 0x00] .onlyE [(0, 0x00000010), (15, 0x0000000F)] [])
      (fun t => t.byteAt 0x0200 == 0x00 && t.byteAt 0x0201 == 0x00 && t.byteAt 0x0202 == 0x00 &&
        t.byteAt 0x0203 == 0x0F && t.byteAt 0x0204 == 0x00 && t.byteAt 0x0205 == 0x00 &&
        t.byteAt 0x0206 == 0x00 && t.byteAt 0x0207 == 0x10 && t.ccr == .onlyE && t.pc == 0x0104) = true ∧
    runs (start 0x0100 [0x6F, 0x12, 0x02, 0x01] .empty [(1, 0x00000001), (2, 0x00000002)] [])
      (fun t => t.ccr == .empty && t.pc == 0x0100 && t.outcome == .fault (.wordAddressing 0x0201) 0x0100) = true := by
  decide

/-- V138, V139 -/
theorem test_AR :
    runs (start 0x0100 [0x10, 0x12] .empty [(1, 0x7FFFFFFF), (2, 0x00000001)] [])
      (fun t => t.reg 1 == 0x80000000 && t.ccr == .onlyO && t.pc == 0x0102) = true ∧
    runs (start 0x0100 [0x10, 0x12] .empty [(1, 0x80000000), (2, 0xFFFFFFFF)] [])
      (fun t => t.reg 1 == 0x7FFFFFFF && t.ccr == .onlyO && t.pc == 0x0102) = true := by
  decide

/-- V142 -/
theorem test_A :
    runs (start 0x0100 [0x30, 0x10, 0x02, 0x00] .empty [(1, 0x00000001)] [(0x0200, [0xFF, 0xFF, 0xFF, 0xFE])])
      (fun t => t.reg 1 == 0xFFFFFFFF && t.ccr == .onlyL && t.pc == 0x0104) = true := by
  decide

/-- V143 -/
theorem test_AI :
    runs (start 0x0100 [0x50, 0x1F, 0xFF, 0xFF] .empty [(1, 0x00000000)] [])
      (fun t => t.reg 1 == 0xFFFFFFFF && t.ccr == .onlyL && t.pc == 0x0104) = true := by
  decide

/-- V144 -/
theorem test_AC :
    runs (start 0x0100 [0x70, 0x10, 0x02, 0x00] .empty [(1, 0xFFFFFF01)] [(0x0200, [0xFF])])
      (fun t => t.reg 1 == 0x00000000 && t.ccr == .onlyE && t.pc == 0x0104) = true := by
  decide

/-- V146, V145 -/
theorem test_SR :
    runs (start 0x0100 [0x11, 0x12] .empty [(1, 0x80000000), (2, 0x00000001)] [])
      (fun t => t.reg 1 == 0x7FFFFFFF && t.ccr == .onlyO && t.pc == 0x0102) = true ∧
    runs (start 0x0100 [0x11, 0x12] .empty [(1, 0x00000003), (2, 0x00000005)] [])
      (fun t => t.reg 1 == 0xFFFFFFFE && t.ccr == .onlyL && t.pc == 0x0102) = true := by
  decide

/-- V148 -/
theorem test_S :
    runs (start 0x0100 [0x31, 0x10, 0x02, 0x00] .empty [(1, 0x0000000A)] [(0x0200, [0x00, 0x00, 0x00, 0x0A])])
      (fun t => t.reg 1 == 0x00000000 && t.ccr == .onlyE && t.pc == 0x0104) = true := by
  decide

/-- V149, V150 -/
theorem test_SI :
    runs (start 0x0100 [0x51, 0x10, 0x00, 0x01] .empty [(1, 0x00000001)] [])
      (fun t => t.reg 1 == 0x00000000 && t.ccr == .onlyE && t.pc == 0x0104) = true ∧
    runs (start 0x0100 [0x51, 0x18, 0x00, 0x00] .empty [(1, 0x7FFFFFFF)] [])
      (fun t => t.reg 1 == 0x8007FFFF && t.ccr == .onlyO && t.pc == 0x0104) = true := by
  decide

/-- V151 -/
theorem test_SC :
    runs (start 0x0100 [0x71, 0x10, 0x02, 0x00] .empty [(1, 0x00000000)] [(0x0200, [0x01])])
      (fun t => t.reg 1 == 0xFFFFFFFF && t.ccr == .onlyL && t.pc == 0x0104) = true := by
  decide

/-- V152, V153 -/
theorem test_RSR :
    runs (start 0x0100 [0x12, 0x12] .empty [(1, 0x00000003), (2, 0x00000005)] [])
      (fun t => t.reg 1 == 0x00000002 && t.ccr == .onlyG && t.pc == 0x0102) = true ∧
    runs (start 0x0100 [0x12, 0x12] .empty [(1, 0x80000000), (2, 0x00000000)] [])
      (fun t => t.ccr == .onlyO && t.pc == 0x0102) = true := by
  decide

/-- V154 -/
theorem test_RS :
    runs (start 0x0100 [0x32, 0x10, 0x02, 0x00] .empty [(1, 0x00000001)] [(0x0200, [0x00, 0x00, 0x00, 0x00])])
      (fun t => t.reg 1 == 0xFFFFFFFF && t.ccr == .onlyL && t.pc == 0x0104) = true := by
  decide

/-- V155 -/
theorem test_RSI :
    runs (start 0x0100 [0x52, 0x10, 0x00, 0x00] .empty [(1, 0x00000007)] [])
      (fun t => t.reg 1 == 0xFFFFFFF9 && t.ccr == .onlyL && t.pc == 0x0104) = true := by
  decide

/-- V156 -/
theorem test_RSC :
    runs (start 0x0100 [0x72, 0x10, 0x02, 0x00] .empty [(1, 0x00000100)] [(0x0200, [0xFF])])
      (fun t => t.reg 1 == 0xFFFFFFFF && t.ccr == .onlyL && t.pc == 0x0104) = true := by
  decide

/-- V157, V159 -/
theorem test_MR :
    runs (start 0x0100 [0x13, 0x12] .empty [(1, 0x00000006), (2, 0xFFFFFFF9)] [])
      (fun t => t.reg 1 == 0xFFFFFFD6 && t.ccr == .onlyL && t.pc == 0x0102) = true ∧
    runs (start 0x0100 [0x13, 0x12] .empty [(1, 0x80000000), (2, 0xFFFFFFFF)] [])
      (fun t => t.ccr == .onlyO && t.pc == 0x0102) = true := by
  decide

/-- V161 -/
theorem test_M :
    runs (start 0x0100 [0x33, 0x10, 0x02, 0x00] .empty [(1, 0x12345678)] [(0x0200, [0x00, 0x00, 0x00, 0x00])])
      (fun t => t.reg 1 == 0x00000000 && t.ccr == .onlyE && t.pc == 0x0104) = true := by
  decide

/-- V162, V163 -/
theorem test_MI :
    runs (start 0x0100 [0x53, 0x18, 0x00, 0x00] .empty [(1, 0x00001000)] [])
      (fun t => t.reg 1 == 0x80000000 && t.ccr == .onlyL && t.pc == 0x0104) = true ∧
    runs (start 0x0100 [0x53, 0x18, 0x00, 0x00] .empty [(1, 0x00001001)] [])
      (fun t => t.reg 1 == 0x7FF80000 && t.ccr == .onlyO && t.pc == 0x0104) = true := by
  decide

/-- V164 -/
theorem test_MC :
    runs (start 0x0100 [0x73, 0x10, 0x02, 0x00] .empty [(1, 0xFFFFFFFF)] [(0x0200, [0xFF])])
      (fun t => t.reg 1 == 0xFFFFFF01 && t.ccr == .onlyL && t.pc == 0x0104) = true := by
  decide

/-- V167, V182 -/
theorem test_DR :
    runs (start 0x0100 [0x14, 0x12] .empty [(1, 0x00000007), (2, 0xFFFFFFFE)] [])
      (fun t => t.reg 1 == 0xFFFFFFFD && t.ccr == .onlyL && t.pc == 0x0102) = true ∧
    runs (start 0x0100 [0x14, 0x12] .empty [(1, 0x80000000), (2, 0xFFFFFFFF)] [])
      (fun t => t.ccr == .onlyO && t.pc == 0x0102) = true := by
  decide

/-- V186, V187 -/
theorem test_D :
    runs (start 0x0100 [0x34, 0x10, 0x02, 0x00] .empty [(1, 0x00000064)] [(0x0200, [0x00, 0x00, 0x00, 0x07])])
      (fun t => t.reg 1 == 0x0000000E && t.ccr == .onlyG && t.pc == 0x0104) = true ∧
    runs (start 0x0100 [0x34, 0x10, 0x02, 0x00] .empty [(1, 0x00000064)] [])
      (fun t => t.ccr == .empty && t.pc == 0x0100 && t.outcome == .fault .zeroDivisor 0x0100) = true := by
  decide

/-- V188 -/
theorem test_DI :
    runs (start 0x0100 [0x54, 0x1F, 0xFF, 0xFD] .empty [(1, 0x0000000A)] [])
      (fun t => t.reg 1 == 0xFFFFFFFD && t.ccr == .onlyL && t.pc == 0x0104) = true := by
  decide

/-- V190, V191 -/
theorem test_DC :
    runs (start 0x0100 [0x74, 0x10, 0x02, 0x00] .empty [(1, 0xFFFFFC18)] [(0x0200, [0xFF])])
      (fun t => t.reg 1 == 0xFFFFFFFC && t.ccr == .onlyL && t.pc == 0x0104) = true ∧
    runs (start 0x0100 [0x74, 0x10, 0x02, 0x00] .empty [(1, 0x00000005)] [])
      (fun t => t.ccr == .empty && t.pc == 0x0100 && t.outcome == .fault .zeroDivisor 0x0100) = true := by
  decide

/-- V192, V193 -/
theorem test_RDR :
    runs (start 0x0100 [0x15, 0x12] .empty [(1, 0x00000002), (2, 0xFFFFFFF9)] [])
      (fun t => t.reg 1 == 0xFFFFFFFC && t.ccr == .onlyL && t.pc == 0x0102) = true ∧
    runs (start 0x0100 [0x15, 0x12] .empty [(1, 0x00000000), (2, 0x00000005)] [])
      (fun t => t.ccr == .empty && t.pc == 0x0100 && t.outcome == .fault .zeroDivisor 0x0100) = true := by
  decide

/-- V195, V196 -/
theorem test_RD :
    runs (start 0x0100 [0x35, 0x10, 0x02, 0x00] .empty [(1, 0x00000003)] [(0x0200, [0x00, 0x00, 0x00, 0x0A])])
      (fun t => t.ccr == .onlyG && t.pc == 0x0104) = true ∧
    runs (start 0x0100 [0x35, 0x10, 0x02, 0x02] .empty [(1, 0x00000000)] [])
      (fun t => t.ccr == .empty && t.pc == 0x0100 && t.outcome == .fault (.wordAddressing 0x0202) 0x0100) = true := by
  decide

/-- V197, V198 -/
theorem test_RDI :
    runs (start 0x0100 [0x55, 0x10, 0x00, 0x64] .empty [(1, 0xFFFFFFF9)] [])
      (fun t => t.reg 1 == 0xFFFFFFF2 && t.ccr == .onlyL && t.pc == 0x0104) = true ∧
    runs (start 0x0100 [0x55, 0x10, 0x00, 0x64] .empty [(1, 0x00000000)] [])
      (fun t => t.ccr == .empty && t.pc == 0x0100 && t.outcome == .fault .zeroDivisor 0x0100) = true := by
  decide

/-- V199 -/
theorem test_RDC :
    runs (start 0x0100 [0x75, 0x10, 0x02, 0x00] .empty [(1, 0xFFFFFFFE)] [(0x0200, [0xFF])])
      (fun t => t.reg 1 == 0xFFFFFF81 && t.ccr == .onlyL && t.pc == 0x0104) = true := by
  decide

/-- V177, V180 -/
theorem test_REMR :
    runs (start 0x0100 [0x16, 0x12] .empty [(1, 0x00000007), (2, 0xFFFFFFFE)] [])
      (fun t => t.reg 1 == 0x00000001 && t.ccr == .onlyG && t.pc == 0x0102) = true ∧
    runs (start 0x0100 [0x16, 0x12] .empty [(1, 0xFFFFFFFF), (2, 0x00000005)] [])
      (fun t => t.reg 1 == 0x00000004 && t.ccr == .onlyG && t.pc == 0x0102) = true := by
  decide

/-- V200 -/
theorem test_REM :
    runs (start 0x0100 [0x36, 0x10, 0x02, 0x00] .empty [(1, 0xFFFFFF9C)] [(0x0200, [0x00, 0x00, 0x00, 0x07])])
      (fun t => t.reg 1 == 0x00000005 && t.ccr == .onlyG && t.pc == 0x0104) = true := by
  decide

/-- V201, V202 -/
theorem test_REMI :
    runs (start 0x0100 [0x56, 0x1F, 0xFF, 0xF9] .empty [(1, 0xFFFFFF9C)] [])
      (fun t => t.reg 1 == 0x00000005 && t.ccr == .onlyG && t.pc == 0x0104) = true ∧
    runs (start 0x0100 [0x56, 0x10, 0x00, 0x00] .empty [(1, 0x00000005)] [])
      (fun t => t.ccr == .empty && t.pc == 0x0100 && t.outcome == .fault .zeroDivisor 0x0100) = true := by
  decide

/-- V203 -/
theorem test_REMC :
    runs (start 0x0100 [0x76, 0x10, 0x02, 0x00] .empty [(1, 0x000003E8)] [(0x0200, [0x10])])
      (fun t => t.reg 1 == 0x00000008 && t.ccr == .onlyG && t.pc == 0x0104) = true := by
  decide

/-- V204, V205 -/
theorem test_RREMR :
    runs (start 0x0100 [0x17, 0x12] .empty [(1, 0xFFFFFFFD), (2, 0xFFFFFFF9)] [])
      (fun t => t.reg 1 == 0x00000002 && t.ccr == .onlyG && t.pc == 0x0102) = true ∧
    runs (start 0x0100 [0x17, 0x12] .empty [(1, 0x00000000), (2, 0x00000005)] [])
      (fun t => t.ccr == .empty && t.pc == 0x0100 && t.outcome == .fault .zeroDivisor 0x0100) = true := by
  decide

/-- V206 -/
theorem test_RREM :
    runs (start 0x0100 [0x37, 0x10, 0x02, 0x00] .empty [(1, 0x00000007)] [(0x0200, [0x00, 0x00, 0x00, 0x64])])
      (fun t => t.reg 1 == 0x00000002 && t.ccr == .onlyG && t.pc == 0x0104) = true := by
  decide

/-- V207 -/
theorem test_RREMI :
    runs (start 0x0100 [0x57, 0x1F, 0xFF, 0xFF] .empty [(1, 0x00000004)] [])
      (fun t => t.reg 1 == 0x00000003 && t.ccr == .onlyG && t.pc == 0x0104) = true := by
  decide

/-- V208 -/
theorem test_RREMC :
    runs (start 0x0100 [0x77, 0x10, 0x02, 0x00] .empty [(1, 0xFFFFFFF0)] [(0x0200, [0xFF])])
      (fun t => t.reg 1 == 0x0000000F && t.ccr == .onlyG && t.pc == 0x0104) = true := by
  decide

/-- RV31 -/
theorem test_FA :
    runs (start 0x0100 [0x38, 0x10, 0x02, 0x02] .empty [] [])
      (fun t => t.ccr == .empty && t.pc == 0x0100 && t.outcome == .fault (.wordAddressing 0x0202) 0x0100) = true := by
  decide

/-- RV32 -/
theorem test_FMR :
    runs (start 0x0100 [0x9B, 0x12] .empty [(2, 0x00000202)] [])
      (fun t => t.ccr == .empty && t.pc == 0x0100 && t.outcome == .fault (.wordAddressing 0x0202) 0x0100) = true := by
  decide

/-- RV33 -/
theorem test_FD :
    runs (start 0x0100 [0xBC, 0x10, 0x02, 0x01] .empty [] [])
      (fun t => t.ccr == .empty && t.pc == 0x0100 && t.outcome == .fault (.indirectAddress 0x0201) 0x0100) = true := by
  decide

/-- RV34 -/
theorem test_FLOOR :
    runs (start 0x0100 [0x78, 0x10, 0x02, 0x01] .empty [] [])
      (fun t => t.ccr == .empty && t.pc == 0x0100 && t.outcome == .fault (.wordAddressing 0x0201) 0x0100) = true := by
  decide

/-- V209, V212 -/
theorem test_MIN :
    runs (start 0x0100 [0x7A, 0x10, 0x02, 0x00] .empty [(1, 0x00000005)] [(0x0200, [0x00, 0x00, 0x00, 0x03])])
      (fun t => t.reg 1 == 0x00000003 && t.ccr == .onlyL && t.pc == 0x0104) = true ∧
    runs (start 0x0100 [0x7A, 0x10, 0x02, 0x00] .empty [(1, 0x00000001)] [(0x0200, [0x80, 0x00, 0x00, 0x00])])
      (fun t => t.reg 1 == 0x80000000 && t.ccr == .onlyL && t.pc == 0x0104) = true := by
  decide

/-- V213, V215 -/
theorem test_MAX :
    runs (start 0x0100 [0x7B, 0x10, 0x02, 0x00] .empty [(1, 0xFFFFFFFF)] [(0x0200, [0x00, 0x00, 0x00, 0x03])])
      (fun t => t.reg 1 == 0x00000003 && t.ccr == .onlyG && t.pc == 0x0104) = true ∧
    runs (start 0x0100 [0x7B, 0x10, 0x02, 0x00] .empty [(1, 0x00000000)] [(0x0200, [0xFF, 0xFF, 0xFF, 0xFF])])
      (fun t => t.ccr == .onlyE && t.pc == 0x0104) = true := by
  decide

/-- V218, V225 -/
theorem test_SHIFTL :
    runs (start 0x0100 [0x7C, 0x10, 0x00, 0x01] .empty [(1, 0x80000001)] [])
      (fun t => t.reg 1 == 0x00000002 && t.ccr == ⟨true, true, false, false⟩ && t.pc == 0x0104) = true ∧
    runs (start 0x0100 [0x7C, 0x10, 0xFF, 0xE0] .empty [(1, 0x80000001)] [])
      (fun t => t.reg 1 == 0x00000000 && t.ccr == ⟨true, false, false, true⟩ && t.pc == 0x0104) = true := by
  decide

/-- V235, V241 -/
theorem test_SHIFTC :
    runs (start 0x0100 [0x7D, 0x10, 0x00, 0x04] .onlyO [(1, 0x80000001)] [])
      (fun t => t.reg 1 == 0x00000018 && t.ccr == .onlyG && t.pc == 0x0104) = true ∧
    runs (start 0x0100 [0x7D, 0x10, 0xFF, 0xDF] .onlyO [(1, 0x80000001)] [])
      (fun t => t.reg 1 == 0xC0000000 && t.ccr == .onlyL && t.pc == 0x0104) = true := by
  decide

/-- V250, V254 -/
theorem test_SHIFTA :
    runs (start 0x0100 [0x7E, 0x10, 0x00, 0x02] .empty [(1, 0x20000001)] [])
      (fun t => t.reg 1 == 0x80000004 && t.ccr == ⟨true, false, true, false⟩ && t.pc == 0x0104) = true ∧
    runs (start 0x0100 [0x7E, 0x10, 0xFF, 0xFC] .empty [(1, 0x80000000)] [])
      (fun t => t.reg 1 == 0xF8000000 && t.ccr == .onlyL && t.pc == 0x0104) = true := by
  decide

/-- R149, V132: registers 15 and 0; a misaligned address. -/
theorem test_LM :
    runs (start 0x0100 [0x6E, 0xF0, 0x02, 0x00] .empty [] [(0x0200, [0, 0, 0, 0x0F, 0, 0, 0, 0x10])])
      (fun t => t.reg 15 == 0x0000000F && t.reg 0 == 0x00000010 && t.reg 1 == 0 && t.ccr == .empty && t.pc == 0x0104) = true ∧
    runs (start 0x0100 [0x6E, 0x24, 0x02, 0x02] .empty [] [])
      (fun t => t.pc == 0x0100 && t.outcome == .fault (.wordAddressing 0x0202) 0x0100) = true := by
  decide

/-- R120: OR with a word of memory. -/
theorem test_OR :
    runs (start 0x0100 [0x25, 0x10, 0x02, 0x00] .empty [(1, 0xFFFF0000)] [(0x0200, [0x00, 0x00, 0xFF, 0xFF])])
      (fun t => t.reg 1 == 0xFFFFFFFF && t.ccr == .onlyG) = true := by
  decide

/-- R124: XOR with a word of memory. -/
theorem test_XOR :
    runs (start 0x0100 [0x26, 0x10, 0x02, 0x00] .empty [(1, 0x0F0F0F0F)] [(0x0200, [0x0F, 0x0F, 0x0F, 0x0F])])
      (fun t => t.reg 1 == 0x00000000 && t.ccr == .onlyE) = true := by
  decide

/-! ### Real instructions: which member of REAL is called, with which arguments (RV1 to RV40) -/

/-- The step that executes a real instruction of a given length, whose result `REAL` answers. -/
def answers (s : State) (len : Nat) (r1 : Reg) (res : RealResult) : Result :=
  (s.beginCycle.advance len).finish ((s.beginCycle.advance len).realset r1 res)

/-- The step that executes a FIX instruction of a given length with a given real operand. -/
def fixes (s : State) (len : Nat) (r1 : Reg) (w : Word) : Result := .next ((s.beginCycle.advance len).fixset r1 w)

/-- RV1 -/
theorem test_FAR :
    step (start 0x0100 [0x18, 0x21] .empty [(2, 5), (1, 7)] []) =
      answers (start 0x0100 [0x18, 0x21] .empty [(2, 5), (1, 7)] []) 2 2
        (.ofOption (Config.real.add 5 7)) := rfl

/-- RV3 -/
theorem test_FA_operands :
    step (start 0x0100 [0x38, 0x10, 0x02, 0x00] .empty [(1, 5)] [(0x0200, [0, 0, 0, 7])]) =
      answers (start 0x0100 [0x38, 0x10, 0x02, 0x00] .empty [(1, 5)] [(0x0200, [0, 0, 0, 7])]) 4 1
        (.ofOption (Config.real.add 5 7)) := rfl

/-- RV38 -/
theorem test_FAI :
    step (start 0x0100 [0xD8, 0x14, 0x11, 0x00] .empty [(1, 5)] []) =
      answers (start 0x0100 [0xD8, 0x14, 0x11, 0x00] .empty [(1, 5)] []) 4 1
        (.ofOption (Config.real.add 5 (Config.real.short 0x41100))) := rfl

/-- RV5 -/
theorem test_FSR :
    step (start 0x0100 [0x19, 0x12] .empty [(1, 5), (2, 7)] []) =
      answers (start 0x0100 [0x19, 0x12] .empty [(1, 5), (2, 7)] []) 2 1
        (.ofOption (Config.real.sub 5 7)) := rfl

/-- RV6 -/
theorem test_FS :
    step (start 0x0100 [0x39, 0x10, 0x02, 0x00] .empty [(1, 5)] [(0x0200, [0, 0, 0, 7])]) =
      answers (start 0x0100 [0x39, 0x10, 0x02, 0x00] .empty [(1, 5)] [(0x0200, [0, 0, 0, 7])]) 4 1
        (.ofOption (Config.real.sub 5 7)) := rfl

/-- RV7 -/
theorem test_FSI :
    step (start 0x0100 [0x59, 0x14, 0x11, 0x00] .empty [(1, 5)] []) =
      answers (start 0x0100 [0x59, 0x14, 0x11, 0x00] .empty [(1, 5)] []) 4 1
        (.ofOption (Config.real.sub 5 (Config.real.short 0x41100))) := rfl

/-- RV8 -/
theorem test_RFSR :
    step (start 0x0100 [0x1A, 0x12] .empty [(1, 5), (2, 7)] []) =
      answers (start 0x0100 [0x1A, 0x12] .empty [(1, 5), (2, 7)] []) 2 1
        (.ofOption (Config.real.sub 7 5)) := rfl

/-- RV9 -/
theorem test_RFS :
    step (start 0x0100 [0x3A, 0x10, 0x02, 0x00] .empty [(1, 5)] [(0x0200, [0, 0, 0, 7])]) =
      answers (start 0x0100 [0x3A, 0x10, 0x02, 0x00] .empty [(1, 5)] [(0x0200, [0, 0, 0, 7])]) 4 1
        (.ofOption (Config.real.sub 7 5)) := rfl

/-- RV10 -/
theorem test_RFSI :
    step (start 0x0100 [0x5A, 0x14, 0x11, 0x00] .empty [(1, 5)] []) =
      answers (start 0x0100 [0x5A, 0x14, 0x11, 0x00] .empty [(1, 5)] []) 4 1
        (.ofOption (Config.real.sub (Config.real.short 0x41100) 5)) := rfl

/-- RV11 -/
theorem test_FMR_operands :
    step (start 0x0100 [0x1B, 0x12] .empty [(1, 5), (2, 7)] []) =
      answers (start 0x0100 [0x1B, 0x12] .empty [(1, 5), (2, 7)] []) 2 1
        (.ofOption (Config.real.mul 5 7)) := rfl

/-- RV12 -/
theorem test_FM :
    step (start 0x0100 [0x3B, 0x10, 0x02, 0x00] .empty [(1, 5)] [(0x0200, [0, 0, 0, 7])]) =
      answers (start 0x0100 [0x3B, 0x10, 0x02, 0x00] .empty [(1, 5)] [(0x0200, [0, 0, 0, 7])]) 4 1
        (.ofOption (Config.real.mul 5 7)) := rfl

/-- RV13 -/
theorem test_FMI :
    step (start 0x0100 [0x5B, 0x14, 0x11, 0x00] .empty [(1, 5)] []) =
      answers (start 0x0100 [0x5B, 0x14, 0x11, 0x00] .empty [(1, 5)] []) 4 1
        (.ofOption (Config.real.mul 5 (Config.real.short 0x41100))) := rfl

/-- RV14 -/
theorem test_FDR :
    step (start 0x0100 [0x1C, 0x12] .empty [(1, 5), (2, 7)] []) =
      answers (start 0x0100 [0x1C, 0x12] .empty [(1, 5), (2, 7)] []) 2 1
        (Config.real.div 5 7) := rfl

/-- RV15 -/
theorem test_FD_operands :
    step (start 0x0100 [0x3C, 0x10, 0x02, 0x00] .empty [(1, 5)] [(0x0200, [0, 0, 0, 7])]) =
      answers (start 0x0100 [0x3C, 0x10, 0x02, 0x00] .empty [(1, 5)] [(0x0200, [0, 0, 0, 7])]) 4 1
        (Config.real.div 5 7) := rfl

/-- RV16 -/
theorem test_FDI :
    step (start 0x0100 [0x5C, 0x14, 0x11, 0x00] .empty [(1, 5)] []) =
      answers (start 0x0100 [0x5C, 0x14, 0x11, 0x00] .empty [(1, 5)] []) 4 1
        (Config.real.div 5 (Config.real.short 0x41100)) := rfl

/-- RV17 -/
theorem test_RFDR :
    step (start 0x0100 [0x1D, 0x12] .empty [(1, 5), (2, 7)] []) =
      answers (start 0x0100 [0x1D, 0x12] .empty [(1, 5), (2, 7)] []) 2 1
        (Config.real.div 7 5) := rfl

/-- RV18 -/
theorem test_RFD :
    step (start 0x0100 [0x3D, 0x10, 0x02, 0x00] .empty [(1, 5)] [(0x0200, [0, 0, 0, 7])]) =
      answers (start 0x0100 [0x3D, 0x10, 0x02, 0x00] .empty [(1, 5)] [(0x0200, [0, 0, 0, 7])]) 4 1
        (Config.real.div 7 5) := rfl

/-- RV19 -/
theorem test_RFDI :
    step (start 0x0100 [0x5D, 0x14, 0x11, 0x00] .empty [(1, 5)] []) =
      answers (start 0x0100 [0x5D, 0x14, 0x11, 0x00] .empty [(1, 5)] []) 4 1
        (Config.real.div (Config.real.short 0x41100) 5) := rfl

/-- RV20 -/
theorem test_FLOATR :
    step (start 0x0100 [0x1E, 0x12] .empty [(2, 7)] []) =
      answers (start 0x0100 [0x1E, 0x12] .empty [(2, 7)] []) 2 1
        (.ok (Config.real.float 7)) := rfl

/-- RV21 -/
theorem test_FLOAT :
    step (start 0x0100 [0x3E, 0x10, 0x02, 0x00] .empty [] [(0x0200, [0, 0, 0, 7])]) =
      answers (start 0x0100 [0x3E, 0x10, 0x02, 0x00] .empty [] [(0x0200, [0, 0, 0, 7])]) 4 1
        (.ok (Config.real.float 7)) := rfl

/-- RV22 -/
theorem test_FLOATI :
    step (start 0x0100 [0x5E, 0x1F, 0xFF, 0xFD] .empty [] []) =
      answers (start 0x0100 [0x5E, 0x1F, 0xFF, 0xFD] .empty [] []) 4 1
        (.ok (Config.real.float 0xFFFFFFFD)) := rfl

/-- RV27 -/
theorem test_FLOOR_operand :
    step (start 0x0100 [0x78, 0x10, 0x02, 0x00] .empty [] [(0x0200, [0, 0, 0, 7])]) =
      answers (start 0x0100 [0x78, 0x10, 0x02, 0x00] .empty [] [(0x0200, [0, 0, 0, 7])]) 4 1
        (.ok (Config.real.floor 7)) := rfl

/-- RV28 -/
theorem test_CEIL :
    step (start 0x0100 [0x79, 0x10, 0x02, 0x00] .empty [] [(0x0200, [0, 0, 0, 7])]) =
      answers (start 0x0100 [0x79, 0x10, 0x02, 0x00] .empty [] [(0x0200, [0, 0, 0, 7])]) 4 1
        (.ok (Config.real.ceil 7)) := rfl

/-- RV30 -/
theorem test_SHIFTR :
    step (start 0x0100 [0x7F, 0x10, 0xFF, 0xFF] .empty [(1, 5)] []) =
      answers (start 0x0100 [0x7F, 0x10, 0xFF, 0xFF] .empty [(1, 5)] []) 4 1
        (.ofOption (Config.real.shiftr 5 (-1))) := rfl

/-- RV24 -/
theorem test_FIXR :
    step (start 0x0100 [0x1F, 0x12] .empty [(2, 7)] []) =
      fixes (start 0x0100 [0x1F, 0x12] .empty [(2, 7)] []) 2 1 7 := rfl

/-- RV25 -/
theorem test_FIX :
    step (start 0x0100 [0x3F, 0x10, 0x02, 0x00] .empty [] [(0x0200, [0, 0, 0, 7])]) =
      fixes (start 0x0100 [0x3F, 0x10, 0x02, 0x00] .empty [] [(0x0200, [0, 0, 0, 7])]) 4 1 7 := rfl

/-- RV26 -/
theorem test_FIXI :
    step (start 0x0100 [0x5F, 0x14, 0x12, 0x00] .empty [] []) =
      fixes (start 0x0100 [0x5F, 0x14, 0x12, 0x00] .empty [] []) 4 1 (Config.real.short 0x41200) := rfl

/-- FDR of 5 by the real zero. -/
def zeroDivide : State := start 0x0100 [0x1C, 0x12] .onlyG [(1, 5), (2, Config.real.zero)] []

/-- RV14 -/
theorem zeroDivide_step : step zeroDivide = answers zeroDivide 2 1 (realDiv 5 Config.real.zero) := rfl

/-- RV40, R264: it takes the zero divisor exception, or real-format if an operand is badly formed; nothing else changes. -/
theorem test_FDR_by_zero :
    step zeroDivide = .next { zeroDivide with outcome := .fault .zeroDivisor 0x0100 } ∨
    step zeroDivide = .next { zeroDivide with outcome := .fault .realFormat 0x0100 } := by
  rw [zeroDivide_step, realDiv_of_sign_zero 5 Config.real.sign_zero]
  split
  · exact .inl rfl
  · exact .inr rfl

/-! ### The cycle (R64), reset and a placed word -/

/-- V260, V266: an unassigned opcode, and an odd pc, which is reported first. -/
theorem test_fetch_faults :
    runs (start 0x0100 [0x0D, 0x00] .empty [] []) (fun t =>
      t.pc == 0x0100 && t.outcome == .fault (.unimplementedInstruction 0x0100 0x0D) 0x0100) = true ∧
    runs (start 0x0101 [0x0D, 0x00] .empty [] []) (fun t =>
      t.pc == 0x0101 && t.outcome == .fault (.illegalInstructionAddress 0x0101) 0x0101) = true := by
  decide

/-- V265: the all-zero memory of the model's reset is `LR, 0 0`. -/
theorem test_reset_step : runs State.reset (fun t => t.ccr == .onlyE && t.pc == 0x0102 && t.outcome == .running) = true := by
  decide

/-- A placed word runs as the first instruction: V17 and V21 without their start states. -/
theorem test_placed_words :
    runs (State.reset.withFetchWord 16 0x0012) (fun t => t.pc == 0x0102 && t.ia == 0x0100 && t.ccr == .onlyE) = true ∧
    runs (State.reset.withFetchWord 32 0x401FFFFF) (fun t => t.pc == 0x0104 && t.reg 1 == 0xFFFFFFFF) = true := by
  decide

/-- R14: with register sharing a store at address 4 writes register 1, and address 64 is no register. -/
theorem test_register_sharing :
    runs { start 0x0100 [0x22, 0x20, 0x00, 0x04] .empty [(2, 7)] [] with params := ⟨65536, .low64⟩ }
      (fun t => t.reg 1 == 7 && t.mem == [(0x0100, 0x22), (0x0101, 0x20), (0x0103, 0x04)]) = true ∧
    runs { start 0x0100 [0x22, 0x20, 0x00, 0x40] .empty [(2, 7)] [] with params := ⟨65536, .low64⟩ }
      (fun t => t.reg 1 == 0 && t.byteAt 0x0043 == 7) = true := by
  decide

/-! ### Witnesses: the hypotheses of each statement can be met -/

/-- `start` at 0x0100 with no flag set. -/
abbrev here (code : List Byte) (regs : List (Reg × Word)) (data : List (Addr × List Byte)) : State :=
  start 0x0100 code .empty regs data

/-- A machine without code: register 1 is 5, register 2 is 0x0200, where the word 0x80000001 stands. -/
abbrev plain : State := here [] [(1, 5), (2, 0xFFFF0200)] [(0x0200, [0x80, 0, 0, 1])]

/-- The reset state with register sharing. -/
abbrev shared : State := { State.reset with params := ⟨65536, .low64⟩ }

/-- Address 0x0200, direct, no index. -/
abbrev direct : MemOperand := ⟨false, none, 0x0200⟩

/-- An aligned existing word operand: the register form's and the storage form's address, at its boundaries too. -/
abbrev WordInMemory : Prop :=
  plain.mem.wf = true ∧ lowHalf (plain.reg 2) = 0x0200 ∧ plain.ea direct = .ok 0x0200 ∧ (0x0200 : Addr).toNat % 4 = 0 ∧
  plain.present 0x0200 4 = true ∧ plain.ea ⟨false, none, 0xFFFC⟩ = .ok 0xFFFC ∧ plain.present 0xFFFC 4 = true

theorem word_in_memory : WordInMemory := ⟨by decide, by decide, rfl, by decide, by decide, rfl, by decide⟩

/-- An existing character operand, at its boundary. -/
abbrev CharacterInMemory : Prop :=
  plain.mem.wf = true ∧ plain.ea ⟨false, none, 0xFFFF⟩ = .ok 0xFFFF ∧ plain.present 0xFFFF 1 = true

theorem character_in_memory : CharacterInMemory := ⟨by decide, rfl, by decide⟩

/-- Operands that can be read: a register, the word at a register's address, a word of storage, a character. -/
abbrev ReadableOperands : Prop :=
  plain.wordRR false 1 = .ok 5 ∧ plain.wordRR true 2 = .ok 0x80000001 ∧ plain.wordRS direct = .ok 0x80000001 ∧
  plain.wordRS ⟨true, none, 0x0200⟩ = .ok 0 ∧ plain.charCH direct = .ok 0x80 ∧ plain.charCH ⟨false, none, 0xFFFF⟩ = .ok 0

theorem readable_operands : ReadableOperands := ⟨rfl, rfl, rfl, rfl, rfl, rfl⟩

theorem witness_DecodeInvertsEncode :
    (Instr.ln 15 ⟨true, some 15, 0xFFFF⟩).wf = true ∧ (Instr.lr true 15 0).wf = true ∧ (Instr.fai true 15 0xFFFFF).wf = true := by
  decide

theorem witness_EncodeInvertsDecode :
    decode [0xA1, 0x12, 0x02, 0x00, 0x77] = .ok (.ln 1 ⟨true, some 2, 0x0200⟩, [0x77]) ∧
    decode [0x80, 0x12] = .ok (.lr true 1 2, []) := ⟨rfl, rfl⟩

theorem witness_LengthFromOpcode :
    decode (0x1F :: [0x12, 0x77]) = .ok (.fixr false 1 2, [0x77]) ∧
    decode (0x20 :: [0x10, 0x00, 0x00]) = .ok (.l 1 ⟨false, none, 0⟩, []) := ⟨rfl, rfl⟩

theorem witness_IllegalOpcodesAreTheFourteen :
    opcodeOf 0x0D ∈ unassignedOpcodes ∧ opcodeOf 0xED ∈ unassignedOpcodes ∧ opcodeOf 0x00 ∉ unassignedOpcodes ∧
    opcodeOf 0xFF ∉ unassignedOpcodes := by
  decide

/-- The last existing address and the first missing one of a memory of 256 characters. -/
theorem witness_CharacterReadAfterWrite :
    let s : State := { plain with params := ⟨256, .low64⟩ }
    s.mem.wf = true ∧ (255 : Addr).toNat < s.params.memSize ∧ s.params.memSize ≤ (256 : Addr).toNat ∧ (256 : Addr) ≠ 255 := by
  decide

/-- At the top of memory the word wraps to address 1. -/
theorem witness_MixedWidthAccess : plain.mem.wf = true ∧ ∃ t, plain.memWrite4 0xFFFE 0x01020304 = .ok t :=
  ⟨by decide, _, rfl⟩

theorem witness_WordOperandsAreChecked :
    (1 : Addr).toNat % 4 ≠ 0 ∧ (3 : Addr).toNat % 4 ≠ 0 ∧ (0xFFFC : Addr).toNat % 4 = 0 ∧
    plain.ea ⟨false, some 2, 0xFFFF⟩ = .ok 0x01FF := ⟨by decide, by decide, by decide, rfl⟩

theorem witness_EffectiveAddressCases :
    (15 : Reg) ≠ 0 ∧ (0xFFFF : Addr).toNat % 2 ≠ 0 ∧ (0x0200 : Addr).toNat % 2 = 0 ∧ plain.memRead2 0x0200 = .ok 0x8000 :=
  ⟨by decide, by decide, by decide, rfl⟩

theorem witness_SharedRegistersAreMemory :
    shared.params.regMemAlias = .low64 ∧ (63 : Addr).toNat < 64 ∧
    (60 : Addr).toNat = 4 * (15 : Reg).val := by
  decide

theorem witness_LoadAfterStore :
    plain.mem.wf = true ∧ plain.ea direct = .ok 0x0200 ∧ (0x0200 : Addr).toNat % 4 = 0 ∧ plain.present 0x0200 4 = true ∧
    ∃ t, exec (.st 1 direct) plain = .next t ∧ t.ea ⟨false, some 2, 0⟩ = .ok 0x0200 :=
  ⟨by decide, rfl, by decide, by decide, _, rfl, rfl⟩

/-- A next state of column None, one of another, one with O beside a sign, one with an exception, and one by EX. -/
theorem witness_CcrColumnOfEveryInstruction :
    plain.outcome = .running ∧
    (∃ t, exec (.la 1 direct) plain = .next t ∧ t.outcome = .running ∧ ccrEffect (.la 1 direct) = .none) ∧
    (∃ t, exec (.ar false 1 2) plain = .next t ∧ t.outcome = .running ∧ ccrEffect (.ar false 1 2) ≠ .none) ∧
    (∃ t, exec (.shiftl 2 ⟨false, none, 1⟩) plain = .next t ∧ t.outcome = .running ∧ t.ccr = ⟨true, false, true, false⟩) ∧
    (∃ t, exec (.l 1 ⟨true, none, 1⟩) plain = .next t ∧ t.outcome = .fault (.indirectAddress 1) 0x0100) ∧
    ∃ t, exec (.ex 0 ⟨false, none, 0⟩) plain = .next t ∧ t.outcome = .running :=
  ⟨rfl, ⟨_, rfl, rfl, rfl⟩, ⟨_, rfl, rfl, by decide⟩, ⟨_, rfl, rfl, rfl⟩, ⟨_, rfl, rfl⟩, _, rfl, rfl⟩

theorem witness_StepRunsDecodedInstruction :
    let s := start 0xFFFE [0x40, 0x10, 0x00, 0x07] .empty [] []
    s.outcome = .running ∧ s.pc.toNat % 2 = 0 ∧ (Instr.li false 1 7).wf = true ∧
    s.present s.pc (encode (.li false 1 7)).length = true ∧
    s.instrBytes s.pc (encode (.li false 1 7)).length = encode (.li false 1 7) := by
  decide

theorem witness_PlacedWordIsExecuted :
    plain.mem.wf = true ∧ plain.params = ⟨65536, .none⟩ ∧ plain.pc.toNat % 2 = 0 ∧
    decodeTableWord 16 0x1821 = some (.far false 2 1) ∧ decodeTableWord 32 0xA1120200 = some (.ln 1 ⟨true, some 2, 0x0200⟩) := by
  decide

/-- An odd pc, an even one, and a branch target that is odd at the top of the address space. -/
theorem witness_OddPcRaisesAtCycleStart :
    ({ plain with pc := 0xFFFF }.outcome = .running ∧ ({ plain with pc := 0xFFFF } : State).pc.toNat % 2 = 1) ∧
    (plain.outcome = .running ∧ plain.pc.toNat % 2 = 0 ∧ ∃ t, step plain = .next t) ∧
    ((0x01FF : Addr) + plain.indexValue (some 2)).toNat % 2 = 1 ∧ ((0x0001 : Addr) + plain.indexValue none).toNat % 2 = 1 ∧
    (0x0201 : Addr).toNat % 2 = 1 ∧ lowHalf ((here [] [(3, 0x0201)] []).reg 3) = 0x0201 + plain.indexValue none :=
  ⟨⟨rfl, by decide⟩, ⟨rfl, by decide, _, rfl⟩, by decide, by decide, by decide, rfl⟩

/-- The only character of a memory of 257 that the cycle at 0x0100 finds, and a subject of EX. -/
theorem witness_UnimplementedOpcodeFaults :
    let s : State := { here [0x8D] [] [] with params := ⟨257, .none⟩ }
    s.outcome = .running ∧ s.pc.toNat % 2 = 0 ∧ s.present s.pc 1 = true ∧ opcodeOf (s.byteAt s.pc) ∈ unassignedOpcodes ∧
    s.present s.pc 2 = false ∧ s.ea ⟨false, none, 0x0100⟩ = .ok 0x0100 := ⟨rfl, by decide, by decide, by decide, by decide, rfl⟩

theorem witness_EndedRunTakesNoStep :
    { plain with outcome := .supervisorCall 0x0100 1 0 : State }.outcome ≠ .running ∧
    (plain.takeException .zeroDivisor).outcome ≠ .running := by
  decide

/-- A memory of 514 characters: a word at 0x0200 is half there; pc at the first missing address. -/
theorem witness_MissingMemoryStops :
    let s : State := { plain with params := ⟨514, .none⟩, pc := 514 }
    s.present 0x0200 2 = true ∧ s.present 0x0200 4 = false ∧ s.present 0x0201 2 = false ∧ s.present 0x0202 1 = false ∧
    s.outcome = .running ∧ s.pc.toNat % 2 = 0 ∧ s.params.memSize ≤ s.pc.toNat ∧ (0x0200 : Addr).toNat % 4 = 0 ∧
    s.ea direct = .ok 0x0200 ∧ s.present 0x0201 1 = true ∧ s.present 0x01FE 4 = true :=
  ⟨by decide, by decide, by decide, by decide, rfl, by decide, by decide, by decide, rfl, by decide, by decide⟩

theorem witness_StoredInstructionIsFetched :
    let s := here [0x22, 0x10, 0x01, 0x04] [(1, 0x40300005)] []
    s.mem.wf = true ∧ s.params = ⟨65536, .none⟩ ∧ s.outcome = .running ∧ s.pc.toNat % 4 = 0 ∧
    s.instrBytes s.pc 4 = encode (.st 1 ⟨false, none, s.pc + 4⟩) ∧ (Instr.li false 3 5).wf = true ∧
    encode (.li false 3 5) = [charOfWord (s.reg 1) 0, charOfWord (s.reg 1) 1, charOfWord (s.reg 1) 2, charOfWord (s.reg 1) 3] := by
  decide

theorem witness_PcIsWrittenOnlyByBranches :
    let s := here [0x00, 0x12] [] []
    s.outcome = .running ∧ isBranch (.lr false 1 2) = false ∧ isEX (.lr false 1 2) = false ∧ (Instr.lr false 1 2).wf = true ∧
    s.present s.pc (encode (.lr false 1 2)).length = true ∧
    s.instrBytes s.pc (encode (.lr false 1 2)).length = encode (.lr false 1 2) ∧
    (∃ t, exec (.lr false 1 2) s = .next t ∧ t.outcome = .running) ∧ ∃ t, step s = .next t ∧ t.outcome = .running :=
  ⟨rfl, rfl, rfl, rfl, by decide, by decide, ⟨_, rfl, rfl⟩, _, rfl, rfl⟩

theorem witness_OnlyStoresWriteMemory :
    (plain.params.regMemAlias = .none ∧ storesToMemory (.lm false 15 0 0x0200) = false ∧ isEX (.lm false 15 0 0x0200) = false ∧
      ∃ t, exec (.lm false 15 0 0x0200) plain = .next t) ∧
    let s := here [0x00, 0x12] [] []
    s.params.regMemAlias = .none ∧ s.outcome = .running ∧ storesToMemory (.lr false 1 2) = false ∧ isEX (.lr false 1 2) = false ∧
    (Instr.lr false 1 2).wf = true ∧ s.present s.pc (encode (.lr false 1 2)).length = true ∧
    s.instrBytes s.pc (encode (.lr false 1 2)).length = encode (.lr false 1 2) ∧ ∃ t, step s = .next t :=
  ⟨⟨rfl, rfl, rfl, _, rfl⟩, rfl, rfl, rfl, rfl, rfl, by decide, by decide, _, rfl⟩

theorem witness_ExceptionsArePrecise :
    let s := here [0x22, 0x10, 0x02, 0x01] [] []
    s.outcome = .running ∧ ∃ t, step s = .next t ∧ t.outcome = .fault (.wordAddressing 0x0201) 0x0100 := ⟨rfl, _, rfl, rfl⟩

theorem witness_ExceptionsByInstruction :
    plain.outcome = .running ∧
    (∃ t, exec (.di false 1 0) plain = .next t ∧ t.outcome = .fault .zeroDivisor 0x0100 ∧ isEX (.di false 1 0) = false) ∧
    ∃ t, exec (.ex 1 ⟨false, none, 1⟩) plain = .next t ∧ t.outcome = .fault (.executeAddress 1) 0x0100 :=
  ⟨rfl, ⟨_, rfl, rfl, rfl⟩, _, rfl, rfl⟩

theorem witness_OddIndirectFieldRaises :
    addressFields (.bcs 0 ⟨true, some 1, 1⟩) = some ⟨true, some 1, 1⟩ ∧
    addressFields (.lm true 1 2 0xFFFF) = some ⟨true, none, 0xFFFF⟩ ∧ (1 : Addr).toNat % 2 = 1 ∧ (0xFFFF : Addr).toNat % 2 = 1 := by
  decide

theorem witness_MisalignedWordRaises :
    let s := here [] [(2, 0x0203)] []
    wordOperandAddress (.lr true 1 2) s = some 0x0203 ∧ wordOperandAddress (.st 1 ⟨false, none, 0xFFFF⟩) s = some 0xFFFF ∧
    wordOperandAddress (.stm false 1 2 0x0201) s = some 0x0201 ∧ (0x0203 : Addr).toNat % 4 ≠ 0 ∧ (0xFFFF : Addr).toNat % 4 ≠ 0 ∧
    (0x0201 : Addr).toNat % 4 ≠ 0 := by
  decide

/-- A running machine that takes a step. -/
theorem witness_StepKeepsInvariant : plain.Inv ∧ ∃ t, step plain = .next t :=
  ⟨⟨by decide, by decide, by decide, trivial⟩, _, rfl⟩

theorem witness_LoadsReplaceTheRegister : ReadableOperands := readable_operands

theorem witness_StoresPutTheRegister : WordInMemory ∧ CharacterInMemory := ⟨word_in_memory, character_in_memory⟩

theorem shared_word : ∀ b ∈ wordBytes 0x0200, shared.shares b 1 = false := by
  simp only [wordBytes, List.forall_mem_cons]
  exact ⟨by decide, by decide, by decide, by decide, by simp⟩

theorem shared_range : ∀ b ∈ byteRange 0x0200 (4 * rangeLength 15 0), shared.inRegs b = false := by
  simp only [byteRange, List.forall_mem_map, List.mem_range]
  decide

/-- With register sharing too: a word outside register 1, and a character inside it. -/
theorem witness_SwapsExchange :
    WordInMemory ∧ CharacterInMemory ∧ (∀ b ∈ wordBytes 0x0200, plain.shares b 1 = false) ∧
    (∀ b ∈ wordBytes 0x0200, shared.shares b 1 = false) ∧ plain.shares 0xFFFF 1 = false ∧ shared.shares 7 1 = true :=
  ⟨word_in_memory, character_in_memory, fun _ _ => rfl, shared_word, rfl, by decide⟩

theorem witness_LogicalWords : ReadableOperands := readable_operands

theorem witness_LogicalCharacters : ReadableOperands := readable_operands

theorem witness_BranchesTestTheMask :
    plain.ea ⟨true, none, 0x0200⟩ = .ok 0x8000 ∧ plain.ea ⟨false, some 2, 0xFE01⟩ = .ok 0x0001 := ⟨rfl, rfl⟩

theorem witness_BranchAndLinkSavesPc :
    let s := here [0x2A, 0xE0, 0x02, 0x01] [] []
    s.ea direct = .ok 0x0200 ∧ s.outcome = .running ∧ s.pc.toNat % 2 = 0 ∧ s.present s.pc 4 = true ∧
    s.instrBytes s.pc 4 = encode (.bal 14 ⟨false, none, 0x0201⟩) := ⟨rfl, rfl, by decide, by decide, by decide⟩

theorem witness_SaveConditionStoresOnesOrZeros : WordInMemory ∧ CharacterInMemory := ⟨word_in_memory, character_in_memory⟩

theorem witness_ComparesSetOnlyTheCcr : ReadableOperands := readable_operands

/-- Two strings of length 2 that differ in their second pair; the same length with no difference; length 0. -/
theorem witness_CompareStringFindsFirstDifference :
    let s := here [] [(2, 0x0200), (3, 0x00020300)] [(0x0200, [1, 2]), (0x0300, [1, 3])]
    let e := here [] [(2, 0x0200), (3, 0x00020300)] []
    (stringLength 2 s = 2 ∧ (∀ k ≤ 1, s.present (stringA1 1 2 s k) 1 = true ∧ s.present (stringA2 2 s k) 1 = true) ∧
      (∀ k < 1, s.byteAt (stringA1 1 2 s k) = s.byteAt (stringA2 2 s k)) ∧
      s.byteAt (stringA1 1 2 s 1) ≠ s.byteAt (stringA2 2 s 1)) ∧
    (stringLength 2 e = 2 ∧ (∀ k < 2, e.present (stringA1 15 2 e k) 1 = true ∧ e.present (stringA2 2 e k) 1 = true) ∧
      ∀ k < 2, e.byteAt (stringA1 15 2 e k) = e.byteAt (stringA2 2 e k)) ∧
    stringLength 15 e = 0 := by
  decide

/-- A fill of three characters (stride 0) from the address before them, so that each source is an earlier destination or none. -/
theorem witness_MoveStringCopiesInOrder :
    let s := here [] [(2, 0x0200), (3, 0x00030201)] [(0x0200, [0x58])]
    s.mem.wf = true ∧ stringLength 2 s = 3 ∧ s.params.regMemAlias = .none ∧
    (∀ k < 3, s.present (stringA1 1 2 s k) 1 = true ∧ s.present (stringA2 2 s k) 1 = true) ∧
    stringA2 2 s 0 = stringA1 1 2 s 1 ∧ ∀ j < 2, stringA2 2 s j ≠ stringA1 0 2 s 2 := by
  decide

theorem witness_SupervisorCallEndsTheRun :
    let s := here [0x2E, 0x30, 0x02, 0x00] [] []
    s.outcome = .running ∧ s.pc.toNat % 2 = 0 ∧ s.present s.pc 4 = true ∧ direct.wf = true ∧
    s.instrBytes s.pc 4 = encode (.svc 3 direct) ∧ s.ea direct = .ok 0x0200 := ⟨rfl, by decide, by decide, rfl, by decide, rfl⟩

theorem witness_ExecuteRunsTheSubject :
    let s := here [] [] [(0x0202, [0x00, 0x12]), (0x0300, [0x40, 0x70, 0x00, 0x05])]
    s.ea ⟨false, none, 0x0202⟩ = .ok 0x0202 ∧ (0x0202 : Addr).toNat % 2 = 0 ∧ (Instr.lr false 1 2).wf = true ∧
    isEX (.lr false 1 2) = false ∧ s.present 0x0202 (encode (.lr false 1 2)).length = true ∧
    s.instrBytes 0x0202 (encode (.lr false 1 2)).length = encode (.lr false 1 2) ∧
    s.ea ⟨false, none, 0x0300⟩ = .ok 0x0300 ∧ (0x0300 : Addr).toNat % 2 = 0 ∧ s.present 0x0300 4 = true ∧
    s.instrBytes 0x0300 4 = encode (.li false 7 5) :=
  ⟨rfl, by decide, rfl, rfl, by decide, by decide, rfl, by decide, by decide, by decide⟩

theorem witness_ExecuteNests :
    let s := here [] [] [(0x0200, [0x2F, 0x00, 0x03, 0x00]), (0x0300, [0x40, 0x70, 0x00, 0x05])]
    s.ea direct = .ok 0x0200 ∧ (0x0200 : Addr).toNat % 2 = 0 ∧ (⟨false, none, 0x0300⟩ : MemOperand).wf = true ∧
    s.present 0x0200 4 = true ∧ s.instrBytes 0x0200 4 = encode (.ex 0 ⟨false, none, 0x0300⟩) :=
  ⟨rfl, by decide, rfl, by decide, by decide⟩

/-- An odd effective address, and an EX at 0x0200 of itself. -/
theorem witness_ExecuteStopsAreNamed :
    let s := here [] [] [(0x0200, [0x2F, 0x00, 0x02, 0x00])]
    s.ea ⟨false, none, 0xFFFF⟩ = .ok 0xFFFF ∧ (0xFFFF : Addr).toNat % 2 = 1 ∧ s.ea direct = .ok 0x0200 ∧
    (0x0200 : Addr).toNat % 2 = 0 ∧ direct.wf = true ∧ s.present 0x0200 4 = true ∧ s.instrBytes 0x0200 4 = encode (.ex 0 direct) :=
  ⟨rfl, by decide, rfl, by decide, rfl, by decide, by decide⟩

theorem witness_LoadAddressKeepsTheCcr : plain.ea ⟨false, some 2, 0xFFFF⟩ = .ok 0x01FF := rfl

/-- Registers 15 and 0, at the top of memory and at 0x0200; with sharing, words outside the image. -/
theorem witness_LoadMultipleFillsTheRange :
    plain.eaNoIndex true 0x0202 = .ok 0x0001 ∧ plain.eaNoIndex false 0xFFFC = .ok 0xFFFC ∧ (0xFFFC : Addr).toNat % 4 = 0 ∧
    rangeLength 15 0 = 2 ∧ rangeLength 3 2 = 16 ∧ rangeLength 5 5 = 1 ∧
    (∀ k < rangeLength 15 0, plain.present (rangeWord 0xFFFC k) 4 = true) ∧
    (∀ b ∈ byteRange 0xFFFC (4 * rangeLength 15 0), plain.inRegs b = false) ∧
    ∀ b ∈ byteRange 0x0200 (4 * rangeLength 15 0), shared.inRegs b = false :=
  ⟨rfl, rfl, by decide, by decide, by decide, by decide, by decide, fun _ _ => rfl, shared_range⟩

theorem witness_StoreMultipleWritesTheRange :
    plain.mem.wf = true ∧ plain.eaNoIndex false 0xFFFC = .ok 0xFFFC ∧ (0xFFFC : Addr).toNat % 4 = 0 ∧
    (∀ k < rangeLength 15 0, plain.present (rangeWord 0xFFFC k) 4 = true) ∧
    ∀ b ∈ byteRange 0xFFFC (4 * rangeLength 15 0), plain.inRegs b = false :=
  ⟨by decide, rfl, by decide, by decide, fun _ _ => rfl⟩

/-- The last integer that fits and the first that does not, on either side. -/
theorem witness_ArithmeticHelper :
    ((2147483648 : Int) < -2 ^ 31 ∨ (2147483648 : Int) > 2 ^ 31 - 1) ∧ ((-2147483649 : Int) < -2 ^ 31) ∧
    (-2 ^ 31 ≤ (-2147483648 : Int) ∧ (2147483647 : Int) ≤ 2 ^ 31 - 1) ∧ plain.wordRR true 2 = .ok 0x80000001 :=
  ⟨by decide, by decide, by decide, rfl⟩

theorem witness_AddSubtractMultiply : ReadableOperands := readable_operands

/-- Divisors that are zero and that are not: the operand for the divides, register R1 for the reverse divides. -/
theorem witness_DivideGivesTheQuotient :
    ReadableOperands ∧ (0x80000001 : Word).toInt ≠ 0 ∧ plain.wordRR false 0 = .ok 0 ∧ (0 : Word).toInt = 0 ∧
    plain.wordRS ⟨false, none, 0⟩ = .ok 0 ∧ plain.charCH ⟨false, none, 0⟩ = .ok 0 ∧ (plain.reg 1).toInt ≠ 0 ∧
    (plain.reg 0).toInt = 0 ∧ (0x80000 : Imm).toInt ≠ 0 ∧ (0 : Imm).toInt = 0 :=
  ⟨readable_operands, by decide, rfl, by decide, rfl, rfl, by decide, by decide, by decide, by decide⟩

theorem witness_RemainderIsNonNegative :
    ReadableOperands ∧ (0x80000001 : Word).toInt ≠ 0 ∧ plain.wordRR false 0 = .ok 0 ∧ (0 : Word).toInt = 0 ∧
    (plain.reg 1).toInt ≠ 0 ∧ (plain.reg 0).toInt = 0 :=
  ⟨readable_operands, by decide, rfl, by decide, by decide, by decide⟩

/-- The real zero compares equal to zero, as the operand (register 2) and as register R1; the real of 5 does not. -/
theorem witness_RealArithmetic :
    let s := here [] [(1, Config.real.zero), (2, Config.real.zero), (3, Config.real.float 5)] []
    ReadableOperands ∧ s.wordRR false 2 = .ok Config.real.zero ∧ s.reg 1 = Config.real.zero ∧
    Config.real.sign Config.real.zero = .zero ∧ s.wordRR false 3 = .ok (Config.real.float 5) ∧
    Config.real.sign (Config.real.float 5) ≠ .zero :=
  ⟨readable_operands, rfl, rfl, Config.real.sign_zero, rfl, by rw [Config.real.sign_float]; decide⟩

theorem witness_RealConversions : ReadableOperands := readable_operands

theorem witness_FloorAndCeiling : ReadableOperands := readable_operands

theorem witness_MinimumAndMaximum : ReadableOperands := readable_operands

/-- Counts 1, 32, -1 and -32768, direct and indexed. -/
abbrev ShiftCounts : Prop :=
  plain.ea ⟨false, none, 1⟩ = .ok 1 ∧ plain.ea ⟨false, none, 32⟩ = .ok 32 ∧ plain.ea ⟨false, none, 0xFFFF⟩ = .ok 0xFFFF ∧
  plain.ea ⟨false, some 2, 0x7E00⟩ = .ok 0x8000 ∧ (0xFFFF : Addr).toInt < 0 ∧ 0 ≤ (32 : Addr).toInt

theorem shift_counts : ShiftCounts := ⟨rfl, rfl, rfl, rfl, by decide, by decide⟩

theorem witness_ShiftLogical : ShiftCounts := shift_counts

theorem witness_ShiftCircular : ShiftCounts := shift_counts

theorem witness_ShiftArithmetic : ShiftCounts := shift_counts

theorem witness_ShiftReal : ShiftCounts := shift_counts

end Sys2Proof.Tests
end

