-- ==== Sys2Proof/Proofs/Flags.lean ====
section
/-! SUPPORT. The values the CCR is given (R19 to R23): which flags each of them sets, and which column of R23 admits it. -/

namespace Sys2Proof.Machine

/-! ### Comparison and the mask test (R20, R22) -/

theorem cmpS_isSignOf (a b : Word) : (cmpS a b).isSignOf (a.toInt - b.toInt) := by
  unfold cmpS
  split_ifs <;> simp [Ccr.isSignOf, Ccr.onlyG, Ccr.onlyL, Ccr.onlyE] <;> omega

theorem cmpU_isSignOf (a b : Byte) : (cmpU a b).isSignOf ((a.toNat : Int) - b.toNat) := by
  unfold cmpU
  split_ifs <;> simp [Ccr.isSignOf, Ccr.onlyG, Ccr.onlyL, Ccr.onlyE] <;> omega

theorem cmpS_l (a b : Word) : (cmpS a b).l = true ↔ a.toInt < b.toInt := by
  obtain ⟨-, -, hl, -⟩ := cmpS_isSignOf a b
  exact hl.trans sub_neg

theorem cmpS_g (a b : Word) : (cmpS a b).g = true ↔ b.toInt < a.toInt := by
  obtain ⟨-, hg, -, -⟩ := cmpS_isSignOf a b
  exact hg.trans sub_pos

/-- No character is below zero (R20). -/
theorem cmpU_zero_l (c : Byte) : (cmpU c 0).l = false := by
  obtain ⟨-, -, hl, -⟩ := cmpU_isSignOf c 0
  have h0 : (0 : Byte).toNat = 0 := rfl
  rw [Bool.eq_false_iff, Ne, hl, h0]
  omega

theorem Ccr.bits_toNat (c : Ccr) : (c.bits Config.ccrBitOrder).toNat = c.number := by
  obtain ⟨o, g, l, e⟩ := c
  revert o g l e
  decide

/-- The mask test in terms of the CCR's number (R22). -/
theorem Ccr.masktest_iff (c : Ccr) (m : Mask) : c.masktest m = true ↔ (c.number &&& m.toNat) ≠ 0 := by
  rw [Ccr.masktest, bne_iff_ne, Ne, BitVec.toNat_eq, BitVec.toNat_and, Ccr.bits_toNat]
  rfl

/-! ### Which column admits a value (R23) -/

/-- May a computing instruction leave this CCR? Its column allows it, and O stands beside G, L or E only if `pair` says so. -/
def CcrEffect.gives (k : CcrEffect) (pair : Bool) (c : Ccr) : Bool :=
  k != .none && k.allows c && (pair || !(c.o && (c.g || c.l || c.e)))

theorem CcrEffect.gives_iff {k : CcrEffect} {pair : Bool} {c : Ccr} :
    k.gives pair c = true ↔
      k ≠ .none ∧ k.allows c = true ∧ (c.o = true → (c.g || c.l || c.e) = true → pair = true) := by
  simp only [CcrEffect.gives, Bool.and_eq_true, bne_iff_ne, and_assoc]
  cases pair <;> cases c.o <;> cases (c.g || c.l || c.e) <;> simp

theorem CcrEffect.legal_of_gives {k : CcrEffect} {pair : Bool} {c : Ccr} (h : k.gives pair c = true) : c.legal = true := by
  simp only [CcrEffect.gives, CcrEffect.allows, Bool.and_eq_true] at h
  exact h.1.2.1.1

theorem cmpS_cases (a b : Word) : cmpS a b = .onlyL ∨ cmpS a b = .onlyE ∨ cmpS a b = .onlyG := by
  unfold cmpS; split_ifs <;> simp

theorem cmpU_cases (a b : Byte) : cmpU a b = .onlyL ∨ cmpU a b = .onlyE ∨ cmpU a b = .onlyG := by
  unfold cmpU; split_ifs <;> simp

theorem classify_cases {n : Nat} (v : BitVec n) : classify v = .onlyG ∨ classify v = .onlyE ∨ classify v = .onlyL := by
  unfold classify; split_ifs <;> simp

theorem gives_cmpS (a b : Word) : CcrEffect.gives .gle false (cmpS a b) = true := by
  rcases cmpS_cases a b with h | h | h <;> rw [h] <;> rfl

/-- A sign alone is admitted where O is too. -/
theorem gives_ogle_cmpS (pair : Bool) (a b : Word) : CcrEffect.gives .ogle pair (cmpS a b) = true := by
  rcases cmpS_cases a b with h | h | h <;> rw [h] <;> cases pair <;> rfl

theorem gives_cmpU (a b : Byte) : CcrEffect.gives .gle false (cmpU a b) = true := by
  rcases cmpU_cases a b with h | h | h <;> rw [h] <;> rfl

theorem gives_classify {n : Nat} (v : BitVec n) : CcrEffect.gives .gle false (classify v) = true := by
  rcases classify_cases v with h | h | h <;> rw [h] <;> rfl

theorem gives_rcmp0 (w : Word) : CcrEffect.gives .gle false (rcmp0 w) = true := by
  unfold rcmp0; split <;> rfl

/-- A column without L admits what the column G, L, E admits, L being 0. -/
theorem CcrEffect.gives_ge_of_gle {c : Ccr} (h : CcrEffect.gives .gle false c = true) (hl : c.l = false) :
    CcrEffect.gives .ge false c = true := by
  simpa [CcrEffect.gives, CcrEffect.allows, hl] using h

/-- A column without G admits what the column G, L, E admits, G being 0. -/
theorem CcrEffect.gives_le_of_gle {c : Ccr} (h : CcrEffect.gives .gle false c = true) (hg : c.g = false) :
    CcrEffect.gives .le false c = true := by
  simpa [CcrEffect.gives, CcrEffect.allows, hg] using h

theorem gives_ge_cmpS {a b : Word} (h : b.toInt ≤ a.toInt) : CcrEffect.gives .ge false (cmpS a b) = true :=
  CcrEffect.gives_ge_of_gle (gives_cmpS a b) (by rw [Bool.eq_false_iff, Ne, cmpS_l]; omega)

theorem gives_le_cmpS {a b : Word} (h : a.toInt ≤ b.toInt) : CcrEffect.gives .le false (cmpS a b) = true :=
  CcrEffect.gives_le_of_gle (gives_cmpS a b) (by rw [Bool.eq_false_iff, Ne, cmpS_g]; omega)

theorem gives_ge_cmpU_zero (c : Byte) : CcrEffect.gives .ge false (cmpU c 0) = true :=
  CcrEffect.gives_ge_of_gle (gives_cmpU c 0) (cmpU_zero_l c)

/-- A value with a zero bit is not classified as all ones (R21). -/
theorem gives_le_classify {n : Nat} {v : BitVec n} (h : v ≠ BitVec.allOnes n) :
    CcrEffect.gives .le false (classify v) = true := by
  unfold classify
  rw [if_neg h]
  split_ifs <;> rfl

theorem gives_arithCcr (n : Int) : CcrEffect.gives .ogle false (arithCcr n) = true := by
  unfold arithCcr
  split_ifs
  · exact gives_ogle_cmpS false _ _
  · rfl

/-- The CCR of a load negative (R105). -/
theorem gives_loadNegative (v w : Word) :
    CcrEffect.gives .ogle false (if v = 0x80000000 then .onlyO else cmpS w 0) = true := by
  split_ifs
  · rfl
  · exact gives_ogle_cmpS false _ _

/-- SHIFTL and SHIFTA set O beside the sign of the result (R211, R213). -/
theorem gives_cmpS_withO (a b : Word) (o : Bool) : CcrEffect.gives .ogle true ((cmpS a b).withO o) = true := by
  rcases cmpS_cases a b with h | h | h <;> rw [h] <;> cases o <;> rfl

/-- SHIFTC leaves O at 0 (R212). -/
theorem gives_cmpS_withO_false (a b : Word) : CcrEffect.gives .gle false ((cmpS a b).withO false) = true := by
  rcases cmpS_cases a b with h | h | h <;> rw [h] <;> rfl

end Sys2Proof.Machine

open Sys2Proof Sys2Proof.Machine

/-- Settles O13: each comparison is the sign of a difference. -/
theorem comparisonHelpers : Obligations.ComparisonHelpers := by
  unfold Obligations.ComparisonHelpers
  exact ⟨cmpS_isSignOf, cmpU_isSignOf, cmpU_zero_l⟩

/-- Settles O14: the number of the CCR decides the mask test; masks 0 and 15 by the sixteen values of the CCR. -/
theorem maskTest : Obligations.MaskTest := by
  unfold Obligations.MaskTest
  intro c m
  refine ⟨c.masktest_iff m, ?_⟩
  obtain ⟨o, g, l, e⟩ := c
  revert o g l e
  decide

end

