-- ==== Sys2Proof/Proofs/SharedRegisters.lean ====
section
/-! SUPPORT. Characters and words of a state under `REG_MEM_ALIAS = low64`: those below 64 are the registers' (R14). -/

namespace Sys2Proof.Machine

theorem State.inRegs_iff {s : State} (h : s.params.regMemAlias = .low64) (a : Addr) : s.inRegs a = true ↔ a.toNat < 64 := by
  simp [State.inRegs, h]

/-- Under `low64` a character written below 64 goes to its register. -/
theorem State.putByte_of_inRegs {s : State} {a : Addr} (h : s.inRegs a = true) (c : Byte) :
    s.putByte a c = s.setReg (regAt a) (withCharOfWord (s.reg (regAt a)) (a.toNat % 4) c) := by
  simp [State.putByte, h]

/-- The last of two writes to a register counts. -/
@[simp] theorem State.setReg_setReg (s : State) (r : Reg) (v w : Word) : (s.setReg r v).setReg r w = s.setReg r w := by
  simp [State.setReg, Vector.set_set]

/-- Words with the same four characters are equal. -/
theorem word_ext_chars {u v : Word} (h : ∀ k < 4, charOfWord u k = charOfWord v k) : u = v := by
  rw [← wordOfChars_charOfWord u, h 0 (by decide), h 1 (by decide), h 2 (by decide), h 3 (by decide),
    wordOfChars_charOfWord]

/-- Replacing the four characters of a word one after the other gives the word of the four. -/
theorem withCharOfWord_four (u v : Word) :
    withCharOfWord (withCharOfWord (withCharOfWord (withCharOfWord u 0 (charOfWord v 0)) 1 (charOfWord v 1)) 2
      (charOfWord v 2)) 3 (charOfWord v 3) = v := by
  refine word_ext_chars fun k hk => ?_
  interval_cases k <;> simp [charOfWord_withCharOfWord]

/-- The address 4r + k belongs to register r. -/
theorem regAt_of_toNat {b : Addr} {r : Reg} {k : Nat} (hk : k < 4) (hb : b.toNat = 4 * r.val + k) :
    b.toNat < 64 ∧ regAt b = r ∧ b.toNat % 4 = k := by
  have hr := r.isLt
  refine ⟨by omega, Fin.ext ?_, by omega⟩
  simp only [regAt, hb, Fin.val_ofNat]
  omega

/-- The addresses after that of register r's image do not wrap round. -/
theorem addr_registerImage {a : Addr} {r : Reg} (ha : a.toNat = 4 * r.val) :
    (a + 1).toNat = 4 * r.val + 1 ∧ (a + 2).toNat = 4 * r.val + 2 ∧ (a + 3).toNat = 4 * r.val + 3 := by
  have hr := r.isLt
  refine ⟨?_, ?_, ?_⟩ <;> bv_omega

/-- The character at address 4r + k is character k of register r. -/
theorem State.byteAt_registerImage {s : State} (h : s.params.regMemAlias = .low64) {b : Addr} {r : Reg} {k : Nat}
    (hk : k < 4) (hb : b.toNat = 4 * r.val + k) : s.byteAt b = charOfWord (s.reg r) k := by
  obtain ⟨hlt, hr, hm⟩ := regAt_of_toNat hk hb
  rw [State.byteAt_of_inRegs ((State.inRegs_iff h b).2 hlt), hr, hm]

/-- A character written at address 4r + k replaces character k of register r. -/
theorem State.putByte_registerImage {s : State} (h : s.params.regMemAlias = .low64) {b : Addr} {r : Reg} {k : Nat}
    (hk : k < 4) (hb : b.toNat = 4 * r.val + k) (c : Byte) :
    s.putByte b c = s.setReg r (withCharOfWord (s.reg r) k c) := by
  obtain ⟨hlt, hr, hm⟩ := regAt_of_toNat hk hb
  rw [State.putByte_of_inRegs ((State.inRegs_iff h b).2 hlt), hr, hm]

/-- The four characters of register r, read at address 4r. -/
theorem State.bytes_registerImage {s : State} (h : s.params.regMemAlias = .low64) {a : Addr} {r : Reg}
    (ha : a.toNat = 4 * r.val) :
    s.byteAt a = charOfWord (s.reg r) 0 ∧ s.byteAt (a + 1) = charOfWord (s.reg r) 1 ∧
      s.byteAt (a + 2) = charOfWord (s.reg r) 2 ∧ s.byteAt (a + 3) = charOfWord (s.reg r) 3 := by
  obtain ⟨h1, h2, h3⟩ := addr_registerImage ha
  exact ⟨s.byteAt_registerImage h (by decide) ha, s.byteAt_registerImage h (by decide) h1,
    s.byteAt_registerImage h (by decide) h2, s.byteAt_registerImage h (by decide) h3⟩

/-- The word at address 4r is register r. -/
theorem State.wordAt_registerImage {s : State} (h : s.params.regMemAlias = .low64) {a : Addr} {r : Reg}
    (ha : a.toNat = 4 * r.val) : s.wordAt a = s.reg r := by
  obtain ⟨h0, h1, h2, h3⟩ := s.bytes_registerImage h ha
  rw [State.wordAt, h0, h1, h2, h3, wordOfChars_charOfWord]

/-- Writing the word at address 4r writes register r. -/
theorem State.putWord_registerImage {s : State} (h : s.params.regMemAlias = .low64) {a : Addr} {r : Reg}
    (ha : a.toNat = 4 * r.val) (v : Word) : s.putWord a v = s.setReg r v := by
  obtain ⟨h1, h2, h3⟩ := addr_registerImage ha
  unfold State.putWord
  rw [State.putByte_registerImage h (k := 0) (by decide) ha, State.putByte_registerImage (by simpa using h) (by decide) h1,
    State.putByte_registerImage (by simpa using h) (by decide) h2,
    State.putByte_registerImage (by simpa using h) (by decide) h3]
  simp only [State.reg_setReg_self, State.setReg_setReg, withCharOfWord_four]

end Sys2Proof.Machine

open Sys2Proof Sys2Proof.Machine

/-- Settles O11: the characters, the words and the writes of R14, each read off the register's image. -/
theorem sharedRegistersAreMemory : Obligations.SharedRegistersAreMemory := by
  unfold Obligations.SharedRegistersAreMemory
  intro s h
  refine ⟨fun a ha => ?_, fun r a ha => ⟨s.wordAt_registerImage h ha, s.putWord_registerImage h ha, ?_⟩, fun a c ha => ?_⟩
  · exact State.byteAt_of_inRegs ((State.inRegs_iff h a).2 ha)
  · obtain ⟨h0, h1, h2, h3⟩ := s.bytes_registerImage h ha
    rw [State.instrBytes_four, h0, h1, h2, h3]
    rfl
  · rw [State.putByte_of_inRegs ((State.inRegs_iff h a).2 ha), State.setReg_mem]

end

