-- ==== Sys2Proof/Proofs/Completion.lean ====
section
/-! SUPPORT. What the work of an instruction can do: the state it completes with (pc, CCR, memory, outcome), or the exception it
raises, with the detail R260 gives it. One lemma per shared operation. -/

namespace Sys2Proof.Machine

/-! ### The states an instruction completes with -/

/-- May the instruction leave O at 1 beside G, L or E? (R211, R213, R228) -/
def setsOBesideSign : Instr → Bool
  | .shiftl _ _ => true
  | .shifta _ _ => true
  | .fixr _ _ _ => true
  | .fix _ _ => true
  | .fixi _ _ _ => true
  | _ => false

theorem setsOBesideSign_iff (i : Instr) :
    setsOBesideSign i = true ↔
      (∃ r op, i = .shiftl r op ∨ i = .shifta r op ∨ i = .fix r op) ∨ (∃ d r q, i = .fixr d r q) ∨
        ∃ d r v, i = .fixi d r v := by
  cases i <;> simp [setsOBesideSign]

/-- Registers, characters of memory and the CCR apart, nothing differs; memory keeps its canonical form. -/
structure KeepsControl (s t : State) : Prop where
  pc : t.pc = s.pc
  outcome : t.outcome = s.outcome
  ia : t.ia = s.ia
  params : t.params = s.params
  mem : s.mem.wf = true → t.mem.wf = true

namespace KeepsControl

theorem refl (s : State) : KeepsControl s s := ⟨rfl, rfl, rfl, rfl, id⟩

theorem trans {s t u : State} (h : KeepsControl s t) (h' : KeepsControl t u) : KeepsControl s u :=
  ⟨h'.pc.trans h.pc, h'.outcome.trans h.outcome, h'.ia.trans h.ia, h'.params.trans h.params, h'.mem ∘ h.mem⟩

theorem setReg (s : State) (r : Reg) (v : Word) : KeepsControl s (s.setReg r v) := ⟨rfl, rfl, rfl, rfl, id⟩

theorem putByte (s : State) (a : Addr) (c : Byte) : KeepsControl s (s.putByte a c) :=
  ⟨by simp, by simp, by simp, by simp, fun h => State.putByte_wf h a c⟩

theorem putWord (s : State) (a : Addr) (v : Word) : KeepsControl s (s.putWord a v) :=
  ⟨by simp, by simp, by simp, by simp, fun h => State.putWord_wf h a v⟩

theorem putDescriptor (s : State) (r2 : Reg) (a1 len a2 : BitVec 16) : KeepsControl s (s.putDescriptor r2 a1 len a2) :=
  (setReg s r2 _).trans (setReg _ (pairSecond r2) _)

theorem memWrite1 {s t : State} {a : Addr} {c : Byte} (h : s.memWrite1 a c = .ok t) : KeepsControl s t ∧ t.ccr = s.ccr := by
  obtain ⟨-, rfl⟩ := State.memWrite1_ok.1 h
  exact ⟨putByte s a c, by simp⟩

theorem writeW {s t : State} {loc : WordLoc} {v : Word} (h : s.writeW loc v = .ok t) :
    KeepsControl s t ∧ t.ccr = s.ccr := by
  cases loc with
  | reg r => cases h; exact ⟨setReg s r v, rfl⟩
  | mem a =>
    obtain ⟨-, -, rfl⟩ := State.writeW_mem_ok.1 h
    exact ⟨putWord s a v, by simp⟩

theorem loadRange {n : Nat} {r : Reg} {a : Addr} {s t : State} (h : State.loadRange n r a s = .ok t) :
    KeepsControl s t ∧ t.ccr = s.ccr := by
  obtain ⟨hpc, hccr, hmem, hout, hia, hpar⟩ := State.loadRange_keeps h
  exact ⟨⟨hpc, hout, hia, hpar, fun hw => by rwa [hmem]⟩, hccr⟩

theorem storeRange {n : Nat} {r : Reg} {a : Addr} {s t : State} (h : State.storeRange n r a s = .ok t) :
    KeepsControl s t ∧ t.ccr = s.ccr := by
  obtain ⟨hpc, hccr, hout, hia, hpar, hmem⟩ := State.storeRange_keeps h
  exact ⟨⟨hpc, hout, hia, hpar, hmem⟩, hccr⟩

theorem moveLoop {d : Addr} {n : Nat} {a1 a2 : Addr} {s t : State} (h : State.moveLoop d n a1 a2 s = .ok t) :
    KeepsControl s t ∧ t.ccr = s.ccr := by
  obtain ⟨hpc, hccr, hout, hia, hpar, hmem⟩ := State.moveLoop_keeps h
  exact ⟨⟨hpc, hout, hia, hpar, hmem⟩, hccr⟩

end KeepsControl

/-- What a completed instruction leaves: pc unless it moves it, a CCR its column gives, canonical memory, the parameters, ia, and
the outcome unless it calls the supervisor (R16, R23, R267). -/
structure Completes (moves pair : Bool) (k : CcrEffect) (s t : State) : Prop where
  pc : moves = false → t.pc = s.pc
  ccr_none : k = .none → t.ccr = s.ccr
  ccr_gives : k ≠ .none → k.gives pair t.ccr = true
  mem : s.mem.wf = true → t.mem.wf = true
  outcome : t.outcome = s.outcome ∨ ∃ r ea, t.outcome = .supervisorCall s.ia r ea
  ia : t.ia = s.ia
  params : t.params = s.params

section
variable {moves pair : Bool} {k : CcrEffect} {s t : State}

theorem Completes.of_setCcr {c : Ccr} (h : KeepsControl s t) (hc : k.gives pair c = true) :
    Completes moves pair k s (t.setCcr c) :=
  ⟨fun _ => h.pc, fun hk => absurd hk (CcrEffect.gives_iff.1 hc).1, fun _ => hc, h.mem, .inl h.outcome, h.ia, h.params⟩

theorem Completes.of_ccr_eq (h : KeepsControl s t) (hc : t.ccr = s.ccr) : Completes moves pair .none s t :=
  ⟨fun _ => h.pc, fun _ => hc, fun hk => absurd rfl hk, h.mem, .inl h.outcome, h.ia, h.params⟩

/-- A branch changes pc alone, and nothing if it is not taken (R131). -/
theorem Completes.branchIf (s : State) (b : Bool) (a : Addr) : Completes true pair .none s (s.branchIf b a) := by
  cases b <;> exact ⟨by simp, fun _ => rfl, fun hk => absurd rfl hk, id, .inl rfl, rfl, rfl⟩

theorem Completes.branchAndLink (s : State) (r1 : Reg) (a : Addr) : Completes true pair .none s (s.branchAndLink r1 a) :=
  ⟨by simp, fun _ => rfl, fun hk => absurd rfl hk, id, .inl rfl, rfl, rfl⟩

theorem Completes.supervisorCall (s : State) (r1 : Reg) (ea : Addr) :
    Completes moves pair .none s { s with outcome := .supervisorCall s.ia r1 ea } :=
  ⟨fun _ => rfl, fun _ => rfl, fun hk => absurd rfl hk, id, .inr ⟨r1, ea, rfl⟩, rfl, rfl⟩

end

/-! ### The exceptions it raises (R260) -/

/-- Does the exception carry a detail that its cause gives? X1 is the fetch's alone. -/
def Exception.detailOk : Exception → Prop
  | .illegalInstructionAddress _ => False
  | .unimplementedInstruction a op => isEven a = true ∧ isAssigned op = false
  | .indirectAddress a => isEven a = false
  | .wordAddressing ea => onWordBoundary ea = false
  | .executeAddress ea => isEven ea = false
  | .zeroDivisor => True
  | .realFormat => True

/-- Every exception the result may raise carries a detail of its cause. -/
def RaisesWell {α : Type} (r : Except Stop α) : Prop := ∀ e, r = .error (.raise e) → e.detailOk

theorem RaisesWell.of_ok {α : Type} (x : α) : RaisesWell (.ok x) := fun _ h => by cases h

/-- A result that fails only for want of memory raises nothing. -/
theorem RaisesWell.of_absent {α : Type} {r : Except Stop α} (h : ∀ e, r = .error e → ∃ a, e = .absent a) :
    RaisesWell r := by
  intro e he
  obtain ⟨a, ha⟩ := h _ he
  cases ha

theorem RaisesWell.bind {α β : Type} {r : Except Stop α} {f : α → Except Stop β} (hr : RaisesWell r)
    (hf : ∀ a, r = .ok a → RaisesWell (f a)) : RaisesWell (r >>= f) := by
  intro e he
  rcases bind_error.1 he with he | ⟨a, ha, he⟩
  · exact hr e he
  · exact hf a ha e he

section
variable (s : State)

theorem State.memRead1_raisesWell (a : Addr) : RaisesWell (s.memRead1 a) :=
  .of_absent fun _ h => ⟨a, (State.memRead1_error.1 h).2⟩

theorem State.memWrite1_raisesWell (a : Addr) (c : Byte) : RaisesWell (s.memWrite1 a c) :=
  .of_absent fun _ h => ⟨a, (State.memWrite1_error.1 h).2⟩

theorem State.readW_raisesWell (loc : WordLoc) : RaisesWell (s.readW loc) := by
  cases loc with
  | reg r => exact .of_ok _
  | mem a =>
    intro e h
    rcases State.readW_mem_error.1 h with ⟨hb, he⟩ | ⟨-, -, he⟩ <;> cases he
    exact hb

theorem State.writeW_raisesWell (loc : WordLoc) (v : Word) : RaisesWell (s.writeW loc v) := by
  cases loc with
  | reg r => exact .of_ok _
  | mem a =>
    intro e h
    rcases State.writeW_mem_error.1 h with ⟨hb, he⟩ | ⟨-, -, he⟩ <;> cases he
    exact hb

theorem State.ea_raisesWell (op : MemOperand) : RaisesWell (s.ea op) := by
  intro e h
  obtain ⟨-, ⟨hb, he⟩ | ⟨-, -, he⟩⟩ := State.ea_error.1 h <;> cases he
  exact hb

theorem State.wordRR_raisesWell (ind : Bool) (r2 : Reg) : RaisesWell (s.wordRR ind r2) := s.readW_raisesWell _

theorem State.wordRS_raisesWell (op : MemOperand) : RaisesWell (s.wordRS op) :=
  (s.ea_raisesWell op).bind fun _ _ => s.readW_raisesWell _

theorem State.charCH_raisesWell (op : MemOperand) : RaisesWell (s.charCH op) :=
  (s.ea_raisesWell op).bind fun _ _ => s.memRead1_raisesWell _

end

theorem checkWordBoundary_raisesWell (ea : Addr) : RaisesWell (checkWordBoundary ea) := by
  intro e h
  obtain ⟨hb, he⟩ := check_error.1 h
  cases he
  exact hb

/-! ### Work that completes or raises -/

/-- The work of an instruction: whatever it succeeds with is a completion, whatever it raises has its detail. -/
structure Works (moves pair : Bool) (k : CcrEffect) (s : State) (r : Except Stop State) : Prop where
  completes : ∀ t, r = .ok t → Completes moves pair k s t
  raises : RaisesWell r

/-- The answer of an instruction: a next state is a completion, or the state with an exception taken. -/
def Answers (moves pair : Bool) (k : CcrEffect) (s : State) (res : Result) : Prop :=
  ∀ t, res = .next t → Completes moves pair k s t ∨ ∃ e : Exception, e.detailOk ∧ t = s.takeException e

section
variable {moves pair : Bool} {k : CcrEffect} {s : State}

theorem Works.of_ok {t : State} (h : Completes moves pair k s t) : Works moves pair k s (.ok t) :=
  ⟨fun _ ht => by cases ht; exact h, .of_ok t⟩

theorem Works.of_raise {e : Exception} (he : e.detailOk) : Works moves pair k s (.error (.raise e)) :=
  ⟨fun _ ht => by (cases ht), fun _ h => by cases h; exact he⟩

theorem Works.bind {α : Type} {r : Except Stop α} {f : α → Except Stop State} (hr : RaisesWell r)
    (hf : ∀ a, r = .ok a → Works moves pair k s (f a)) : Works moves pair k s (r >>= f) := by
  refine ⟨fun t ht => ?_, hr.bind fun a ha => (hf a ha).raises⟩
  obtain ⟨a, ha, ht⟩ := bind_ok.1 ht
  exact (hf a ha).completes t ht

theorem Answers.next {t : State} (h : Completes moves pair k s t) : Answers moves pair k s (.next t) :=
  fun _ ht => by cases ht; exact .inl h

theorem Answers.finish {r : Except Stop State} (h : Works moves pair k s r) : Answers moves pair k s (s.finish r) := by
  intro t ht
  rcases State.finish_next.1 ht with ht | ⟨e, he, ht⟩
  · exact .inl (h.completes t ht)
  · exact .inr ⟨e, h.raises e he, ht⟩

theorem Answers.withRR {ind : Bool} {r2 : Reg} {work : Word → Except Stop State}
    (h : ∀ w, Works moves pair k s (work w)) : Answers moves pair k s (s.withRR ind r2 work) :=
  .finish (.bind (s.wordRR_raisesWell ind r2) fun w _ => h w)

theorem Answers.withRS {op : MemOperand} {work : Word → Except Stop State}
    (h : ∀ w, Works moves pair k s (work w)) : Answers moves pair k s (s.withRS op work) :=
  .finish (.bind (s.wordRS_raisesWell op) fun w _ => h w)

theorem Answers.withCH {op : MemOperand} {work : Byte → Except Stop State}
    (h : ∀ c, Works moves pair k s (work c)) : Answers moves pair k s (s.withCH op work) :=
  .finish (.bind (s.charCH_raisesWell op) fun c _ => h c)

theorem Answers.withEA {op : MemOperand} {work : Addr → Except Stop State}
    (h : ∀ a, Works moves pair k s (work a)) : Answers moves pair k s (s.withEA op work) :=
  .finish (.bind (s.ea_raisesWell op) fun a _ => h a)

/-! ### The work of each kind of instruction -/

/-- A register and the CCR written: loads, logic, arithmetic, shifts. -/
theorem Completes.put {r : Reg} {v : Word} {c : Ccr} (hc : k.gives pair c = true) :
    Completes moves pair k s ((s.setReg r v).setCcr c) :=
  .of_setCcr (.setReg s r v) hc

/-- The CCR alone written: compares. -/
theorem Completes.compare {c : Ccr} (hc : k.gives pair c = true) : Completes moves pair k s (s.setCcr c) :=
  .of_setCcr (.refl s) hc

theorem Works.put {r : Reg} {v : Word} {c : Ccr} (hc : k.gives pair c = true) :
    Works moves pair k s (.ok ((s.setReg r v).setCcr c)) :=
  .of_ok (.put hc)

theorem Works.compare {c : Ccr} (hc : k.gives pair c = true) : Works moves pair k s (.ok (s.setCcr c)) :=
  .of_ok (.compare hc)

theorem Works.storeWord (r1 : Reg) (loc : WordLoc) : Works moves false .gle s (s.storeWord r1 loc) :=
  .bind (s.writeW_raisesWell loc _) fun _ ht => .of_ok (.of_setCcr (KeepsControl.writeW ht).1 (gives_cmpS _ _))

theorem Works.swapWord (r1 : Reg) (loc : WordLoc) : Works moves false .gle s (s.swapWord r1 loc) :=
  .bind (s.readW_raisesWell loc) fun v _ => .bind (s.writeW_raisesWell loc _) fun t ht =>
    .of_ok (.of_setCcr ((KeepsControl.writeW ht).1.trans (.setReg t r1 v)) (gives_cmpS _ _))

/-- SAC and SACR write a word and no flag (R137, R138). -/
theorem Works.writeW (loc : WordLoc) (v : Word) : Works moves pair .none s (s.writeW loc v) :=
  ⟨fun _ ht => .of_ccr_eq (KeepsControl.writeW ht).1 (KeepsControl.writeW ht).2, s.writeW_raisesWell loc v⟩

theorem Works.memWrite1 (a : Addr) (c : Byte) : Works moves pair .none s (s.memWrite1 a c) :=
  ⟨fun _ ht => .of_ccr_eq (KeepsControl.memWrite1 ht).1 (KeepsControl.memWrite1 ht).2, s.memWrite1_raisesWell a c⟩

/-- A divide with a divisor other than zero (R222). -/
theorem Works.checkDivisor {d : Int} {t : State} (h : d ≠ 0 → Completes moves pair k s t) :
    Works moves pair k s (checkDivisor d t) := by
  unfold Machine.checkDivisor
  split_ifs with hd
  · exact .of_raise trivial
  · exact .of_ok (h hd)

theorem Works.divide (r1 : Reg) (a d : Int) : Works moves false .ogle s (s.divide r1 a d) :=
  .checkDivisor fun _ => .put (gives_arithCcr _)

theorem Works.divideFits (r1 : Reg) (a d : Int) : Works moves false .gle s (s.divideFits r1 a d) :=
  .checkDivisor fun _ => .put (gives_cmpS _ _)

theorem toInt_wordOfInt {n : Int} (h : -2 ^ 31 ≤ n) (h' : n < 2 ^ 31) : (wordOfInt n).toInt = n :=
  BitVec.toInt_ofInt_eq_self (by decide) h h'

/-- A remainder is zero or positive, so L is never set (R175, R222). -/
theorem Works.remainder (r1 : Reg) (a : Int) {d : Int} (h : -2 ^ 31 ≤ d) (h' : d ≤ 2 ^ 31) :
    Works moves false .ge s (s.remainder r1 a d) := by
  refine .checkDivisor fun hd => .put (gives_ge_cmpS ?_)
  have h0 : 0 ≤ emod a d := Int.emod_nonneg a hd
  have h1 : emod a d < |d| := Int.emod_lt_abs a hd
  have h2 : |d| ≤ 2 ^ 31 := abs_le.2 ⟨h, h'⟩
  rw [toInt_wordOfInt (by omega) (by omega)]
  exact h0

theorem Works.realset (r1 : Reg) (res : RealResult) : Works moves false .gle s (s.realset r1 res) := by
  cases res with
  | ok w => exact .put (gives_rcmp0 w)
  | realFormat => exact .of_raise trivial
  | zeroDivisor => exact .of_raise trivial

theorem Completes.fixset (r1 : Reg) (a : Word) : Completes moves true .ogle s (s.fixset r1 a) := by
  unfold State.fixset
  split_ifs
  · exact .put (gives_ogle_cmpS true _ _)
  · exact .put rfl

theorem Works.loadRange (n : Nat) (r : Reg) (a : Addr) : Works moves pair .none s (State.loadRange n r a s) :=
  ⟨fun _ ht => .of_ccr_eq (KeepsControl.loadRange ht).1 (KeepsControl.loadRange ht).2,
    .of_absent fun _ h => State.loadRange_error h⟩

theorem Works.storeRange (n : Nat) (r : Reg) (a : Addr) : Works moves pair .none s (State.storeRange n r a s) :=
  ⟨fun _ ht => .of_ccr_eq (KeepsControl.storeRange ht).1 (KeepsControl.storeRange ht).2,
    .of_absent fun _ h => State.storeRange_error h⟩

end

end Sys2Proof.Machine
end

