-- ==== Sys2Proof/Proofs/Answers.lean ====
section
/-! SUPPORT. `exec` and `step`, inverted: every next state is a completion of an instruction that is not an EX, or the state with
an exception taken. -/

namespace Sys2Proof.Machine

/-! ### Operands and results in range -/

/-- The immediate of ANDI has zeros on the left, so the result is not all ones (R117). -/
theorem and_zimm_ne_allOnes (v : Word) (imm : Imm) : v &&& zimm imm ≠ BitVec.allOnes 32 := by
  intro h
  have hbit := congrArg (BitVec.getLsbD · 31) h
  simp [zimm] at hbit

theorem word_toInt_bounds (w : Word) : -2 ^ 31 ≤ w.toInt ∧ w.toInt ≤ 2 ^ 31 := by
  have h := BitVec.le_toInt w
  have h' := BitVec.toInt_lt (x := w)
  omega

theorem imm_toInt_bounds (i : Imm) : -2 ^ 31 ≤ i.toInt ∧ i.toInt ≤ 2 ^ 31 := by
  have h := BitVec.le_toInt i
  have h' := BitVec.toInt_lt (x := i)
  omega

theorem char_toNat_bounds (c : Byte) : -2 ^ 31 ≤ (c.toNat : Int) ∧ (c.toNat : Int) ≤ 2 ^ 31 := by
  have h := c.isLt
  omega

/-- The negative of a character is not positive (R108). -/
theorem neg_char_toInt_le (c : Byte) : (wordOfInt (-(c.toNat : Int))).toInt ≤ (0 : Word).toInt := by
  have h := c.isLt
  have h0 : (0 : Word).toInt = 0 := rfl
  rw [toInt_wordOfInt (by omega) (by omega), h0]
  omega

/-- CCS leaves its descriptor and the last comparison (R144). -/
theorem answers_ccs (ign : Bool) (m1 : Mask) (r2 : Reg) (s : State) :
    Answers false false .gle s (execCCS ign m1 r2 s) := by
  refine .finish (.bind (.of_absent fun _ h => State.compareLoop_error h) fun d hd => ?_)
  refine .of_ok (.of_setCcr (.putDescriptor s r2 _ _ _) ?_)
  rcases State.compareLoop_ccr hd with h | ⟨b1, b2, h⟩ <;> rw [h]
  · rfl
  · exact gives_cmpU b1 b2

/-- MCS writes characters and its descriptor (R145). -/
theorem answers_mcs (ign : Bool) (m1 : Mask) (r2 : Reg) (s : State) :
    Answers false false .none s (execMCS ign m1 r2 s) := by
  refine .finish (.bind (.of_absent fun _ h => State.moveLoop_error h) fun t ht => ?_)
  obtain ⟨hk, hc⟩ := KeepsControl.moveLoop ht
  exact .of_ok (.of_ccr_eq (hk.trans (.putDescriptor t r2 _ _ _)) hc)

/-! ### One instruction -/

/-- What `exec` answers for an instruction other than EX, by its kind of work. -/
theorem exec_answers {i : Instr} (hi : isEX i = false) (s : State) :
    Answers (isBranch i) (setsOBesideSign i) (ccrEffect i) s (exec i s) := by
  cases i
  case ex => exact absurd hi (by simp [isEX])
  case lr => exact .withRR fun _ => .put (gives_cmpS _ _)
  case l => exact .withRS fun _ => .put (gives_cmpS _ _)
  case li | lni => exact .next (.put (gives_cmpS _ _))
  case lc => exact .withCH fun c => .put (gives_ge_cmpU_zero c)
  case lnr => exact .withRR fun v => .put (gives_loadNegative v _)
  case ln => exact .withRS fun v => .put (gives_loadNegative v _)
  case lnc => exact .withCH fun c => .put (gives_le_cmpS (neg_char_toInt_le c))
  case str => exact .finish (.storeWord _ _)
  case st => exact .withEA fun _ => .storeWord _ _
  case stc =>
    exact .withEA fun a => .bind (s.memWrite1_raisesWell a _) fun _ ht =>
      .of_ok (.of_setCcr (KeepsControl.memWrite1 ht).1 (gives_ge_cmpU_zero _))
  case swapr => exact .finish (.swapWord _ _)
  case swap => exact .withEA fun _ => .swapWord _ _
  case swapc =>
    exact .withEA fun a => .bind (s.memRead1_raisesWell a) fun c _ => .bind (s.memWrite1_raisesWell a _) fun t ht =>
      .of_ok (.of_setCcr ((KeepsControl.memWrite1 ht).1.trans (.setReg t _ _)) (gives_ge_cmpU_zero c))
  case andr | orr | xorr | notr => exact .withRR fun _ => .put (gives_classify _)
  case and | or | xor | not => exact .withRS fun _ => .put (gives_classify _)
  case andi => exact .next (.put (gives_le_classify (and_zimm_ne_allOnes _ _)))
  case ori | xori | noti => exact .next (.put (gives_classify _))
  case andc | orc | xorc | notc => exact .withCH fun _ => .put (gives_classify _)
  case bcsr | bcrr => exact .next (.branchIf s _ _)
  case bcs | bcr => exact .withEA fun _ => .of_ok (.branchIf s _ _)
  case balr => exact .next (.branchAndLink s _ _)
  case bal => exact .withEA fun _ => .of_ok (.branchAndLink s _ _)
  case sacr => exact .finish (.writeW _ _)
  case sac => exact .withEA fun _ => .writeW _ _
  case sacc => exact .withEA fun _ => .memWrite1 _ _
  case cr => exact .withRR fun _ => .compare (gives_cmpS _ _)
  case c => exact .withRS fun _ => .compare (gives_cmpS _ _)
  case ci => exact .next (.compare (gives_cmpS _ _))
  case cc => exact .withCH fun _ => .compare (gives_cmpU _ _)
  case ccs ign m1 r2 => exact answers_ccs ign m1 r2 s
  case mcs ign m1 r2 => exact answers_mcs ign m1 r2 s
  case svc => exact .withEA fun ea => .of_ok (.supervisorCall s _ ea)
  case la => exact .withEA fun _ => .of_ok (.of_ccr_eq (.setReg s _ _) rfl)
  case lm =>
    exact .finish (.bind ((s.ea_raisesWell _).bind fun ea _ => checkWordBoundary_raisesWell ea) fun _ _ =>
      .loadRange _ _ _)
  case stm =>
    exact .finish (.bind ((s.ea_raisesWell _).bind fun ea _ => checkWordBoundary_raisesWell ea) fun _ _ =>
      .storeRange _ _ _)
  case ar | sr | rsr | mr => exact .withRR fun _ => .put (gives_arithCcr _)
  case a | s | rs | m => exact .withRS fun _ => .put (gives_arithCcr _)
  case ai | si | rsi | mi => exact .next (.put (gives_arithCcr _))
  case ac | sc | rsc | mc => exact .withCH fun _ => .put (gives_arithCcr _)
  case dr | rdr => exact .withRR fun _ => .divide _ _ _
  case d | rd => exact .withRS fun _ => .divide _ _ _
  case di => exact .finish (.divide _ _ _)
  case rdi => exact .finish (.divideFits _ _ _)
  case dc | rdc => exact .withCH fun _ => .divideFits _ _ _
  case remr => exact .withRR fun w => .remainder _ _ (word_toInt_bounds w).1 (word_toInt_bounds w).2
  case rem => exact .withRS fun w => .remainder _ _ (word_toInt_bounds w).1 (word_toInt_bounds w).2
  case remi imm => exact .finish (.remainder _ _ (imm_toInt_bounds imm).1 (imm_toInt_bounds imm).2)
  case remc => exact .withCH fun c => .remainder _ _ (char_toNat_bounds c).1 (char_toNat_bounds c).2
  case rremr => exact .withRR fun _ => .remainder _ _ (word_toInt_bounds _).1 (word_toInt_bounds _).2
  case rrem => exact .withRS fun _ => .remainder _ _ (word_toInt_bounds _).1 (word_toInt_bounds _).2
  case rremi => exact .finish (.remainder _ _ (word_toInt_bounds _).1 (word_toInt_bounds _).2)
  case rremc => exact .withCH fun _ => .remainder _ _ (word_toInt_bounds _).1 (word_toInt_bounds _).2
  case far | fsr | rfsr | fmr | fdr | rfdr => exact .withRR fun _ => .realset _ _
  case fa | fs | rfs | fm | fd | rfd => exact .withRS fun _ => .realset _ _
  case fai | fsi | rfsi | fmi | fdi | rfdi => exact .finish (.realset _ _)
  case floatr => exact .withRR fun _ => .put (gives_rcmp0 _)
  case float | floor | ceil => exact .withRS fun _ => .put (gives_rcmp0 _)
  case floati => exact .next (.put (gives_rcmp0 _))
  case fixr => exact .withRR fun _ => .of_ok (.fixset _ _)
  case fix => exact .withRS fun _ => .of_ok (.fixset _ _)
  case fixi => exact .next (.fixset _ _)
  case min => exact .withRS fun _ => .put (gives_le_cmpS (by split_ifs <;> omega))
  case max => exact .withRS fun _ => .put (gives_ge_cmpS (by split_ifs <;> omega))
  case shiftl | shifta => exact .withEA fun _ => .put (gives_cmpS_withO _ _ _)
  case shiftc => exact .withEA fun _ => .put (gives_cmpS_withO_false _ _)
  case shiftr => exact .withEA fun _ => .realset _ _

/-! ### EX and the cycle (R64, R147) -/

/-- Every assigned opcode is some instruction's, whatever the other fields hold: by the 128 opcodes (R65, R66). -/
theorem instr?_isSome {f : Fields} (h : isAssigned f.opcode = true) : ∃ i, f.instr? = some i := by
  have key : ∀ op : Opcode, isAssigned op = true → (Fields.mk f.indirect op f.n1 f.n2 f.low).instr?.isSome = true :=
    of_decide_eq_true rfl
  exact Option.isSome_iff_exists.1 (key f.opcode h)

theorem decoded_of_some {f : Fields} {i : Instr} (h : f.instr? = some i) (rest : List Byte) :
    f.decoded rest = .ok (i, rest) := by
  simp [Fields.decoded, h]

/-- As many characters as an assigned opcode asks for decode (R52, R66). -/
theorem State.decode_instrBytes {s : State} {a : Addr} (h : isAssigned (opcodeOf (s.byteAt a)) = true) :
    ∃ i, decode (s.instrBytes a (instrLength (opcodeOf (s.byteAt a)))) = .ok (i, []) := by
  unfold instrLength
  split_ifs with hs
  · obtain ⟨i, hi⟩ := instr?_isSome (f := .ofShort (s.byteAt a) (s.byteAt (a + 1))) h
    refine ⟨i, ?_⟩
    simp only [State.instrBytes_two, decode, h, hs, Bool.not_true, Bool.false_eq_true, if_false, if_true]
    exact decoded_of_some hi []
  · obtain ⟨i, hi⟩ :=
      instr?_isSome (f := .ofBytes (s.byteAt a) (s.byteAt (a + 1)) (s.byteAt (a + 2)) (s.byteAt (a + 3))) h
    refine ⟨i, ?_⟩
    simp only [State.instrBytes_four, decode, h, hs, Bool.not_true, Bool.false_eq_true, if_false]
    exact decoded_of_some hi []

/-- A fetch that raises an exception found an unassigned opcode (R66). -/
theorem State.fetchAt_raise {s : State} {a : Addr} {e : Exception} (h : s.fetchAt a = .error (.raise e)) :
    e = .unimplementedInstruction a (opcodeOf (s.byteAt a)) ∧ isAssigned (opcodeOf (s.byteAt a)) = false := by
  have he : e = .unimplementedInstruction a (opcodeOf (s.byteAt a)) := by
    rcases State.fetchAt_error h with h' | h' <;> cases h'
    rfl
  refine ⟨he, Bool.eq_false_iff.2 fun ha => ?_⟩
  obtain ⟨i, hi⟩ := State.decode_instrBytes ha
  unfold State.fetchAt at h
  rcases bind_error.1 h with h | ⟨c, hc, h⟩
  · cases (State.memRead1_error.1 h).2
  · obtain ⟨-, rfl⟩ := State.memRead1_ok.1 hc
    simp only [ha, if_true, hi] at h
    split_ifs at h
    cases h

/-- A chain of EX raises exceptions with the details of their causes (R147, R260). -/
theorem State.exSubject_raisesWell (s : State) (n : Nat) (op : MemOperand) : RaisesWell (s.exSubject n op) := by
  intro e h
  rcases State.exSubject_error h with h | ⟨a, h⟩ | ⟨a, ha, h⟩ | ⟨a, ha, h⟩ | ⟨a, op', ha, hf, h⟩ <;> cases h
  · exact ha
  · exact ha
  · obtain ⟨he, hop⟩ := State.fetchAt_raise hf
    cases he
    exact ⟨ha, hop⟩

/-- A next state of any instruction is one of an instruction that is not an EX, namely itself or its subject, or has the
exception of a chain taken (R147). -/
theorem exec_subject {i : Instr} {s t : State} (h : exec i s = .next t) :
    (∃ j, isEX j = false ∧ exec j s = .next t) ∨ ∃ e : Exception, e.detailOk ∧ t = s.takeException e := by
  by_cases hx : isEX i = true
  · obtain ⟨r1, op, rfl⟩ : ∃ r1 op, i = .ex r1 op := by cases i <;> simp [isEX] at hx ⊢
    rw [execEX_eq] at h
    cases hsub : s.exSubject exLinks op with
    | ok j =>
      rw [hsub] at h
      exact .inl ⟨j, State.exSubject_not_ex hsub, h⟩
    | error e =>
      rw [hsub] at h
      obtain ⟨x, rfl, ht⟩ := State.stop_next.1 h
      exact .inr ⟨x, State.exSubject_raisesWell s _ op x hsub, ht⟩
  · exact .inl ⟨i, by simpa using hx, h⟩

/-- Every next state of any instruction: a completion of an instruction that is not an EX, or an exception taken. -/
theorem exec_next {i : Instr} {s t : State} (h : exec i s = .next t) :
    (∃ j, isEX j = false ∧ exec j s = .next t ∧ Completes (isBranch j) (setsOBesideSign j) (ccrEffect j) s t) ∨
      ∃ e : Exception, e.detailOk ∧ t = s.takeException e := by
  rcases exec_subject h with ⟨j, hj, ht⟩ | he
  · exact (exec_answers hj s t ht).imp_left fun hc => ⟨j, hj, ht, hc⟩
  · exact .inr he

/-- A completion is no fault. -/
theorem Completes.outcome_ne_fault {moves pair : Bool} {k : CcrEffect} {s t : State} (h : Completes moves pair k s t)
    (hs : s.outcome = .running) (e : Exception) (a : Addr) : t.outcome ≠ .fault e a := by
  rcases h.outcome with ho | ⟨r, ea, ho⟩ <;> rw [ho]
  · simp [hs]
  · simp

/-- A next state that is no fault is a completion (R261). -/
theorem exec_completes {i : Instr} {s t : State} (hi : isEX i = false) (h : exec i s = .next t)
    (hf : ∀ e a, t.outcome ≠ .fault e a) : Completes (isBranch i) (setsOBesideSign i) (ccrEffect i) s t := by
  rcases exec_answers hi s t h with hc | ⟨e, -, rfl⟩
  · exact hc
  · exact absurd rfl (hf e s.ia)

/-- Every next state of a cycle: the exception of its fetch, or what the instruction it fetched at an even pc gives (R64). -/
theorem step_next {s t : State} (h : step s = .next t) :
    s.outcome = .running ∧
      ((∃ e, s.fetch = .error (.raise e) ∧ t = s.beginCycle.takeException e) ∨
        ∃ f, isEven s.pc = true ∧ s.fetch = .ok f ∧ exec f.instr (s.beginCycle.advance f.length) = .next t) := by
  unfold step at h
  cases ho : s.outcome with
  | running =>
    refine ⟨rfl, ?_⟩
    cases hf : s.fetch with
    | ok f =>
      have he : isEven s.pc = true := by
        by_contra hne
        simp [State.fetch, hne] at hf
      exact .inr ⟨f, he, rfl, by simpa [ho, hf] using h⟩
    | error e =>
      obtain ⟨x, rfl, ht⟩ := State.stop_next.1 (by simpa [ho, hf] using h)
      exact .inl ⟨x, rfl, ht⟩
  | fault e a => simp [ho] at h
  | supervisorCall a r ea => simp [ho] at h

end Sys2Proof.Machine
end

