-- ==== Sys2Proof/Proofs/Cycle.lean ====
section
/-! SUPPORT. The fetch of an encoded instruction, and the exceptions of a fetch (R64). -/

namespace Sys2Proof

/-- The fields of every instruction are read back: `Laws.FieldsReadBack`, all 114 together. -/
theorem fieldsReadBack : ∀ i : Instr, Laws.FieldsReadBack.Statement i
  | .lr ind r1 r2 => Laws.FieldsReadBack.lr ind r1 r2
  | .l r1 op => Laws.FieldsReadBack.l r1 op
  | .li ign r1 imm => Laws.FieldsReadBack.li ign r1 imm
  | .lc r1 op => Laws.FieldsReadBack.lc r1 op
  | .lnr ind r1 r2 => Laws.FieldsReadBack.lnr ind r1 r2
  | .ln r1 op => Laws.FieldsReadBack.ln r1 op
  | .lni ign r1 imm => Laws.FieldsReadBack.lni ign r1 imm
  | .lnc r1 op => Laws.FieldsReadBack.lnc r1 op
  | .str ind r1 r2 => Laws.FieldsReadBack.str ind r1 r2
  | .st r1 op => Laws.FieldsReadBack.st r1 op
  | .stc r1 op => Laws.FieldsReadBack.stc r1 op
  | .swapr ind r1 r2 => Laws.FieldsReadBack.swapr ind r1 r2
  | .swap r1 op => Laws.FieldsReadBack.swap r1 op
  | .swapc r1 op => Laws.FieldsReadBack.swapc r1 op
  | .andr ind r1 r2 => Laws.FieldsReadBack.andr ind r1 r2
  | .and r1 op => Laws.FieldsReadBack.and r1 op
  | .andi ign r1 imm => Laws.FieldsReadBack.andi ign r1 imm
  | .andc r1 op => Laws.FieldsReadBack.andc r1 op
  | .orr ind r1 r2 => Laws.FieldsReadBack.orr ind r1 r2
  | .or r1 op => Laws.FieldsReadBack.or r1 op
  | .ori ign r1 imm => Laws.FieldsReadBack.ori ign r1 imm
  | .orc r1 op => Laws.FieldsReadBack.orc r1 op
  | .xorr ind r1 r2 => Laws.FieldsReadBack.xorr ind r1 r2
  | .xor r1 op => Laws.FieldsReadBack.xor r1 op
  | .xori ign r1 imm => Laws.FieldsReadBack.xori ign r1 imm
  | .xorc r1 op => Laws.FieldsReadBack.xorc r1 op
  | .notr ind r1 r2 => Laws.FieldsReadBack.notr ind r1 r2
  | .not r1 op => Laws.FieldsReadBack.not r1 op
  | .noti ign r1 imm => Laws.FieldsReadBack.noti ign r1 imm
  | .notc r1 op => Laws.FieldsReadBack.notc r1 op
  | .bcsr ind m1 r2 => Laws.FieldsReadBack.bcsr ind m1 r2
  | .bcs m1 op => Laws.FieldsReadBack.bcs m1 op
  | .bcrr ind m1 r2 => Laws.FieldsReadBack.bcrr ind m1 r2
  | .bcr m1 op => Laws.FieldsReadBack.bcr m1 op
  | .balr ind r1 r2 => Laws.FieldsReadBack.balr ind r1 r2
  | .bal r1 op => Laws.FieldsReadBack.bal r1 op
  | .sacr ind m1 r2 => Laws.FieldsReadBack.sacr ind m1 r2
  | .sac m1 op => Laws.FieldsReadBack.sac m1 op
  | .sacc m1 op => Laws.FieldsReadBack.sacc m1 op
  | .cr ind r1 r2 => Laws.FieldsReadBack.cr ind r1 r2
  | .c r1 op => Laws.FieldsReadBack.c r1 op
  | .ci ign r1 imm => Laws.FieldsReadBack.ci ign r1 imm
  | .cc r1 op => Laws.FieldsReadBack.cc r1 op
  | .ccs ign m1 r2 => Laws.FieldsReadBack.ccs ign m1 r2
  | .mcs ign m1 r2 => Laws.FieldsReadBack.mcs ign m1 r2
  | .svc r1 op => Laws.FieldsReadBack.svc r1 op
  | .ex r1 op => Laws.FieldsReadBack.ex r1 op
  | .la r1 op => Laws.FieldsReadBack.la r1 op
  | .lm ind r1 r2 addr => Laws.FieldsReadBack.lm ind r1 r2 addr
  | .stm ind r1 r2 addr => Laws.FieldsReadBack.stm ind r1 r2 addr
  | .ar ind r1 r2 => Laws.FieldsReadBack.ar ind r1 r2
  | .a r1 op => Laws.FieldsReadBack.a r1 op
  | .ai ign r1 imm => Laws.FieldsReadBack.ai ign r1 imm
  | .ac r1 op => Laws.FieldsReadBack.ac r1 op
  | .sr ind r1 r2 => Laws.FieldsReadBack.sr ind r1 r2
  | .s r1 op => Laws.FieldsReadBack.s r1 op
  | .si ign r1 imm => Laws.FieldsReadBack.si ign r1 imm
  | .sc r1 op => Laws.FieldsReadBack.sc r1 op
  | .rsr ind r1 r2 => Laws.FieldsReadBack.rsr ind r1 r2
  | .rs r1 op => Laws.FieldsReadBack.rs r1 op
  | .rsi ign r1 imm => Laws.FieldsReadBack.rsi ign r1 imm
  | .rsc r1 op => Laws.FieldsReadBack.rsc r1 op
  | .mr ind r1 r2 => Laws.FieldsReadBack.mr ind r1 r2
  | .m r1 op => Laws.FieldsReadBack.m r1 op
  | .mi ign r1 imm => Laws.FieldsReadBack.mi ign r1 imm
  | .mc r1 op => Laws.FieldsReadBack.mc r1 op
  | .dr ind r1 r2 => Laws.FieldsReadBack.dr ind r1 r2
  | .d r1 op => Laws.FieldsReadBack.d r1 op
  | .di ign r1 imm => Laws.FieldsReadBack.di ign r1 imm
  | .dc r1 op => Laws.FieldsReadBack.dc r1 op
  | .rdr ind r1 r2 => Laws.FieldsReadBack.rdr ind r1 r2
  | .rd r1 op => Laws.FieldsReadBack.rd r1 op
  | .rdi ign r1 imm => Laws.FieldsReadBack.rdi ign r1 imm
  | .rdc r1 op => Laws.FieldsReadBack.rdc r1 op
  | .remr ind r1 r2 => Laws.FieldsReadBack.remr ind r1 r2
  | .rem r1 op => Laws.FieldsReadBack.rem r1 op
  | .remi ign r1 imm => Laws.FieldsReadBack.remi ign r1 imm
  | .remc r1 op => Laws.FieldsReadBack.remc r1 op
  | .rremr ind r1 r2 => Laws.FieldsReadBack.rremr ind r1 r2
  | .rrem r1 op => Laws.FieldsReadBack.rrem r1 op
  | .rremi ign r1 imm => Laws.FieldsReadBack.rremi ign r1 imm
  | .rremc r1 op => Laws.FieldsReadBack.rremc r1 op
  | .far ind r1 r2 => Laws.FieldsReadBack.far ind r1 r2
  | .fa r1 op => Laws.FieldsReadBack.fa r1 op
  | .fai ign r1 imm => Laws.FieldsReadBack.fai ign r1 imm
  | .fsr ind r1 r2 => Laws.FieldsReadBack.fsr ind r1 r2
  | .fs r1 op => Laws.FieldsReadBack.fs r1 op
  | .fsi ign r1 imm => Laws.FieldsReadBack.fsi ign r1 imm
  | .rfsr ind r1 r2 => Laws.FieldsReadBack.rfsr ind r1 r2
  | .rfs r1 op => Laws.FieldsReadBack.rfs r1 op
  | .rfsi ign r1 imm => Laws.FieldsReadBack.rfsi ign r1 imm
  | .fmr ind r1 r2 => Laws.FieldsReadBack.fmr ind r1 r2
  | .fm r1 op => Laws.FieldsReadBack.fm r1 op
  | .fmi ign r1 imm => Laws.FieldsReadBack.fmi ign r1 imm
  | .fdr ind r1 r2 => Laws.FieldsReadBack.fdr ind r1 r2
  | .fd r1 op => Laws.FieldsReadBack.fd r1 op
  | .fdi ign r1 imm => Laws.FieldsReadBack.fdi ign r1 imm
  | .rfdr ind r1 r2 => Laws.FieldsReadBack.rfdr ind r1 r2
  | .rfd r1 op => Laws.FieldsReadBack.rfd r1 op
  | .rfdi ign r1 imm => Laws.FieldsReadBack.rfdi ign r1 imm
  | .floatr ind r1 r2 => Laws.FieldsReadBack.floatr ind r1 r2
  | .float r1 op => Laws.FieldsReadBack.float r1 op
  | .floati ign r1 imm => Laws.FieldsReadBack.floati ign r1 imm
  | .fixr ind r1 r2 => Laws.FieldsReadBack.fixr ind r1 r2
  | .fix r1 op => Laws.FieldsReadBack.fix r1 op
  | .fixi ign r1 imm => Laws.FieldsReadBack.fixi ign r1 imm
  | .floor r1 op => Laws.FieldsReadBack.floor r1 op
  | .ceil r1 op => Laws.FieldsReadBack.ceil r1 op
  | .min r1 op => Laws.FieldsReadBack.min r1 op
  | .max r1 op => Laws.FieldsReadBack.max r1 op
  | .shiftl r1 op => Laws.FieldsReadBack.shiftl r1 op
  | .shiftc r1 op => Laws.FieldsReadBack.shiftc r1 op
  | .shifta r1 op => Laws.FieldsReadBack.shifta r1 op
  | .shiftr r1 op => Laws.FieldsReadBack.shiftr r1 op

end Sys2Proof

namespace Sys2Proof.Machine

/-- The characters of a well-formed instruction at an even pc are fetched as that instruction (R64 steps 1 to 4). -/
theorem State.fetch_encode {s : State} {i : Instr} (he : isEven s.pc = true) (hw : i.wf = true)
    (hp : s.present s.pc (encode i).length = true) (hb : s.instrBytes s.pc (encode i).length = encode i) :
    s.fetch = .ok ⟨i, (encode i).length⟩ := by
  obtain ⟨hi, ha, hs⟩ := fieldsReadBack i hw
  have hl : (encode i).length = instrLength i.fields.opcode := Fields.toBytes_length i.fields
  rw [hl] at hp hb ⊢
  rw [State.fetch, if_pos he, State.fetchAt_of_fields hi ha hs hp hb]

/-- At an odd pc the fetch raises the illegal instruction address exception (R15). -/
theorem State.fetch_odd {s : State} (h : isEven s.pc = false) :
    s.fetch = .error (.raise (.illegalInstructionAddress s.pc)) := by
  simp [State.fetch, h]

/-- At an even pc the one exception of the fetch is that of an unassigned opcode (R66). -/
theorem State.fetch_even_raise {s : State} {e : Exception} (he : isEven s.pc = true)
    (h : s.fetch = .error (.raise e)) : ∃ op, e = .unimplementedInstruction s.pc op ∧ isAssigned op = false := by
  rw [State.fetch, if_pos he] at h
  exact ⟨_, State.fetchAt_raise h⟩

end Sys2Proof.Machine
end

