-- ==== Sys2Proof/Proofs/Invariant.lean ====
section
/-! SUPPORT. The invariant `State.Inv` over completions, exceptions and the cycle. -/

namespace Sys2Proof.Machine

/-- An exception whose detail its cause gives ends a run as R260 to R263 say, if the instruction's address is even. -/
theorem State.outcomeOk_takeException {s : State} {e : Exception} (hia : isEven s.ia = true) (he : e.detailOk) :
    (s.takeException e).outcomeOk := by
  cases e with
  | illegalInstructionAddress p => exact he.elim
  | unimplementedInstruction a op => exact ⟨rfl, rfl, hia, he⟩
  | indirectAddress a => exact ⟨rfl, rfl, hia, he⟩
  | wordAddressing ea => exact ⟨rfl, rfl, hia, he⟩
  | executeAddress ea => exact ⟨rfl, rfl, hia, he⟩
  | zeroDivisor => exact ⟨rfl, rfl, hia⟩
  | realFormat => exact ⟨rfl, rfl, hia⟩

/-- A completion from a running state ends the run only by a supervisor call (R267). -/
theorem Completes.outcomeOk {moves pair : Bool} {k : CcrEffect} {s t : State} (h : Completes moves pair k s t)
    (hs : s.outcome = .running) (hia : isEven s.ia = true) : t.outcomeOk := by
  unfold State.outcomeOk
  rcases h.outcome with ho | ⟨r, ea, ho⟩ <;> rw [ho]
  · rw [hs]; trivial
  · exact ⟨h.ia, hia⟩

theorem Completes.legal {moves pair : Bool} {k : CcrEffect} {s t : State} (h : Completes moves pair k s t)
    (hs : s.ccr.legal = true) : t.ccr.legal = true := by
  by_cases hk : k = .none
  · rwa [h.ccr_none hk]
  · exact CcrEffect.legal_of_gives (h.ccr_gives hk)

theorem Completes.inv {moves pair : Bool} {k : CcrEffect} {s t : State} (h : Completes moves pair k s t) (hs : s.Inv)
    (hr : s.outcome = .running) (hia : isEven s.ia = true) : t.Inv :=
  ⟨h.mem hs.mem, by rw [h.params]; exact hs.params, h.legal hs.ccr, h.outcomeOk hr hia⟩

/-- Every instruction keeps the invariant and the parameters, executed from the address of an instruction that was fetched. -/
theorem exec_keeps_inv {i : Instr} {s t : State} (h : exec i s = .next t) (hs : s.Inv) (hr : s.outcome = .running)
    (hia : isEven s.ia = true) : t.Inv ∧ t.params = s.params := by
  rcases exec_next h with ⟨j, -, -, hc⟩ | ⟨e, he, rfl⟩
  · exact ⟨hc.inv hs hr hia, hc.params⟩
  · exact ⟨⟨hs.mem, hs.params, hs.ccr, State.outcomeOk_takeException hia he⟩, rfl⟩

/-- A running state keeps the invariant when a cycle begins. -/
theorem State.Inv.beginCycle_advance {s : State} (h : s.Inv) (hr : s.outcome = .running) (n : Nat) :
    (s.beginCycle.advance n).Inv := by
  refine ⟨h.mem, h.params, h.ccr, ?_⟩
  unfold State.outcomeOk
  rw [State.advance_outcome, State.beginCycle_outcome, hr]
  trivial

/-- The exception of a fetch ends a run as R260 to R263 say. -/
theorem State.outcomeOk_of_fetch_raise {s : State} {e : Exception} (h : s.fetch = .error (.raise e)) :
    (s.beginCycle.takeException e).outcomeOk := by
  cases hp : isEven s.pc with
  | false =>
    rw [State.fetch_odd hp] at h
    cases h
    exact ⟨rfl, rfl, rfl, hp⟩
  | true =>
    obtain ⟨op, rfl, hop⟩ := State.fetch_even_raise hp h
    exact State.outcomeOk_takeException hp ⟨hp, hop⟩

/-- Every cycle keeps the invariant and the parameters. -/
theorem step_keeps_inv {s t : State} (hs : s.Inv) (h : step s = .next t) : t.Inv ∧ t.params = s.params := by
  obtain ⟨hr, ⟨e, hf, rfl⟩ | ⟨f, he, -, hx⟩⟩ := step_next h
  · exact ⟨⟨hs.mem, hs.params, hs.ccr, State.outcomeOk_of_fetch_raise hf⟩, rfl⟩
  · obtain ⟨hinv, hpar⟩ := exec_keeps_inv hx (hs.beginCycle_advance hr f.length) hr he
    exact ⟨hinv, hpar⟩

theorem State.reset_reg (r : Reg) : State.reset.reg r = 0 := by
  simp [State.reset, State.reg]

theorem State.reset_inv : State.reset.Inv := ⟨rfl, by decide, rfl, trivial⟩

end Sys2Proof.Machine

open Sys2Proof Sys2Proof.Machine

/-- Settles O29: `exec_next` says what an instruction can do, `step_next` what a cycle can. -/
theorem stepKeepsInvariant : Obligations.StepKeepsInvariant := by
  unfold Obligations.StepKeepsInvariant
  exact fun _ _ => step_keeps_inv

/-- Settles O30: the fields of `State.reset`, read off. -/
theorem resetMeetsInvariant : Obligations.ResetMeetsInvariant := by
  unfold Obligations.ResetMeetsInvariant
  exact ⟨State.reset_inv, rfl, rfl, rfl, State.reset_reg, rfl, fun _ => rfl, rfl⟩

end

