-- ==== Sys2Proof/Proofs/CcrAndPc.lean ====
section
/-! SUPPORT. The statements about the CCR column of every instruction and about pc (R15 to R17, R19, R23). -/

open Sys2Proof Sys2Proof.Machine

/-- Settles O15: `exec_answers` gives every completion its column; an exception leaves the CCR; an EX is its subject. -/
theorem ccrColumnOfEveryInstruction : Obligations.CcrColumnOfEveryInstruction := by
  unfold Obligations.CcrColumnOfEveryInstruction
  intro i s t hr h
  refine ⟨fun e a ho => ?_, fun hf hi => ?_, fun _ hf => ?_⟩
  · rcases exec_next h with ⟨j, -, -, hc⟩ | ⟨x, -, rfl⟩
    · exact absurd ho (hc.outcome_ne_fault hr e a)
    · exact State.takeException_ccr s x
  · have hc := exec_completes hi h hf
    have column (hk : ccrEffect i ≠ .none) := CcrEffect.gives_iff.1 (hc.ccr_gives hk)
    refine ⟨hc.ccr_none, fun hk => (column hk).2.1, fun hk ho hg => ?_⟩
    exact (setsOBesideSign_iff i).1 ((column hk).2.2 ho hg)
  · rcases exec_subject h with hj | ⟨x, -, rfl⟩
    · exact hj
    · exact absurd (State.takeException_outcome s x) (hf x s.ia)

/-- Settles O18: the fetch tests pc before anything else; what an instruction raises has another cause; a branch does not look at
its target. -/
theorem oddPcRaisesAtCycleStart : Obligations.OddPcRaisesAtCycleStart := by
  unfold Obligations.OddPcRaisesAtCycleStart
  refine ⟨fun s hr hp => ?_, fun s t p a hr hp h ho => ?_, fun s r1 r2 x a _ => ⟨rfl, fun hx => ?_⟩⟩
  · have hf := State.fetch_odd (s := s) (by simp [isEven, hp])
    simp only [step, hr, hf]
    rfl
  · have he : isEven s.pc = true := by simp [isEven, hp]
    obtain ⟨-, ⟨e, hf, rfl⟩ | ⟨f, -, -, hx⟩⟩ := step_next h
    · obtain ⟨op, rfl, -⟩ := State.fetch_even_raise he hf
      cases ho
    · rcases exec_next hx with ⟨j, -, -, hc⟩ | ⟨e, hd, rfl⟩
      · exact hc.outcome_ne_fault hr _ _ ho
      · cases ho
        exact hd
  · show Host.Outcome.next (s.branchAndLink r1 (lowHalf (s.reg r2))) = _
    rw [hx]
    rfl

/-- Settles O23: a completion keeps pc unless it is a branch's, and the cycle has moved pc past the instruction before. -/
theorem pcIsWrittenOnlyByBranches : Obligations.PcIsWrittenOnlyByBranches := by
  unfold Obligations.PcIsWrittenOnlyByBranches
  refine ⟨fun i s t _ hb hx h hf => (exec_completes hx h hf).pc hb, fun i s t _ hb hx hw hp hbytes h hf => ?_⟩
  obtain ⟨-, ⟨e, -, rfl⟩ | ⟨f, he, hfetch, hexec⟩⟩ := step_next h
  · exact absurd rfl (hf e s.pc)
  · rw [State.fetch_encode he hw hp hbytes] at hfetch
    cases hfetch
    exact (exec_completes hx hexec hf).pc hb

end

