-- ==== Sys2Proof/Proofs/MemoryFrame.lean ====
section
/-! SUPPORT. Which instructions write memory (R35, R36): the frame of every other one, by the kind of its work. -/

namespace Sys2Proof.Machine

/-- Whatever state the work of an instruction succeeds with has the memory of s. -/
def LeavesMemory (s : State) (r : Except Stop State) : Prop := ∀ t, r = .ok t → t.mem = s.mem

/-- Whatever next state an instruction answers has the memory of s. -/
def AnswersSameMemory (s : State) (res : Result) : Prop := ∀ t, res = .next t → t.mem = s.mem

section
variable {s : State}

/-! ### Work that writes no memory -/

theorem LeavesMemory.of_ok {t : State} (h : t.mem = s.mem) : LeavesMemory s (.ok t) := fun _ ht => by cases ht; exact h

theorem LeavesMemory.bind {α : Type} {r : Except Stop α} {f : α → Except Stop State} (hf : ∀ a, LeavesMemory s (f a)) :
    LeavesMemory s (r >>= f) := by
  intro t ht
  obtain ⟨a, -, ht⟩ := bind_ok.1 ht
  exact hf a t ht

/-- Every divide and every remainder writes a register, or raises (R222). -/
theorem LeavesMemory.checkDivisor {d : Int} {t : State} (h : t.mem = s.mem) :
    LeavesMemory s (Machine.checkDivisor d t) := by
  unfold Machine.checkDivisor
  split_ifs with hd
  · exact fun _ ht => by cases ht
  · exact .of_ok h

/-- Every real operation writes a register, or raises (R225). -/
theorem LeavesMemory.realset (r1 : Reg) (res : RealResult) : LeavesMemory s (s.realset r1 res) := by
  cases res with
  | ok w => exact .of_ok rfl
  | realFormat | zeroDivisor => exact fun _ ht => by cases ht

theorem LeavesMemory.loadRange (n : Nat) (r : Reg) (a : Addr) : LeavesMemory s (State.loadRange n r a s) := by
  intro t ht
  obtain ⟨-, -, hmem, -⟩ := State.loadRange_keeps ht
  exact hmem

theorem State.fixset_mem (s : State) (r1 : Reg) (w : Word) : (s.fixset r1 w).mem = s.mem := by
  unfold State.fixset
  split_ifs <;> rfl

theorem State.branchIf_mem (s : State) (b : Bool) (a : Addr) : (s.branchIf b a).mem = s.mem := by
  cases b <;> rfl

/-! ### Instructions that write no memory -/

theorem AnswersSameMemory.next {t : State} (h : t.mem = s.mem) : AnswersSameMemory s (.next t) :=
  fun _ ht => by cases ht; exact h

/-- An exception writes no memory (R261), so only the work counts. -/
theorem AnswersSameMemory.finish {r : Except Stop State} (h : LeavesMemory s r) : AnswersSameMemory s (s.finish r) := by
  intro t ht
  rcases State.finish_next.1 ht with ht | ⟨e, -, rfl⟩
  · exact h t ht
  · rfl

/-- An instruction that reads its operand, or computes its address, and then works. -/
theorem AnswersSameMemory.operand {α : Type} {r : Except Stop α} {work : α → Except Stop State}
    (h : ∀ a, LeavesMemory s (work a)) : AnswersSameMemory s (s.finish (r >>= work)) :=
  .finish (.bind h)

end

/-- An instruction that is no store and no EX leaves memory as it was, whether it completes or raises: by its kind of work. -/
theorem exec_sameMemory {i : Instr} (hst : storesToMemory i = false) (hex : isEX i = false) (s : State) :
    AnswersSameMemory s (exec i s) := by
  cases i
  case ex => exact absurd hex (by simp [isEX])
  case str | st | stc | swapr | swap | swapc | sacr | sac | sacc | mcs | stm =>
    exact absurd hst (by simp [storesToMemory])
  case lr | lnr | andr | orr | xorr | notr | cr | ar | sr | rsr | mr | floatr => exact .operand fun _ => .of_ok rfl
  case l | ln | and | or | xor | not | c | a | s | rs | m | float | floor | ceil | min | max =>
    exact .operand fun _ => .of_ok rfl
  case lc | lnc | andc | orc | xorc | notc | cc | ac | sc | rsc | mc => exact .operand fun _ => .of_ok rfl
  case la | bal | svc | shiftl | shiftc | shifta => exact .operand fun _ => .of_ok rfl
  case li | lni | andi | ori | xori | noti | ci | ai | si | rsi | mi | floati | balr => exact .next rfl
  case bcsr | bcrr => exact .next (State.branchIf_mem s _ _)
  case bcs | bcr => exact .operand fun _ => .of_ok (State.branchIf_mem s _ _)
  case ccs => exact .operand fun _ => .of_ok rfl
  case lm => exact .operand fun _ => .loadRange _ _ _
  case dr | d | dc | rdr | rd | rdc | remr | rem | remc | rremr | rrem | rremc =>
    exact .operand fun _ => .checkDivisor rfl
  case di | rdi | remi | rremi => exact .finish (.checkDivisor rfl)
  case far | fa | fsr | fs | rfsr | rfs | fmr | fm | fdr | fd | rfdr | rfd | shiftr =>
    exact .operand fun _ => .realset _ _
  case fai | fsi | rfsi | fmi | fdi | rfdi => exact .finish (.realset _ _)
  case fixr | fix => exact .operand fun _ => .of_ok (State.fixset_mem s _ _)
  case fixi => exact .next (State.fixset_mem s _ _)

/-- No instruction changes the parameters, whether it completes or raises. -/
theorem exec_params {i : Instr} {s t : State} (h : exec i s = .next t) : t.params = s.params := by
  rcases exec_next h with ⟨j, -, -, hc⟩ | ⟨e, -, rfl⟩
  · exact hc.params
  · rfl

/-- Without register sharing every character is memory's (R14). -/
theorem State.byteAt_congr_of_none {s t : State} (hs : s.params.regMemAlias = .none) (hp : t.params = s.params)
    (hm : t.mem = s.mem) (a : Addr) : t.byteAt a = s.byteAt a := by
  rw [State.byteAt_of_not_inRegs (State.inRegs_of_none hs a),
    State.byteAt_of_not_inRegs (State.inRegs_of_none (by rw [hp]; exact hs) a), hm]

/-- Without register sharing an instruction that is no store and no EX leaves every character as it was. -/
theorem exec_keeps_memory {i : Instr} {s t : State} (hs : s.params.regMemAlias = .none)
    (hst : storesToMemory i = false) (hex : isEX i = false) (h : exec i s = .next t) :
    t.mem = s.mem ∧ ∀ a, t.byteAt a = s.byteAt a := by
  have hm : t.mem = s.mem := exec_sameMemory hst hex s t h
  exact ⟨hm, State.byteAt_congr_of_none hs (exec_params h) hm⟩

end Sys2Proof.Machine

open Sys2Proof Sys2Proof.Machine

/-- Settles O24: `exec_keeps_memory` for the instruction; the fetch of the cycle writes nothing, whether it finds the instruction or
raises. -/
theorem onlyStoresWriteMemory : Obligations.OnlyStoresWriteMemory := by
  unfold Obligations.OnlyStoresWriteMemory
  refine ⟨fun i s t hs hst hex h => exec_keeps_memory hs hst hex h, fun i s t hs _ hst hex hw hp hb h => ?_⟩
  obtain ⟨-, ⟨e, -, rfl⟩ | ⟨f, he, hfetch, hexec⟩⟩ := step_next h
  · exact ⟨rfl, fun _ => rfl⟩
  · rw [State.fetch_encode he hw hp hb] at hfetch
    cases hfetch
    exact exec_keeps_memory (s := s.beginCycle.advance (encode i).length) hs hst hex hexec

end

