-- ==== Sys2Proof/Proofs/MemoryAccess.lean ====
section
/-! SUPPORT. Accesses to memory of one, two and four characters and the instructions that make them: what a read gives after a
write, and what happens where memory does not exist (R30 to R43). -/

namespace Sys2Proof.Machine

/-! ### Which characters exist (R38) -/

/-- One character exists when its address is below `MEM_SIZE`. -/
theorem State.present_one_iff (s : State) (a : Addr) : s.present a 1 = true ↔ a.toNat < s.params.memSize := by
  simp [State.present_iff, Nat.mod_eq_of_lt a.isLt]

/-- Each character of an access that exists exists by itself. -/
theorem State.present_one_of_lt {s : State} {a : Addr} {n k : Nat} (h : s.present a n = true) (hk : k < n) :
    s.present (a + BitVec.ofNat 16 k) 1 = true :=
  (s.present_one_iff _).2 ((s.present_iff a n).1 h k hk)

/-- The second half of a word exists where the word does. -/
theorem State.present_lowHalf {s : State} {a : Addr} (h : s.present a 4 = true) : s.present (a + 2) 2 = true := by
  rw [State.present_iff] at h ⊢
  intro k hk
  have he : a + 2 + BitVec.ofNat 16 k = a + BitVec.ofNat 16 (2 + k) := by
    rw [BitVec.ofNat_add, ← BitVec.add_assoc]
    rfl
  rw [he]
  exact h (2 + k) (by omega)

/-! ### The characters of a written word (R31) -/

/-- The low half of a word is its last two characters. -/
theorem lowHalf_eq_append (w : Word) : charOfWord w 2 ++ charOfWord w 3 = lowHalf w :=
  BitVec.extractLsb'_append_extractLsb'_eq_extractLsb' rfl

/-- The four characters at a written word are the word's, leftmost first. -/
theorem State.bytes_putWord {s : State} (h : s.mem.wf = true) (a : Addr) (w : Word) :
    (s.putWord a w).byteAt a = charOfWord w 0 ∧ (s.putWord a w).byteAt (a + 1) = charOfWord w 1 ∧
      (s.putWord a w).byteAt (a + 2) = charOfWord w 2 ∧ (s.putWord a w).byteAt (a + 3) = charOfWord w 3 := by
  obtain ⟨h1, h2, h3, h4, h5, h6⟩ := addr_ne a
  simp only [State.byteAt_putWord h, h1, h2, h3, h4, h5, h6, if_true, if_false, and_self]

theorem State.byteAt_putWord_offset {s : State} (h : s.mem.wf = true) (a : Addr) (w : Word) {k : Nat} (hk : k < 4) :
    (s.putWord a w).byteAt (a + BitVec.ofNat 16 k) = charOfWord w k := by
  obtain ⟨h0, h1, h2, h3⟩ := s.bytes_putWord h a w
  interval_cases k
  · simpa using h0
  · exact h1
  · exact h2
  · exact h3

/-- An instruction's characters at a written word are the word's (R32). -/
theorem State.instrBytes_putWord {s : State} (h : s.mem.wf = true) (a : Addr) (w : Word) :
    (s.putWord a w).instrBytes a 4 = [charOfWord w 0, charOfWord w 1, charOfWord w 2, charOfWord w 3] := by
  obtain ⟨h0, h1, h2, h3⟩ := s.bytes_putWord h a w
  rw [State.instrBytes_four, h0, h1, h2, h3]

/-! ### L and ST at an aligned address (R102, R110) -/

theorem onWordBoundary_iff (a : Addr) : onWordBoundary a = true ↔ a.toNat % 4 = 0 := by
  simp [onWordBoundary]

/-- The state ST leaves: the word and the CCR written. -/
def State.stored (s : State) (r1 : Reg) (a : Addr) : State := (s.putWord a (s.reg r1)).setCcr (cmpS (s.reg r1) 0)

@[simp] theorem State.stored_pc (s : State) (r1 : Reg) (a : Addr) : (s.stored r1 a).pc = s.pc := by simp [State.stored]
@[simp] theorem State.stored_outcome (s : State) (r1 : Reg) (a : Addr) : (s.stored r1 a).outcome = s.outcome := by
  simp [State.stored]
@[simp] theorem State.stored_params (s : State) (r1 : Reg) (a : Addr) : (s.stored r1 a).params = s.params := by
  simp [State.stored]

/-- ST leaves the characters a word write leaves. -/
theorem State.byteAt_stored (s : State) (r1 : Reg) (a b : Addr) :
    (s.stored r1 a).byteAt b = (s.putWord a (s.reg r1)).byteAt b :=
  State.byteAt_setCcr _ _ b

theorem State.wordAt_stored {s : State} (h : s.mem.wf = true) (r1 : Reg) (a : Addr) :
    (s.stored r1 a).wordAt a = s.reg r1 := by
  simp only [State.wordAt, State.byteAt_stored]
  exact State.wordAt_putWord h a (s.reg r1)

/-- The characters of a stored word are those an instruction fetched there has (R43). -/
theorem State.instrBytes_stored {s : State} (h : s.mem.wf = true) (r1 : Reg) (a : Addr) :
    (s.stored r1 a).instrBytes a 4 =
      [charOfWord (s.reg r1) 0, charOfWord (s.reg r1) 1, charOfWord (s.reg r1) 2, charOfWord (s.reg r1) 3] := by
  rw [State.instrBytes_congr (s.byteAt_stored r1 a), State.instrBytes_putWord h]

section
variable {s : State} {op : MemOperand} {a : Addr}

theorem exec_st_completes (r1 : Reg) (hea : s.ea op = .ok a) (hal : a.toNat % 4 = 0) (hp : s.present a 4 = true) :
    exec (.st r1 op) s = .next (s.stored r1 a) := by
  have hw : s.writeW (.mem a) (s.reg r1) = .ok (s.putWord a (s.reg r1)) :=
    State.writeW_mem_ok.2 ⟨(onWordBoundary_iff a).2 hal, hp, rfl⟩
  show s.withEA op _ = _
  rw [State.withEA_of_ok hea, State.storeWord, hw]
  rfl

theorem exec_st_absent (r1 : Reg) (hea : s.ea op = .ok a) (hal : a.toNat % 4 = 0) (hp : s.present a 4 = false) :
    exec (.st r1 op) s = .fault (.absentMemory a) := by
  have hw : s.writeW (.mem a) (s.reg r1) = .error (.absent a) :=
    State.writeW_mem_error.2 (.inr ⟨(onWordBoundary_iff a).2 hal, hp, rfl⟩)
  show s.withEA op _ = _
  rw [State.withEA_of_ok hea, State.storeWord, hw]
  rfl

theorem exec_l_completes (r1 : Reg) (hea : s.ea op = .ok a) (hal : a.toNat % 4 = 0) (hp : s.present a 4 = true) :
    exec (.l r1 op) s = .next (s.loadWord r1 (s.wordAt a)) :=
  State.withRS_of_ok (State.wordRS_ok.2 ⟨a, hea, (onWordBoundary_iff a).2 hal, hp, rfl⟩) _

theorem exec_l_absent (r1 : Reg) (hea : s.ea op = .ok a) (hal : a.toNat % 4 = 0) (hp : s.present a 4 = false) :
    exec (.l r1 op) s = .fault (.absentMemory a) :=
  State.withRS_of_error (State.wordRS_error.2 (.inr ⟨a, hea, .inr ⟨(onWordBoundary_iff a).2 hal, hp, rfl⟩⟩)) _

end

/-! ### The cycle (R64) -/

theorem isEven_iff (a : Addr) : isEven a = true ↔ a.toNat % 2 = 0 := by
  simp [isEven]

/-- A running machine executes the instruction whose characters stand at an even pc. -/
theorem step_encode {s : State} {i : Instr} (hr : s.outcome = .running) (he : isEven s.pc = true) (hw : i.wf = true)
    (hp : s.present s.pc (encode i).length = true) (hb : s.instrBytes s.pc (encode i).length = encode i) :
    step s = exec i (s.beginCycle.advance (encode i).length) := by
  simp only [step, hr, State.fetch_encode he hw hp hb]

/-- The same for an instruction of four characters, with the state it is executed in written out. -/
theorem step_encode_four {s : State} {i : Instr} (hr : s.outcome = .running) (he : isEven s.pc = true) (hw : i.wf = true)
    (hl : (encode i).length = 4) (hp : s.present s.pc 4 = true) (hb : s.instrBytes s.pc 4 = encode i) :
    step s = exec i { s with ia := s.pc, pc := s.pc + 4 } := by
  rw [step_encode hr he hw (by rwa [hl]) (by rwa [hl]), hl]
  rfl

/-- After ST has stored the characters of an instruction at pc, the machine executes that instruction (R43). -/
theorem step_stored {s : State} {r1 : Reg} {j : Instr} (hwf : s.mem.wf = true) (hr : s.outcome = .running)
    (he : isEven s.pc = true) (hj : j.wf = true) (hp : s.present s.pc 4 = true)
    (hcode : encode j =
      [charOfWord (s.reg r1) 0, charOfWord (s.reg r1) 1, charOfWord (s.reg r1) 2, charOfWord (s.reg r1) 3]) :
    step (s.stored r1 s.pc) = exec j { s.stored r1 s.pc with ia := s.pc, pc := s.pc + 4 } := by
  rw [step_encode_four (by rwa [State.stored_outcome]) (by rwa [State.stored_pc]) hj (by rw [hcode]; rfl)
    (by rwa [State.stored_pc, State.present_congr (s.stored_params r1 s.pc)])
    (by rw [State.stored_pc, State.instrBytes_stored hwf, hcode]), State.stored_pc]

/-- A running machine whose next instruction does not begin in memory stops (R38). -/
theorem step_absent {s : State} (hr : s.outcome = .running) (he : isEven s.pc = true) (hp : s.present s.pc 1 = false) :
    step s = .fault (.absentMemory s.pc) := by
  have hf : s.fetch = .error (.absent s.pc) := by
    rw [State.fetch, if_pos he, State.fetchAt, State.memRead1_error.2 ⟨hp, rfl⟩]
    rfl
  simp only [step, hr, hf, State.stop_absent]

end Sys2Proof.Machine

open Sys2Proof Sys2Proof.Machine

/-- Settles O7: `State.byteAt_putByte` is the read after the write, for a register's character as for memory's. -/
theorem characterReadAfterWrite : Obligations.CharacterReadAfterWrite := by
  unfold Obligations.CharacterReadAfterWrite
  intro s a c hwf
  refine ⟨fun ha => ?_, fun ha => ?_⟩
  · have hp : s.present a 1 = true := (s.present_one_iff a).2 ha
    have hp' : (s.putByte a c).present a 1 = true := (State.present_congr (s.putByte_params a c) a 1).trans hp
    refine ⟨s.putByte a c, State.memWrite1_ok.2 ⟨hp, rfl⟩, State.memRead1_ok.2 ⟨hp', ?_⟩, fun b hb => ?_,
      State.putByte_wf hwf a c, unchanged_putByte hwf a c, by simp, by simp⟩
    · simp [State.byteAt_putByte hwf]
    · simp [State.byteAt_putByte hwf, hb]
  · have hp : s.present a 1 = false := by
      rw [Bool.eq_false_iff, Ne, State.present_one_iff]
      omega
    exact ⟨State.memWrite1_error.2 ⟨hp, rfl⟩, State.memRead1_error.2 ⟨hp, rfl⟩⟩

/-- Settles O8: every read is of the four characters `State.bytes_putWord` gives. -/
theorem mixedWidthAccess : Obligations.MixedWidthAccess := by
  unfold Obligations.MixedWidthAccess
  intro s t a w hwf h
  obtain ⟨hp, rfl⟩ := State.memWrite4_ok.1 h
  have hp' : (s.putWord a w).present a 4 = true := (State.present_congr (s.putWord_params a w) a 4).trans hp
  have read (k : Nat) (hk : k < 4) : (s.putWord a w).memRead1 (a + BitVec.ofNat 16 k) = .ok (charOfWord w k) :=
    State.memRead1_ok.2 ⟨State.present_one_of_lt hp' hk, State.byteAt_putWord_offset hwf a w hk⟩
  refine ⟨read, read 3 (by decide), State.memRead2_ok.2 ⟨State.present_lowHalf hp', ?_⟩,
    State.memRead4_ok.2 ⟨hp', State.wordAt_putWord hwf a w⟩, State.instrBytes_putWord hwf a w,
    fun b hb => State.byteAt_putWord_ne hwf w hb⟩
  obtain ⟨-, -, h2, h3⟩ := s.bytes_putWord hwf a w
  have ha : a + 2 + 1 = a + 3 := by bv_omega
  rw [State.halfAt, ha, h2, h3, lowHalf_eq_append]

/-- Settles O12: ST leaves `State.stored`, and the word L reads there is the word written. -/
theorem loadAfterStore : Obligations.LoadAfterStore := by
  unfold Obligations.LoadAfterStore
  intro s t r1 r3 op op' a hwf hea hal hp hst hea'
  rw [exec_st_completes r1 hea hal hp] at hst
  cases hst
  have hp' : (s.stored r1 a).present a 4 = true := (State.present_congr (s.stored_params r1 a) a 4).trans hp
  refine ⟨_, exec_l_completes r3 hea' hal hp', ?_, unchanged_setReg_setCcr _ _ _ _⟩
  simp [State.loadWord, State.wordAt_stored hwf]

/-- Settles O21: the checks of the accesses, of the fetch (`step_absent`), and of L and ST. -/
theorem missingMemoryStops : Obligations.MissingMemoryStops := by
  unfold Obligations.MissingMemoryStops
  refine ⟨State.present_iff, fun s a c v => ⟨?_, ?_, ?_, ?_, ?_, ?_⟩, fun s hr he hm => ?_, fun s r1 op a hea hal hp => ?_⟩
  · exact fun h => ⟨State.memRead1_ok.2 ⟨h, rfl⟩, State.memWrite1_ok.2 ⟨h, rfl⟩⟩
  · exact fun h => ⟨State.memRead1_error.2 ⟨h, rfl⟩, State.memWrite1_error.2 ⟨h, rfl⟩⟩
  · exact fun h => State.memRead2_ok.2 ⟨h, rfl⟩
  · exact fun h => State.memRead2_error.2 ⟨h, rfl⟩
  · exact fun h => ⟨State.memRead4_ok.2 ⟨h, rfl⟩, State.memWrite4_ok.2 ⟨h, rfl⟩⟩
  · exact fun h => ⟨State.memRead4_error.2 ⟨h, rfl⟩, State.memWrite4_error.2 ⟨h, rfl⟩⟩
  · refine step_absent hr ((isEven_iff s.pc).2 he) ?_
    rw [Bool.eq_false_iff, Ne, State.present_one_iff]
    omega
  · exact ⟨exec_l_absent r1 hea hal hp, exec_st_absent r1 hea hal hp⟩

/-- Settles O22: the first cycle leaves `State.stored`, with pc at the word it wrote, and `step_stored` is the second. -/
theorem storedInstructionIsFetched : Obligations.StoredInstructionIsFetched := by
  unfold Obligations.StoredInstructionIsFetched
  intro s r1 j hwf hpar hr hpc hb hj hcode
  have full {u : State} (hu : u.params = s.params) (a : Addr) (n : Nat) : u.present a n = true :=
    State.present_of_full (by rw [hu, hpar]) a n
  have h4 : (s.pc + 4).toNat % 4 = 0 := by bv_omega
  have hstore : step s = .next (State.stored { s with ia := s.pc, pc := s.pc + 4 } r1 (s.pc + 4)) := by
    rw [step_encode_four (i := .st r1 ⟨false, none, s.pc + 4⟩) hr ((isEven_iff _).2 (by omega)) rfl rfl (full rfl _ _) hb]
    exact exec_st_completes r1 (by simp [State.ea_direct, State.indexValue]) h4 (full rfl _ _)
  have he4 : isEven (s.pc + 4) = true := (isEven_iff _).2 (by omega)
  have h8 : s.pc + 8 = s.pc + 4 + 4 := by bv_omega
  refine ⟨_, hstore, State.stored_pc _ _ _, ?_⟩
  rw [h8]
  exact step_stored (s := { s with ia := s.pc, pc := s.pc + 4 }) hwf hr he4 hj (full rfl _ _) hcode

end

