-- ==== Sys2Proof/Proofs/Encoding.lean ====
section
/-! SUPPORT. The decoder against the encoder: fields are those of the instruction read from them, and what the first character
alone decides (R51 to R56, R65, R66). -/

namespace Sys2Proof

/-! ### Fields of each format, written back -/

/-- The decoder makes well-formed operands only: designator 0 names no register (R11). -/
theorem Fields.operand_wf (f : Fields) : f.operand.wf = true :=
  bne_iff_ne.2 (indexOfBits_ne f.n2)

/-- Bits 8 to 11 are those of the register number read from them. -/
theorem Fields.bitsOfReg_r1 (f : Fields) : bitsOfReg f.r1 = f.n1 :=
  bitsOfReg_regOfBits f.n1

section
variable {f : Fields} {op : Opcode}

/-- Short fields are those of the designators read from them (R53). -/
theorem Fields.ofRR_readBack (ho : f.opcode = op) (hl : f.low = 0) : Fields.ofRR op f.indirect f.n1 f.r2 = f := by
  obtain ⟨b, op', n1, n2, low⟩ := f
  subst ho hl
  simp [Fields.ofRR, Fields.r2]

/-- Fields are those of bits 8 to 11 and of the address fields read from them (R54, R56). -/
theorem Fields.ofMem_readBack (ho : f.opcode = op) : Fields.ofMem op f.n1 f.operand = f := by
  simp [Fields.ofMem, Fields.operand, ← ho]

/-- Fields are those of the designator and the immediate read from them (R55). -/
theorem Fields.ofImm_readBack (ho : f.opcode = op) : Fields.ofImm op f.indirect f.r1 f.imm = f := by
  have hn : f.imm.extractLsb' 16 4 = f.n2 := BitVec.extractLsb'_append_eq_left
  have hl : f.imm.extractLsb' 0 16 = f.low := BitVec.extractLsb'_append_eq_right
  rw [Fields.ofImm, hn, hl, f.bitsOfReg_r1, ← ho]

/-- Fields are those of the designators and the address of LM and STM read from them (R61). -/
theorem Fields.mk_readBack (ho : f.opcode = op) : Fields.mk f.indirect op f.n1 (bitsOfReg f.r2) f.low = f := by
  simp [Fields.r2, ← ho]

end

/-- Whatever fields are read as an instruction are the fields of that instruction, and it is well formed (R65): along the opcode
map, by the format of each opcode. -/
theorem fields_of_instr? {f : Fields} {i : Instr} (h : f.instr? = some i) (hs : isShort f.opcode = true → f.low = 0) :
    i.wf = true ∧ i.fields = f := by
  unfold Fields.instr? at h
  split at h <;> cases h
  all_goals
    rename_i ho
    simp [Instr.wf, Instr.fields, f.operand_wf, f.bitsOfReg_r1, Fields.ofMem_readBack ho, Fields.ofImm_readBack ho,
      Fields.mk_readBack ho, Fields.ofRR_readBack ho, hs, isShort, ho]

end Sys2Proof

namespace Sys2Proof.Machine

/-! ### What the first character decides -/

/-- An opcode is unassigned when it is one of the fourteen (R66). -/
theorem isAssigned_iff (op : Opcode) : isAssigned op = true ↔ op ∉ unassignedOpcodes := by
  simp [isAssigned]

theorem isAssigned_eq_false {op : Opcode} (h : op ∈ unassignedOpcodes) : isAssigned op = false := by
  simpa [isAssigned] using h

/-- The first character of some fields holds their opcode, and there are as many characters as it asks for (R51, R52). -/
theorem length_of_toBytes_append {f : Fields} {c : Byte} {tail rest : List Byte} (h : c :: tail = f.toBytes ++ rest) :
    (c :: tail).length = rest.length + instrLength (opcodeOf c) := by
  obtain ⟨cs, hcs⟩ := Fields.toBytes_head f
  have hc : opcodeOf c = f.opcode := by
    rw [hcs] at h
    rw [(List.cons.inj h).1, opcodeOf_append]
  rw [h, List.length_append, Fields.toBytes_length, hc, Nat.add_comm]

/-- The length by bits 1 and 2 of the first character (R52). -/
theorem instrLength_opcodeOf (c : Byte) : instrLength (opcodeOf c) = if c.extractLsb' 5 2 = 0 then 2 else 4 := by
  revert c; decide

/-- An unassigned opcode is refused on the first character (R66). -/
theorem decode_unassigned {c : Byte} (h : isAssigned (opcodeOf c) = false) (tail : List Byte) :
    decode (c :: tail) = .error (.unimplemented (opcodeOf c)) := by
  simp [decode, h]

/-- Four characters with an assigned opcode decode, to their fields as a short or as a long instruction (R52, R66). -/
theorem decode_assigned {c0 : Byte} (h : isAssigned (opcodeOf c0) = true) (c1 c2 c3 : Byte) (tail : List Byte) :
    ∃ i rest, decode (c0 :: c1 :: c2 :: c3 :: tail) = .ok (i, rest) := by
  cases hs : isShort (opcodeOf c0)
  · obtain ⟨i, hi⟩ := instr?_isSome (f := .ofBytes c0 c1 c2 c3) h
    exact ⟨i, tail, by simp [decode, h, hs, decoded_of_some hi]⟩
  · obtain ⟨i, hi⟩ := instr?_isSome (f := .ofShort c0 c1) h
    exact ⟨i, c2 :: c3 :: tail, by simp [decode, h, hs, decoded_of_some hi]⟩

end Sys2Proof.Machine

open Sys2Proof Sys2Proof.Machine

/-- Settles O1: the fields of a well-formed instruction are read back (`fieldsReadBack`), and their characters give the fields. -/
theorem decodeInvertsEncode : Obligations.DecodeInvertsEncode := by
  unfold Obligations.DecodeInvertsEncode
  intro i rest hw
  obtain ⟨hi, ha, hs⟩ := fieldsReadBack i hw
  rw [encode, decode_toBytes i.fields rest ha hs, decoded_of_some hi]

/-- Settles O2: what decodes are the characters of some fields, and these are the fields of the instruction. -/
theorem encodeInvertsDecode : Obligations.EncodeInvertsDecode := by
  unfold Obligations.EncodeInvertsDecode
  intro bs rest i h
  obtain ⟨f, hi, -, hs, rfl⟩ := decode_ok h
  obtain ⟨hw, hf⟩ := fields_of_instr? hi hs
  exact ⟨hw, by rw [encode, hf]⟩

/-- Settles O4: the characters of an instruction are as many as its opcode asks for. -/
theorem lengthFromOpcode : Obligations.LengthFromOpcode := by
  unfold Obligations.LengthFromOpcode
  intro c0 tail rest i h
  obtain ⟨f, -, -, -, hbs⟩ := decode_ok h
  rw [length_of_toBytes_append hbs, instrLength_opcodeOf]

/-- Settles O5: the decoder looks at the first character alone to refuse, and every assigned opcode is some instruction's. -/
theorem illegalOpcodesAreTheFourteen : Obligations.IllegalOpcodesAreTheFourteen := by
  unfold Obligations.IllegalOpcodesAreTheFourteen
  exact ⟨fun c0 tail h => decode_unassigned (isAssigned_eq_false h) tail,
    fun c0 c1 c2 c3 tail h => decode_assigned ((isAssigned_iff _).2 h) c1 c2 c3 tail⟩

/-- Settles O3: the decoder evaluated on each word. -/
theorem decodeSampleWords : Obligations.DecodeSampleWords := by
  unfold Obligations.DecodeSampleWords
  exact ⟨rfl, rfl, rfl, rfl, rfl, rfl, rfl⟩

end

