-- ==== Sys2Proof/Proofs/FetchAndOperands.lean ====
section
/-! SUPPORT. The cycle and EX at an unassigned opcode, effective addresses and word operands, and the statements about
the cycle, operands and ignored fields (R58 to R67). -/

namespace Sys2Proof.Machine

/-! ### Unassigned opcodes at the ILC and under EX (R64, R66) -/

/-- A cycle at an unassigned opcode takes the exception of its fetch. -/
theorem step_unassigned {s : State} (hr : s.outcome = .running) (he : isEven s.pc = true) (hp : s.present s.pc 1 = true)
    (ho : isAssigned (opcodeOf (s.byteAt s.pc)) = false) :
    step s = .next (s.beginCycle.takeException (.unimplementedInstruction s.pc (opcodeOf (s.byteAt s.pc)))) := by
  have hf := State.fetchAt_unassigned hp ho
  simp only [step, hr, State.fetch, he, if_true, hf, State.stop_raise]

/-- A chain of EX stops at a subject with an unassigned opcode. -/
theorem State.exSubject_unassigned {s : State} {op : MemOperand} {ea : Addr} (n : Nat) (hea : s.ea op = .ok ea)
    (he : isEven ea = true) (hp : s.present ea 1 = true) (ho : isAssigned (opcodeOf (s.byteAt ea)) = false) :
    s.exSubject (n + 1) op = .error (.raise (.unimplementedInstruction ea (opcodeOf (s.byteAt ea)))) := by
  rw [State.exSubject_succ, hea]
  refine bind_error.2 (.inr ⟨ea, rfl, ?_⟩)
  rw [if_pos he, State.fetchAt_unassigned hp ho]
  rfl

/-- An EX of a subject with an unassigned opcode takes the subject's exception (R147). -/
theorem exec_ex_unassigned {s : State} (r1 : Reg) {op : MemOperand} {ea : Addr} (hea : s.ea op = .ok ea)
    (he : isEven ea = true) (hp : s.present ea 1 = true) (ho : isAssigned (opcodeOf (s.byteAt ea)) = false) :
    exec (.ex r1 op) s = .next (s.takeException (.unimplementedInstruction ea (opcodeOf (s.byteAt ea)))) := by
  rw [execEX_eq, exLinks, State.exSubject_unassigned _ hea he hp ho]
  rfl

/-! ### Boundaries (R33) -/

theorem isEven_eq_false_iff (a : Addr) : isEven a = false ↔ a.toNat % 2 ≠ 0 := by
  rw [Bool.eq_false_iff, Ne, isEven_iff]

theorem onWordBoundary_eq_false_iff (a : Addr) : onWordBoundary a = false ↔ a.toNat % 4 ≠ 0 := by
  rw [Bool.eq_false_iff, Ne, onWordBoundary_iff]

/-! ### Effective addresses (R59) -/

/-- No index register adds nothing (R11). -/
theorem State.add_indexValue_none (s : State) (a : Addr) : a + s.indexValue none = a :=
  BitVec.add_zero a

/-- An index register adds its bits 16 to 31 (R59). -/
theorem State.indexValue_some (s : State) {x : Reg} (h : x ≠ 0) : s.indexValue (some x) = lowHalf (s.reg x) :=
  if_neg h

/-- Adding bits 16 to 31 of a register is adding the register, modulo 2^16 (R37). -/
theorem add_lowHalf (a : Addr) (v : Word) : a + lowHalf v = BitVec.ofNat 16 (a.toNat + v.toNat) := by
  apply BitVec.eq_of_toNat_eq
  simp [lowHalf]

/-- An odd indirect field raises the exception whatever the index (R34, R59). -/
theorem State.ea_odd_field (s : State) {op : MemOperand} (hi : op.indirect = true) (he : isEven op.addr = false) :
    s.ea op = .error (.raise (.indirectAddress op.addr)) :=
  State.ea_error.2 ⟨hi, .inl ⟨he, rfl⟩⟩

/-- An even indirect field that exists gives the address, indexed. -/
theorem State.ea_even_field {s : State} {op : MemOperand} {f : BitVec 16} (hi : op.indirect = true)
    (he : isEven op.addr = true) (hf : s.memRead2 op.addr = .ok f) : s.ea op = .ok (f + s.indexValue op.index) := by
  rw [State.ea_indirect hi he, hf]
  rfl

/-- An even indirect field without an index is the address, or is missing. -/
theorem State.ea_indirect_none (s : State) {a : Addr} (he : isEven a = true) : s.ea ⟨true, none, a⟩ = s.memRead2 a := by
  cases hf : s.memRead2 a with
  | ok f => rw [State.ea_even_field (op := ⟨true, none, a⟩) rfl he hf, State.add_indexValue_none]
  | error e =>
    obtain ⟨hp, rfl⟩ := State.memRead2_error.1 hf
    exact State.ea_error.2 ⟨rfl, .inr ⟨he, hp, rfl⟩⟩

/-! ### Word operands (R58) -/

/-- A word operand at a word boundary is the access of its four characters (R33). -/
theorem State.wordAccess_aligned (s : State) {a : Addr} (h : onWordBoundary a = true) (v : Word) :
    s.readW (.mem a) = s.memRead4 a ∧ s.writeW (.mem a) v = s.memWrite4 a v :=
  ⟨if_pos h, if_pos h⟩

/-- A word operand elsewhere raises the exception, read or written (R34). -/
theorem State.wordAccess_misaligned (s : State) {a : Addr} (h : onWordBoundary a = false) (v : Word) :
    s.readW (.mem a) = .error (.raise (.wordAddressing a)) ∧ s.writeW (.mem a) v = .error (.raise (.wordAddressing a)) :=
  ⟨State.readW_mem_error.2 (.inl ⟨h, rfl⟩), State.writeW_mem_error.2 (.inl ⟨h, rfl⟩)⟩

/-- The word operand of an RS instruction is the word at its effective address. -/
theorem State.wordRS_of_ea {s : State} {op : MemOperand} {ea : Addr} (h : s.ea op = .ok ea) :
    s.wordRS op = s.readW (.mem ea) := by
  rw [State.wordRS, h]
  rfl

end Sys2Proof.Machine

open Sys2Proof Sys2Proof.Machine

/-- Settles O19: the fetch of an unassigned opcode fails on its first character, at pc and at the address of EX's subject. -/
theorem unimplementedOpcodeFaults : Obligations.UnimplementedOpcodeFaults := by
  unfold Obligations.UnimplementedOpcodeFaults
  exact ⟨fun s hr he hp ho => step_unassigned hr ((isEven_iff _).2 he) hp (isAssigned_eq_false ho),
    fun s r1 op ea hea he hp ho => exec_ex_unassigned r1 hea ((isEven_iff _).2 he) hp (isAssigned_eq_false ho)⟩

/-- Settles O6: the meaning of each of these instructions does not read the field. -/
theorem ignoredFieldsDoNotMatter : Obligations.IgnoredFieldsDoNotMatter := by
  unfold Obligations.IgnoredFieldsDoNotMatter
  refine fun a b r q r2 m v op s => ⟨rfl, rfl, rfl, fun f hf => ?_⟩
  fin_cases hf <;> rfl

/-- Settles O9: the check of the word boundary decides the access. -/
theorem wordOperandsAreChecked : Obligations.WordOperandsAreChecked := by
  unfold Obligations.WordOperandsAreChecked
  exact fun s r a v op => ⟨s.readW_reg r, s.writeW_reg r v,
    fun h => s.wordAccess_misaligned ((onWordBoundary_eq_false_iff a).2 h) v,
    fun h => s.wordAccess_aligned ((onWordBoundary_iff a).2 h) v, fun _ => State.wordRS_of_ea⟩

/-- Settles O10: the four cases of R59, by the indirect bit and the index register designator. -/
theorem effectiveAddressCases : Obligations.EffectiveAddressCases := by
  unfold Obligations.EffectiveAddressCases
  refine fun s x a => ⟨?_, fun hx => ?_, fun ha i => ?_, fun ha => ⟨?_, fun f hf hx => ?_⟩, fun _ => rfl⟩
  · rw [State.ea_direct, State.add_indexValue_none]
  · rw [State.ea_direct, State.indexValue_some s hx, add_lowHalf]
  · exact s.ea_odd_field rfl ((isEven_eq_false_iff a).2 ha)
  · exact s.ea_indirect_none ((isEven_iff a).2 ha)
  · rw [State.ea_even_field (op := ⟨true, some x, a⟩) rfl ((isEven_iff a).2 ha) hf, State.indexValue_some s hx, add_lowHalf]

/-- Settles O16: `step_encode`, with the state the instruction is executed in written out. -/
theorem stepRunsDecodedInstruction : Obligations.StepRunsDecodedInstruction := by
  unfold Obligations.StepRunsDecodedInstruction
  exact fun s i hr he hw hp hb => step_encode hr ((isEven_iff _).2 he) hw hp hb

end

