-- ==== Sys2Proof/Proofs/IntegerResults.lean ====
section
/-! SUPPORT. Instructions that put an exact integer in R1 and set the CCR from it: `State.arith` (R221), of which the loads are
cases. -/

namespace Sys2Proof.Machine

/-! ### The CCR of an exact integer (R19, R20, R221) -/

theorem cmpS_zero_isSignOf (w : Word) : (cmpS w 0).isSignOf w.toInt := by
  simpa using cmpS_isSignOf w 0

theorem cmpU_zero_isSignOf (c : Byte) : (cmpU c 0).isSignOf (c.toNat : Int) := by
  simpa using cmpU_isSignOf c 0

/-- The sign of an integer determines the CCR. -/
theorem Ccr.isSignOf_unique {c d : Ccr} {n : Int} (hc : c.isSignOf n) (hd : d.isSignOf n) : c = d := by
  obtain ⟨o, g, l, e⟩ := c
  obtain ⟨o', g', l', e'⟩ := d
  obtain ⟨ho, hg, hl, he⟩ := hc
  obtain ⟨ho', hg', hl', he'⟩ := hd
  rw [Ccr.mk.injEq]
  exact ⟨ho.trans ho'.symm, Bool.eq_iff_iff.2 (hg.trans hg'.symm), Bool.eq_iff_iff.2 (hl.trans hl'.symm),
    Bool.eq_iff_iff.2 (he.trans he'.symm)⟩

theorem fitsWord_iff (n : Int) : fitsWord n = true ↔ -2 ^ 31 ≤ n ∧ n ≤ 2 ^ 31 - 1 := by
  simp [fitsWord]

/-- An integer that fits in a word is the integer of its word. -/
theorem toInt_wordOfInt_of_fits {n : Int} (h : fitsWord n = true) : (wordOfInt n).toInt = n := by
  obtain ⟨hlo, hhi⟩ := (fitsWord_iff n).1 h
  exact toInt_wordOfInt hlo (by omega)

theorem arithCcr_isSignOf {n : Int} (h : fitsWord n = true) : (arithCcr n).isSignOf n := by
  have hs := cmpS_zero_isSignOf (wordOfInt n)
  rw [toInt_wordOfInt_of_fits h] at hs
  rwa [arithCcr, if_pos h]

theorem arithCcr_isArithmetic (n : Int) : (arithCcr n).isArithmetic n := by
  unfold Ccr.isArithmetic
  split_ifs with h
  · exact arithCcr_isSignOf ((fitsWord_iff n).2 h)
  · exact if_neg (mt (fitsWord_iff n).1 h)

/-! ### `State.arith` -/

section
variable {s : State} {r1 : Reg} {n : Int}

theorem State.putsInRegister_arith (s : State) (r1 : Reg) (n : Int) :
    PutsInRegister r1 (BitVec.ofInt 32 n) s (s.arith r1 n) :=
  ⟨State.reg_setReg_self s r1 _, rfl, unchanged_setReg_setCcr s r1 _ _⟩

/-- An instruction whose next state is that of `arith` gives the integer. -/
theorem GivesInteger.of_arith {i : Instr} (h : exec i s = .next (s.arith r1 n)) : GivesInteger i s r1 n :=
  ⟨_, h, s.putsInRegister_arith r1 n, arithCcr_isArithmetic n⟩

/-- The word of an integer that fits, put in a register with the CCR of its sign, is its `arith`. -/
theorem State.put_eq_arith {v : Word} {c : Ccr} (hn : fitsWord n = true) (hv : v = wordOfInt n) (hc : c.isSignOf n) :
    (s.setReg r1 v).setCcr c = s.arith r1 n := by
  rw [State.arith, hv, Ccr.isSignOf_unique hc (arithCcr_isSignOf hn)]

end

/-- An operation gives an integer in its four forms if each puts the `arith` of that integer of R1 and the operand. -/
theorem fourForms_of_arith {rr : Bool → Reg → Reg → Instr} {rs : Reg → MemOperand → Instr}
    {im : Bool → Reg → Imm → Instr} {ch : Reg → MemOperand → Instr} (f : Int → Int → Int)
    (hrr : ∀ ind r1 r2 s, exec (rr ind r1 r2) s =
      s.withRR ind r2 fun w => .ok (s.arith r1 (f (s.reg r1).toInt w.toInt)))
    (hrs : ∀ r1 op s, exec (rs r1 op) s = s.withRS op fun w => .ok (s.arith r1 (f (s.reg r1).toInt w.toInt)))
    (him : ∀ ign r1 imm s, exec (im ign r1 imm) s = .next (s.arith r1 (f (s.reg r1).toInt imm.toInt)))
    (hch : ∀ r1 op s, exec (ch r1 op) s = s.withCH op fun c => .ok (s.arith r1 (f (s.reg r1).toInt c.toNat))) :
    FourForms rr rs im ch fun i s r1 n => GivesInteger i s r1 (f (s.reg r1).toInt n) := by
  refine ⟨fun ind r1 r2 s w h => .of_arith ?_, fun r1 op s w h => .of_arith ?_,
    fun ign r1 imm s => .of_arith (him ign r1 imm s), fun r1 op s c h => .of_arith ?_⟩
  · rw [hrr, State.withRR_of_ok h, State.finish_ok]
  · rw [hrs, State.withRS_of_ok h, State.finish_ok]
  · rw [hch, State.withCH_of_ok h, State.finish_ok]

end Sys2Proof.Machine
end

