-- ==== Sys2Proof/Proofs/LoadStoreSwap.lean ====
section
/-! SUPPORT. The statements about loads, stores and swaps (40_load_store_swap.md, R101 to R114). -/

namespace Sys2Proof.Machine

/-! ### Operands as integers that fit in a word (R62, R63) -/

theorem wordOfInt_toInt (w : Word) : wordOfInt w.toInt = w := BitVec.ofInt_toInt

theorem simm_eq_wordOfInt (imm : Imm) : simm imm = wordOfInt imm.toInt := rfl

theorem wordOfChar_eq_wordOfInt (c : Byte) : wordOfChar c = wordOfInt c.toNat := by
  apply BitVec.eq_of_toNat_eq
  have h := c.isLt
  simp [wordOfChar, wordOfInt]

theorem fitsWord_toInt (w : Word) : fitsWord w.toInt = true := by
  have hlo := BitVec.le_toInt w
  have hhi := BitVec.toInt_lt (x := w)
  rw [fitsWord_iff]
  omega

/-- The negative of a word does not fit only for the least word, 0x80000000 (R105). -/
theorem fitsWord_neg_toInt (w : Word) : fitsWord (-w.toInt) = true ↔ w ≠ 0x80000000 := by
  have hlo := BitVec.le_toInt w
  have hhi := BitVec.toInt_lt (x := w)
  have hmin : w = 0x80000000 ↔ w.toInt = -2 ^ 31 := BitVec.toInt_inj.symm
  rw [fitsWord_iff, Ne, hmin]
  omega

/-- An immediate has 20 bits, so it and its negative fit (R107). -/
theorem fitsWord_imm (imm : Imm) : fitsWord imm.toInt = true ∧ fitsWord (-imm.toInt) = true := by
  have hlo := BitVec.le_toInt imm
  have hhi := BitVec.toInt_lt (x := imm)
  rw [fitsWord_iff, fitsWord_iff]
  omega

/-- A character has 8 bits, so it and its negative fit (R108). -/
theorem fitsWord_char (c : Byte) : fitsWord (c.toNat : Int) = true ∧ fitsWord (-(c.toNat : Int)) = true := by
  have h := c.isLt
  rw [fitsWord_iff, fitsWord_iff]
  omega

/-! ### Loads (R101 to R108) -/

section
variable (s : State) (r1 : Reg)

/-- A load of the word of an integer that fits. -/
theorem State.loadWord_wordOfInt {n : Int} (h : fitsWord n = true) : s.loadWord r1 (wordOfInt n) = s.arith r1 n := by
  have hs := cmpS_zero_isSignOf (wordOfInt n)
  rw [toInt_wordOfInt_of_fits h] at hs
  exact State.put_eq_arith h rfl hs

theorem State.loadWord_eq_arith (w : Word) : s.loadWord r1 w = s.arith r1 w.toInt := by
  rw [← s.loadWord_wordOfInt r1 (fitsWord_toInt w), wordOfInt_toInt]

theorem State.loadChar_eq_arith (c : Byte) :
    (s.setReg r1 (wordOfChar c)).setCcr (cmpU c 0) = s.arith r1 c.toNat :=
  State.put_eq_arith (fitsWord_char c).1 (wordOfChar_eq_wordOfInt c) (cmpU_zero_isSignOf c)

theorem State.loadNegative_eq_arith (w : Word) : s.loadNegative r1 w = s.arith r1 (-w.toInt) := by
  unfold State.loadNegative State.arith arithCcr
  by_cases h : w = 0x80000000
  · rw [if_pos h, if_neg (mt (fitsWord_neg_toInt w).1 (not_not.2 h))]
  · rw [if_neg h, if_pos ((fitsWord_neg_toInt w).2 h)]

end

/-! ### Stores (R109 to R111) -/

section
variable {s : State} {a : Addr}

theorem State.putsInMemory_stored (h : s.mem.wf = true) (r1 : Reg) (a : Addr) :
    PutsInMemory a (s.reg r1) s (s.stored r1 a) := by
  refine ⟨State.wordAt_stored h r1 a, s.stored_pc r1 a, ?_⟩
  simpa [State.stored] using (unchanged_putWord h a (s.reg r1)).trans (unchanged_setCcr _ (cmpS (s.reg r1) 0))

/-- A store of a word at an aligned address completes with `State.stored`. -/
theorem State.storeWord_mem (r1 : Reg) (hal : a.toNat % 4 = 0) (hp : s.present a 4 = true) :
    s.storeWord r1 (.mem a) = .ok (s.stored r1 a) := by
  have hw : s.writeW (.mem a) (s.reg r1) = .ok (s.putWord a (s.reg r1)) :=
    State.writeW_mem_ok.2 ⟨(onWordBoundary_iff a).2 hal, hp, rfl⟩
  rw [State.storeWord, hw]
  rfl

/-- The state STC leaves: the character and the CCR written. -/
def State.storedChar (s : State) (r1 : Reg) (a : Addr) : State :=
  (s.putByte a (lowChar (s.reg r1))).setCcr (cmpU (lowChar (s.reg r1)) 0)

theorem exec_stc_completes (r1 : Reg) {op : MemOperand} (hea : s.ea op = .ok a) (hp : s.present a 1 = true) :
    exec (.stc r1 op) s = .next (s.storedChar r1 a) := by
  have hw : s.memWrite1 a (lowChar (s.reg r1)) = .ok (s.putByte a (lowChar (s.reg r1))) :=
    State.memWrite1_ok.2 ⟨hp, rfl⟩
  show s.withEA op _ = _
  rw [State.withEA_of_ok hea, hw]
  rfl

theorem State.putsCharacter_storedChar (h : s.mem.wf = true) (r1 : Reg) (a : Addr) :
    PutsCharacter a (lowChar (s.reg r1)) s (s.storedChar r1 a) := by
  refine ⟨?_, by simp [State.storedChar], ?_⟩
  · simp [State.storedChar, State.byteAt_putByte h]
  · simpa [State.storedChar] using
      (unchanged_putByte h a (lowChar (s.reg r1))).trans (unchanged_setCcr _ (cmpU (lowChar (s.reg r1)) 0))

end

/-! ### Swaps (R112 to R114) -/

/-- A register write outside whose image a word lies leaves the word. -/
theorem State.wordAt_setReg (s : State) (r : Reg) (v : Word) {a : Addr} (h : ∀ b ∈ wordBytes a, s.shares b r = false) :
    (s.setReg r v).wordAt a = s.wordAt a := by
  simp only [wordBytes, List.forall_mem_cons] at h
  obtain ⟨h0, h1, h2, h3, -⟩ := h
  simp only [State.wordAt, State.byteAt_setReg s r v h0, State.byteAt_setReg s r v h1, State.byteAt_setReg s r v h2,
    State.byteAt_setReg s r v h3]

theorem lowChar_withLowChar (v : Word) (c : Byte) : lowChar (withLowChar v c) = c :=
  BitVec.extractLsb'_append_eq_right

theorem highChars_withLowChar (v : Word) (c : Byte) : (withLowChar v c).extractLsb' 8 24 = v.extractLsb' 8 24 :=
  BitVec.extractLsb'_append_eq_left

section
variable {s : State} {a : Addr}

/-- The state a swap of registers leaves: R2 written first, then R1 and the CCR. -/
def State.swappedRegs (s : State) (r1 r2 : Reg) : State := (s.setReg r2 (s.reg r1)).loadWord r1 (s.reg r2)

theorem State.swappedRegs_reg_right (s : State) (r1 r2 : Reg) : (s.swappedRegs r1 r2).reg r2 = s.reg r1 := by
  by_cases h : r2 = r1
  · subst h
    simp [State.swappedRegs, State.loadWord]
  · simp [State.swappedRegs, State.loadWord, State.reg_setReg_ne _ _ h]

theorem unchanged_swappedRegs (s : State) (r1 r2 : Reg) : Unchanged [r1, r2] [] s (s.swappedRegs r1 r2) :=
  ((unchanged_setReg s r2 (s.reg r1)).trans (unchanged_setReg_setCcr _ r1 (s.reg r2) _)).mono
    (List.Perm.swap r1 r2 []).subset (List.Subset.refl _)

/-- The state a swap with the word at an address leaves: the word written, then R1 and the CCR. -/
def State.swapped (s : State) (r1 : Reg) (a : Addr) : State := (s.putWord a (s.reg r1)).loadWord r1 (s.wordAt a)

theorem State.swapWord_mem (r1 : Reg) (hal : a.toNat % 4 = 0) (hp : s.present a 4 = true) :
    s.swapWord r1 (.mem a) = .ok (s.swapped r1 a) := by
  have hb := (onWordBoundary_iff a).2 hal
  have hr : s.readW (.mem a) = .ok (s.wordAt a) := State.readW_mem_ok.2 ⟨hb, hp, rfl⟩
  have hw : s.writeW (.mem a) (s.reg r1) = .ok (s.putWord a (s.reg r1)) := State.writeW_mem_ok.2 ⟨hb, hp, rfl⟩
  rw [State.swapWord, hr, hw]
  rfl

theorem State.wordAt_swapped (h : s.mem.wf = true) {r1 : Reg} (hs : ∀ b ∈ wordBytes a, s.shares b r1 = false) :
    (s.swapped r1 a).wordAt a = s.reg r1 := by
  have hs' : ∀ b ∈ wordBytes a, (s.putWord a (s.reg r1)).shares b r1 = false := fun b hb => by
    rw [State.shares_congr (s.putWord_params a _), hs b hb]
  exact ((s.putWord a (s.reg r1)).wordAt_setReg r1 (s.wordAt a) hs').trans (State.wordAt_putWord h a (s.reg r1))

theorem unchanged_swapped (h : s.mem.wf = true) (r1 : Reg) (a : Addr) :
    Unchanged [r1] (wordBytes a) s (s.swapped r1 a) := by
  simpa [State.swapped, State.loadWord] using
    (unchanged_putWord h a (s.reg r1)).trans (unchanged_setReg_setCcr _ r1 (s.wordAt a) _)

/-- Every swap with the word at an aligned address, whichever way the instruction gives the address (R112, R113). -/
theorem State.finish_swapWord_mem (h : s.mem.wf = true) (r1 : Reg) (hal : a.toNat % 4 = 0) (hp : s.present a 4 = true) :
    ∃ t, s.finish (s.swapWord r1 (.mem a)) = .next t ∧ t.reg r1 = s.wordAt a ∧
      ((∀ b ∈ wordBytes a, s.shares b r1 = false) → t.wordAt a = s.reg r1) ∧
      t.ccr.isSignOf (s.wordAt a).toInt ∧ t.pc = s.pc ∧ Unchanged [r1] (wordBytes a) s t := by
  refine ⟨s.swapped r1 a, ?_, State.reg_setReg_self _ r1 _, State.wordAt_swapped h, cmpS_zero_isSignOf _,
    s.putWord_pc a _, unchanged_swapped h r1 a⟩
  rw [State.swapWord_mem r1 hal hp, State.finish_ok]

/-- The state SWAPC leaves: the character written, then the low-order character of R1 and the CCR. -/
def State.swappedChar (s : State) (r1 : Reg) (a : Addr) : State :=
  let t := s.putByte a (lowChar (s.reg r1))
  (t.setReg r1 (withLowChar (t.reg r1) (s.byteAt a))).setCcr (cmpU (s.byteAt a) 0)

theorem exec_swapc_completes (r1 : Reg) {op : MemOperand} (hea : s.ea op = .ok a) (hp : s.present a 1 = true) :
    exec (.swapc r1 op) s = .next (s.swappedChar r1 a) := by
  have hr : s.memRead1 a = .ok (s.byteAt a) := State.memRead1_ok.2 ⟨hp, rfl⟩
  have hw : s.memWrite1 a (lowChar (s.reg r1)) = .ok (s.putByte a (lowChar (s.reg r1))) :=
    State.memWrite1_ok.2 ⟨hp, rfl⟩
  show s.withEA op _ = _
  rw [State.withEA_of_ok hea, hr]
  show s.finish (s.memWrite1 a (lowChar (s.reg r1)) >>= _) = _
  rw [hw]
  rfl

theorem State.swappedChar_reg (s : State) (r1 : Reg) (a : Addr) : (s.swappedChar r1 a).reg r1 =
    withLowChar ((s.putByte a (lowChar (s.reg r1))).reg r1) (s.byteAt a) :=
  State.reg_setReg_self _ r1 _

/-- The high 24 bits of R1 are kept unless the character written is one of R1's. -/
theorem State.swappedChar_highChars {r1 : Reg} (h : s.shares a r1 = false) :
    ((s.swappedChar r1 a).reg r1).extractLsb' 8 24 = (s.reg r1).extractLsb' 8 24 := by
  rw [State.swappedChar_reg, highChars_withLowChar, State.reg_putByte s _ h]

theorem State.byteAt_swappedChar (hwf : s.mem.wf = true) {r1 : Reg} (h : s.shares a r1 = false) :
    (s.swappedChar r1 a).byteAt a = lowChar (s.reg r1) := by
  have h' : (s.putByte a (lowChar (s.reg r1))).shares a r1 = false :=
    (State.shares_congr (s.putByte_params a _) a r1).trans h
  rw [State.swappedChar, State.byteAt_setCcr, State.byteAt_setReg _ _ _ h', State.byteAt_putByte hwf, if_pos rfl]

theorem unchanged_swappedChar (h : s.mem.wf = true) (r1 : Reg) (a : Addr) :
    Unchanged [r1] [a] s (s.swappedChar r1 a) := by
  simpa [State.swappedChar] using
    (unchanged_putByte h a (lowChar (s.reg r1))).trans (unchanged_setReg_setCcr _ r1 _ (cmpU (s.byteAt a) 0))

end

end Sys2Proof.Machine

open Sys2Proof Sys2Proof.Machine

/-- Settles O31: each load is `State.arith` of its exact value, each load negative of the negative of it. -/
theorem loadsReplaceTheRegister : Obligations.LoadsReplaceTheRegister := by
  unfold Obligations.LoadsReplaceTheRegister
  constructor
  · refine fourForms_of_arith (fun _ n => n) (fun ind r1 r2 s => ?_) (fun r1 op s => ?_) (fun ign r1 imm s => ?_)
      (fun r1 op s => ?_)
    · exact congrArg (s.withRR ind r2) (funext fun w => congrArg _ (s.loadWord_eq_arith r1 w))
    · exact congrArg (s.withRS op) (funext fun w => congrArg _ (s.loadWord_eq_arith r1 w))
    · exact congrArg _ (s.loadWord_wordOfInt r1 (fitsWord_imm imm).1)
    · exact congrArg (s.withCH op) (funext fun c => congrArg _ (s.loadChar_eq_arith r1 c))
  · refine fourForms_of_arith (fun _ n => -n) (fun ind r1 r2 s => ?_) (fun r1 op s => ?_) (fun ign r1 imm s => ?_)
      (fun r1 op s => ?_)
    · exact congrArg (s.withRR ind r2) (funext fun w => congrArg _ (s.loadNegative_eq_arith r1 w))
    · exact congrArg (s.withRS op) (funext fun w => congrArg _ (s.loadNegative_eq_arith r1 w))
    · exact congrArg _ (s.loadWord_wordOfInt r1 (fitsWord_imm imm).2)
    · exact congrArg (s.withCH op) (funext fun c => congrArg _ (s.loadWord_wordOfInt r1 (fitsWord_char c).2))

/-- Settles O32: STR and ST leave `State.stored` in memory, STC leaves `State.storedChar`. -/
theorem storesPutTheRegister : Obligations.StoresPutTheRegister := by
  unfold Obligations.StoresPutTheRegister
  refine ⟨fun r1 r2 s => ?_, fun r1 r2 s a hwf ha hal hp => ?_, fun r1 op s a hwf hea hal hp => ?_,
    fun r1 op s a hwf hea hp => ?_⟩
  · exact ⟨_, rfl, ⟨State.reg_setReg_self s r2 _, rfl, unchanged_setReg_setCcr s r2 _ _⟩, cmpS_zero_isSignOf _⟩
  · subst ha
    exact ⟨_, congrArg s.finish (State.storeWord_mem r1 hal hp), State.putsInMemory_stored hwf r1 _,
      cmpS_zero_isSignOf _⟩
  · exact ⟨_, exec_st_completes r1 hea hal hp, State.putsInMemory_stored hwf r1 a, cmpS_zero_isSignOf _⟩
  · exact ⟨_, exec_stc_completes r1 hea hp, State.putsCharacter_storedChar hwf r1 a, cmpU_zero_isSignOf _⟩

/-- Settles O33: the swap of two registers leaves `State.swappedRegs`, with a word in memory `State.swapped`, with a character
`State.swappedChar`. -/
theorem swapsExchange : Obligations.SwapsExchange := by
  unfold Obligations.SwapsExchange
  refine ⟨fun r1 r2 s => ?_, fun r1 r2 s a hwf ha hal hp => ?_, fun r1 op s a hwf hea hal hp => ?_,
    fun r1 op s a hwf hea hp => ?_⟩
  · exact ⟨s.swappedRegs r1 r2, rfl, State.reg_setReg_self _ r1 _, s.swappedRegs_reg_right r1 r2, cmpS_zero_isSignOf _, rfl,
      unchanged_swappedRegs s r1 r2⟩
  · subst ha
    exact State.finish_swapWord_mem hwf r1 hal hp
  · have hx : exec (.swap r1 op) s = s.finish (s.swapWord r1 (.mem a)) := State.withEA_of_ok hea _
    rw [hx]
    exact State.finish_swapWord_mem hwf r1 hal hp
  · refine ⟨s.swappedChar r1 a, exec_swapc_completes r1 hea hp, ?_,
      fun hs => ⟨State.swappedChar_highChars hs, State.byteAt_swappedChar hwf hs⟩, cmpU_zero_isSignOf _,
      s.putByte_pc a _, unchanged_swappedChar hwf r1 a⟩
    rw [State.swappedChar_reg, lowChar_withLowChar]

end

