-- ==== Sys2Proof/Proofs/Logical.lean ====
section
/-! SUPPORT. The statements about the logical instructions (41_logical.md, R115 to R130): every word and immediate form is
`State.logicWord` of its result, every character form `State.logicChar`. -/

namespace Sys2Proof.Machine

/-- `classify` sets the flag of R21's class and no other. At width 0 all ones and all zeros are one value, and it is G. -/
theorem classify_isClassOf {n : Nat} (v : BitVec n) : (classify v).isClassOf v := by
  unfold classify
  split_ifs with hones hzeros
  · exact ⟨rfl, iff_of_true rfl hones, iff_of_false Bool.false_ne_true fun h => h.2 hones,
      iff_of_false Bool.false_ne_true fun h => h.2 hones⟩
  · exact ⟨rfl, iff_of_false Bool.false_ne_true hones, iff_of_true rfl ⟨hzeros, hones⟩,
      iff_of_false Bool.false_ne_true fun h => h.1 hzeros⟩
  · exact ⟨rfl, iff_of_false Bool.false_ne_true hones, iff_of_false Bool.false_ne_true fun h => hzeros h.1,
      iff_of_true rfl ⟨hzeros, hones⟩⟩

/-! ### Word and immediate forms -/

/-- The instruction gives a next state with a function of R1 and the operand in R1, and the class of that word in the CCR
(R115). -/
def GivesLogicWord (f : Word → Word → Word) (i : Instr) (s : State) (r1 : Reg) (w : Word) : Prop :=
  ∃ t, exec i s = .next t ∧ PutsInRegister r1 (f (s.reg r1) w) s t ∧ t.ccr.isClassOf (f (s.reg r1) w)

theorem State.putsInRegister_logicWord (s : State) (r1 : Reg) (r : Word) : PutsInRegister r1 r s (s.logicWord r1 r) :=
  ⟨State.reg_setReg_self s r1 r, rfl, unchanged_setReg_setCcr s r1 r (classify r)⟩

theorem GivesLogicWord.of_logicWord {f : Word → Word → Word} {i : Instr} {s : State} {r1 : Reg} {w : Word}
    (h : exec i s = .next (s.logicWord r1 (f (s.reg r1) w))) : GivesLogicWord f i s r1 w :=
  ⟨_, h, s.putsInRegister_logicWord r1 _, classify_isClassOf _⟩

/-- An operation gives its result in its three word forms if each puts the `logicWord` of that function of R1 and the operand. -/
theorem threeForms_of_logicWord {rr : Bool → Reg → Reg → Instr} {rs : Reg → MemOperand → Instr}
    {im : Bool → Reg → Imm → Instr} (f : Word → Word → Word)
    (hrr : ∀ ind r1 r2 s, exec (rr ind r1 r2) s = s.withRR ind r2 fun w => .ok (s.logicWord r1 (f (s.reg r1) w)))
    (hrs : ∀ r1 op s, exec (rs r1 op) s = s.withRS op fun w => .ok (s.logicWord r1 (f (s.reg r1) w)))
    (him : ∀ ign r1 imm s, exec (im ign r1 imm) s = .next (s.logicWord r1 (f (s.reg r1) (zimm imm)))) :
    ThreeForms rr rs im (BitVec.setWidth 32) (GivesLogicWord f) := by
  refine ⟨fun ind r1 r2 s w h => .of_logicWord ?_, fun r1 op s w h => .of_logicWord ?_,
    fun ign r1 imm s => .of_logicWord (him ign r1 imm s)⟩
  · rw [hrr, State.withRR_of_ok h, State.finish_ok]
  · rw [hrs, State.withRS_of_ok h, State.finish_ok]

/-! ### Character forms -/

/-- For every readable character the instruction gives a next state with a function of the low-order characters in bits 24 to
31 of R1, bits 0 to 23 kept, and the class of those eight bits in the CCR (R118, R220). -/
def GivesLogicChar (f : Byte → Byte → Byte) (ch : Reg → MemOperand → Instr) : Prop :=
  ∀ r1 op s c, s.charCH op = .ok c →
    ∃ t, exec (ch r1 op) s = .next t ∧ lowChar (t.reg r1) = f (lowChar (s.reg r1)) c ∧
      (t.reg r1).extractLsb' 8 24 = (s.reg r1).extractLsb' 8 24 ∧ t.ccr.isClassOf (f (lowChar (s.reg r1)) c) ∧
      t.pc = s.pc ∧ Unchanged [r1] [] s t

section
variable (s : State) (r1 : Reg) (r8 : Byte)

theorem State.logicChar_reg : (s.logicChar r1 r8).reg r1 = withLowChar (s.reg r1) r8 := State.reg_setReg_self s r1 _

/-- `CH_LOGIC_CCR_SCOPE` is char8: the class is that of the eight bits, whatever bits 0 to 23 hold (R220, D18). -/
theorem State.logicChar_ccr : (s.logicChar r1 r8).ccr = classify r8 := rfl

theorem unchanged_logicChar : Unchanged [r1] [] s (s.logicChar r1 r8) := unchanged_setReg_setCcr s r1 _ _

end

theorem givesLogicChar_of_logicChar {ch : Reg → MemOperand → Instr} (f : Byte → Byte → Byte)
    (hch : ∀ r1 op s, exec (ch r1 op) s = s.withCH op fun c => .ok (s.logicChar r1 (f (lowChar (s.reg r1)) c))) :
    GivesLogicChar f ch := by
  intro r1 op s c hc
  refine ⟨s.logicChar r1 (f (lowChar (s.reg r1)) c), ?_, ?_, ?_, ?_, rfl, unchanged_logicChar s r1 _⟩
  · rw [hch, State.withCH_of_ok hc, State.finish_ok]
  · rw [State.logicChar_reg, lowChar_withLowChar]
  · rw [State.logicChar_reg, highChars_withLowChar]
  · rw [State.logicChar_ccr]
    exact classify_isClassOf _

end Sys2Proof.Machine

open Sys2Proof Sys2Proof.Machine

/-- Settles O34: each of the twelve instructions is `State.logicWord` of its result. -/
theorem logicalWords : Obligations.LogicalWords :=
  ⟨threeForms_of_logicWord (fun x w => x &&& w) (fun _ _ _ _ => rfl) (fun _ _ _ => rfl) (fun _ _ _ _ => rfl),
    threeForms_of_logicWord (fun x w => x ||| w) (fun _ _ _ _ => rfl) (fun _ _ _ => rfl) (fun _ _ _ _ => rfl),
    threeForms_of_logicWord (fun x w => x ^^^ w) (fun _ _ _ _ => rfl) (fun _ _ _ => rfl) (fun _ _ _ _ => rfl),
    threeForms_of_logicWord (fun _ w => ~~~w) (fun _ _ _ _ => rfl) (fun _ _ _ => rfl) (fun _ _ _ _ => rfl)⟩

/-- Settles O35: each of the four instructions is `State.logicChar` of its result. -/
theorem logicalCharacters : Obligations.LogicalCharacters :=
  ⟨givesLogicChar_of_logicChar (fun x c => x &&& c) (fun _ _ _ => rfl),
    givesLogicChar_of_logicChar (fun x c => x ||| c) (fun _ _ _ => rfl),
    givesLogicChar_of_logicChar (fun x c => x ^^^ c) (fun _ _ _ => rfl),
    givesLogicChar_of_logicChar (fun _ c => ~~~c) (fun _ _ _ => rfl)⟩

end

