-- ==== Sys2Proof/Proofs/BranchAndCondition.lean ====
section
/-! SUPPORT. The statements about branches, branch and link, and saving conditions (42_branch_and_condition.md, R131 to R139). -/

namespace Sys2Proof.Machine

/-! ### The mask test as a choice (R22) -/

/-- What is chosen when the mask test holds. -/
theorem Ccr.ite_masktest {α : Type} (c : Ccr) (m : Mask) (x y : α) :
    (if c.masktest m then x else y) = if (c.number &&& m.toNat) ≠ 0 then x else y :=
  if_congr (c.masktest_iff m) rfl rfl

/-- What is chosen when the mask test fails. -/
theorem Ccr.ite_not_masktest {α : Type} (c : Ccr) (m : Mask) (x y : α) :
    (if !c.masktest m then x else y) = if (c.number &&& m.toNat) = 0 then x else y := by
  refine if_congr ?_ rfl rfl
  rw [Bool.not_eq_true', Bool.eq_false_iff, Ne, c.masktest_iff m, not_not]

/-! ### Branches (R131 to R136) -/

section
variable (s : State)

/-- A branch replaces pc or leaves it, and does nothing else. -/
theorem State.branchIf_eq (b : Bool) (t : Addr) : s.branchIf b t = { s with pc := if b then t else s.pc } := by
  cases b <;> rfl

/-- Branch Conditions Set (R131, R132). -/
theorem State.branchIf_masktest (m1 : Mask) (t : Addr) : s.branchIf (s.ccr.masktest m1) t =
    { s with pc := if (s.ccr.number &&& m1.toNat) ≠ 0 then t else s.pc } := by
  rw [State.branchIf_eq, Ccr.ite_masktest]

/-- Branch Conditions Reset (R133, R134). -/
theorem State.branchIf_not_masktest (m1 : Mask) (t : Addr) : s.branchIf (!s.ccr.masktest m1) t =
    { s with pc := if (s.ccr.number &&& m1.toNat) = 0 then t else s.pc } := by
  rw [State.branchIf_eq, Ccr.ite_not_masktest]

/-- Branch and link leaves the old pc in R1 (R135). -/
theorem State.branchAndLink_reg (r1 : Reg) (t : Addr) : (s.branchAndLink r1 t).reg r1 = s.pc.setWidth 32 :=
  State.reg_setReg_self s r1 _

/-- Branch and link changes R1 and pc alone (R135). -/
theorem unchanged_branchAndLink (r1 : Reg) (t : Addr) : Unchanged [r1] [] s (s.branchAndLink r1 t) :=
  (unchanged_setReg s r1 _).trans (unchanged_setPc _ t)

end

theorem exec_bal_completes {s : State} {op : MemOperand} {a : Addr} (r1 : Reg) (hea : s.ea op = .ok a) :
    exec (.bal r1 op) s = .next (s.branchAndLink r1 a) :=
  State.withEA_of_ok hea _

/-- The whole cycle of a BAL whose address is direct and not indexed (R16, R64, R136). -/
theorem step_bal {s : State} {r1 : Reg} {a : Addr} (hr : s.outcome = .running) (he : isEven s.pc = true)
    (hp : s.present s.pc 4 = true) (hb : s.instrBytes s.pc 4 = encode (.bal r1 ⟨false, none, a⟩)) :
    step s = .next (({ s with ia := s.pc }.setPc (s.pc + 4)).branchAndLink r1 a) := by
  rw [step_encode_four hr he rfl rfl hp hb]
  refine exec_bal_completes r1 ?_
  rw [State.ea_direct, State.add_indexValue_none]

/-! ### Saving conditions (R137 to R139) -/

section
variable (s : State)

/-- The word saved, by the number of the CCR (R22, R137). -/
theorem State.conditionWord_eq (m1 : Mask) :
    s.conditionWord m1 = if (s.ccr.number &&& m1.toNat) ≠ 0 then BitVec.allOnes 32 else 0 :=
  Ccr.ite_masktest s.ccr m1 (BitVec.allOnes 32) 0

/-- The character SACC saves is the low-order one of the word SAC saves (R139). -/
theorem State.conditionChar_eq_lowChar (m1 : Mask) : s.conditionChar m1 = lowChar (s.conditionWord m1) := by
  unfold State.conditionChar State.conditionWord
  cases s.ccr.masktest m1 <;> rfl

theorem State.putsInRegister_setReg (r : Reg) (v : Word) : PutsInRegister r v s (s.setReg r v) :=
  ⟨State.reg_setReg_self s r v, rfl, unchanged_setReg s r v⟩

end

section
variable {s : State} {a : Addr}

theorem State.putsInMemory_putWord (h : s.mem.wf = true) (a : Addr) (v : Word) : PutsInMemory a v s (s.putWord a v) :=
  ⟨State.wordAt_putWord h a v, s.putWord_pc a v, unchanged_putWord h a v⟩

theorem State.putsCharacter_putByte (h : s.mem.wf = true) (a : Addr) (c : Byte) :
    PutsCharacter a c s (s.putByte a c) :=
  ⟨by rw [State.byteAt_putByte h, if_pos rfl], s.putByte_pc a c, unchanged_putByte h a c⟩

/-- An instruction that only writes a word at an aligned address, whichever way it gives the address, keeps the CCR. -/
theorem State.finish_writeW_mem (h : s.mem.wf = true) (v : Word) (hal : a.toNat % 4 = 0) (hp : s.present a 4 = true) :
    ∃ t, s.finish (s.writeW (.mem a) v) = .next t ∧ PutsInMemory a v s t ∧ t.ccr = s.ccr := by
  have hw : s.writeW (.mem a) v = .ok (s.putWord a v) := State.writeW_mem_ok.2 ⟨(onWordBoundary_iff a).2 hal, hp, rfl⟩
  exact ⟨s.putWord a v, by rw [hw, State.finish_ok], State.putsInMemory_putWord h a v, s.putWord_ccr a v⟩

/-- The same for a character at any address. -/
theorem State.finish_memWrite1 (h : s.mem.wf = true) (c : Byte) (hp : s.present a 1 = true) :
    ∃ t, s.finish (s.memWrite1 a c) = .next t ∧ PutsCharacter a c s t ∧ t.ccr = s.ccr := by
  have hw : s.memWrite1 a c = .ok (s.putByte a c) := State.memWrite1_ok.2 ⟨hp, rfl⟩
  exact ⟨s.putByte a c, by rw [hw, State.finish_ok], State.putsCharacter_putByte h a c, s.putByte_ccr a c⟩

end

end Sys2Proof.Machine

open Sys2Proof Sys2Proof.Machine

/-- Settles O36: each branch is `State.branchIf` of the mask test, the target `State.rrAddr` or the effective address. -/
theorem branchesTestTheMask : Obligations.BranchesTestTheMask := by
  unfold Obligations.BranchesTestTheMask
  refine ⟨fun ind m1 r2 s => ?_, fun ind m1 r2 s => ?_, fun m1 op s a hea => ?_, fun m1 op s a hea => ?_⟩
  · exact congrArg _ (s.branchIf_masktest m1 (s.rrAddr ind r2))
  · exact congrArg _ (s.branchIf_not_masktest m1 (s.rrAddr ind r2))
  · exact (State.withEA_of_ok hea _).trans (congrArg _ (s.branchIf_masktest m1 a))
  · exact (State.withEA_of_ok hea _).trans (congrArg _ (s.branchIf_not_masktest m1 a))

/-- Settles O37: both instructions are `State.branchAndLink`, and in a cycle pc is already past the four characters of BAL. -/
theorem branchAndLinkSavesPc : Obligations.BranchAndLinkSavesPc := by
  unfold Obligations.BranchAndLinkSavesPc
  refine ⟨fun ind r1 r2 s => rfl, fun r1 op s a hea => exec_bal_completes r1 hea, fun r1 a s hr he hp hb => ?_⟩
  exact ⟨_, step_bal hr ((isEven_iff _).2 he) hp hb, rfl, State.branchAndLink_reg _ r1 a,
    (unchanged_setPc { s with ia := s.pc } (s.pc + 4)).trans (unchanged_branchAndLink _ r1 a)⟩

/-- Settles O38: the word or character saved is written by itself, in R2 or in memory. -/
theorem saveConditionStoresOnesOrZeros : Obligations.SaveConditionStoresOnesOrZeros := by
  unfold Obligations.SaveConditionStoresOnesOrZeros
  simp only [← State.conditionWord_eq, ← State.conditionChar_eq_lowChar]
  refine ⟨fun m1 r2 s => ?_, fun m1 r2 s a hwf ha hal hp => ?_, fun m1 op s a hwf hea hal hp => ?_,
    fun m1 op s a hwf hea hp => ?_⟩
  · exact ⟨_, rfl, s.putsInRegister_setReg r2 _, rfl⟩
  · subst ha
    exact State.finish_writeW_mem hwf (s.conditionWord m1) hal hp
  · have hx : exec (.sac m1 op) s = s.finish (s.writeW (.mem a) (s.conditionWord m1)) := State.withEA_of_ok hea _
    rw [hx]
    exact State.finish_writeW_mem hwf (s.conditionWord m1) hal hp
  · have hx : exec (.sacc m1 op) s = s.finish (s.memWrite1 a (s.conditionChar m1)) := State.withEA_of_ok hea _
    rw [hx]
    exact State.finish_memWrite1 hwf (s.conditionChar m1) hp

end

