-- ==== Sys2Proof/Proofs/CompareAndString.lean ====
section
/-! SUPPORT. The statements about compares and the two character-string instructions (43_compare_and_string.md, R140 to R145).
Both string loops are followed forwards, from the addresses after k steps to those after k + 1. -/

namespace Sys2Proof.Machine

/-! ### Equality in the unsigned comparison (R20) -/

theorem cmpU_self (c : Byte) : cmpU c c = .onlyE := by
  rw [cmpU, if_neg (Nat.lt_irrefl _), if_pos rfl]

theorem cmpU_e_of_ne {a b : Byte} (h : a ≠ b) : (cmpU a b).e = false := by
  obtain ⟨-, -, -, he⟩ := cmpU_isSignOf a b
  have hne : a.toNat ≠ b.toNat := fun e => h (BitVec.eq_of_toNat_eq e)
  rw [Bool.eq_false_iff, Ne, he]
  omega

/-! ### String descriptors (R12, R144) -/

section
variable (m1 : Mask) (r2 : Reg) (s : State)

theorem stringA1_zero : stringA1 m1 r2 s 0 = lowHalf (s.reg r2) := by
  rw [stringA1, BitVec.zero_mul, BitVec.add_zero]

theorem stringA2_zero : stringA2 r2 s 0 = lowHalf (s.reg (pairSecond r2)) := BitVec.add_zero _

theorem stringA1_succ (k : Nat) : stringA1 m1 r2 s (k + 1) = stringA1 m1 r2 s k + stride m1 := by
  rw [stringA1, stringA1, stride, BitVec.ofNat_add, BitVec.add_mul, BitVec.one_mul, BitVec.add_assoc]

theorem stringA2_succ (k : Nat) : stringA2 r2 s (k + 1) = stringA2 r2 s k + 1 := by
  rw [stringA2, stringA2, BitVec.ofNat_add, BitVec.add_assoc]
  rfl

/-- The length in a descriptor has 16 bits. -/
theorem stringLength_lt : stringLength r2 s < 2 ^ 16 := (highHalf (s.reg (r2 + 1))).isLt

theorem ofNat_stringLength : BitVec.ofNat 16 (stringLength r2 s) = highHalf (s.reg (pairSecond r2)) := by
  rw [stringLength, pairSecond, BitVec.ofNat_toNat, BitVec.setWidth_eq]

/-- Fewer than 2^16 steps do not come back to an address of the second string. -/
theorem stringA2_inj {r2 : Reg} {s : State} {j k : Nat} (hj : j < 2 ^ 16) (hk : k < 2 ^ 16)
    (h : stringA2 r2 s j = stringA2 r2 s k) : j = k := by
  have hn := congrArg BitVec.toNat ((BitVec.add_right_inj _).1 h)
  rwa [BitVec.toNat_ofNat, BitVec.toNat_ofNat, Nat.mod_eq_of_lt hj, Nat.mod_eq_of_lt hk] at hn

/-- The second string is a range of characters. -/
theorem byteRange_stringA2 (n : Nat) : byteRange (stringA2 r2 s 0) n = (List.range n).map (stringA2 r2 s) := by
  rw [stringA2_zero]
  rfl

end

section
variable (s : State) (r2 : Reg) (a1 len a2 : BitVec 16)

theorem ne_pairSecond : r2 ≠ pairSecond r2 := by
  revert r2
  decide

theorem State.putDescriptor_reg : (s.putDescriptor r2 a1 len a2).reg r2 = (0 : BitVec 16) ++ a1 := by
  rw [State.putDescriptor, State.reg_setReg_ne _ _ (ne_pairSecond r2), State.reg_setReg_self]

theorem State.putDescriptor_reg_pairSecond : (s.putDescriptor r2 a1 len a2).reg (r2 + 1) = len ++ a2 :=
  State.reg_setReg_self _ _ _

theorem unchanged_putDescriptor : Unchanged [r2, r2 + 1] [] s (s.putDescriptor r2 a1 len a2) :=
  (unchanged_setReg s r2 _).trans (unchanged_setReg _ (pairSecond r2) _)

end

/-! ### CCS (R144) -/

/-- Work after a step that succeeds. -/
theorem ok_bind {α β : Type} (x : α) (f : α → Except Stop β) : ((.ok x : Except Stop α) >>= f) = f x := rfl

section
variable {s : State} {m1 : Mask} {r2 : Reg} {n : Nat}

/-- A pair of equal characters is passed over. -/
theorem State.compareLoop_of_eq (d : Addr) {a1 a2 : Addr} (h1 : s.present a1 1 = true) (h2 : s.present a2 1 = true)
    (he : s.byteAt a1 = s.byteAt a2) (n : Nat) (c : Ccr) :
    s.compareLoop d (n + 1) a1 a2 c = s.compareLoop d n (a1 + d) (a2 + 1) .onlyE := by
  rw [State.compareLoop, State.memRead1_ok.2 ⟨h1, he⟩, State.memRead1_ok.2 ⟨h2, rfl⟩]
  simp only [ok_bind, cmpU_self]
  rfl

/-- A pair of unequal characters ends the loop and is counted in L. -/
theorem State.compareLoop_of_ne (d : Addr) {a1 a2 : Addr} (h1 : s.present a1 1 = true) (h2 : s.present a2 1 = true)
    (hne : s.byteAt a1 ≠ s.byteAt a2) (n : Nat) (c : Ccr) :
    s.compareLoop d (n + 1) a1 a2 c = .ok ⟨a1, n + 1, a2, cmpU (s.byteAt a1) (s.byteAt a2)⟩ := by
  rw [State.compareLoop, State.memRead1_ok.2 ⟨h1, rfl⟩, State.memRead1_ok.2 ⟨h2, rfl⟩]
  simp only [ok_bind, cmpU_e_of_ne hne]
  rfl

/-- The loop passes over n equal pairs, and the CCR is still E. -/
theorem State.compareLoop_equalPairs {len : Nat} (hn : n ≤ len)
    (hp : ∀ k < n, s.present (stringA1 m1 r2 s k) 1 = true ∧ s.present (stringA2 r2 s k) 1 = true)
    (he : ∀ k < n, s.byteAt (stringA1 m1 r2 s k) = s.byteAt (stringA2 r2 s k)) :
    s.compareLoop (stride m1) len (stringA1 m1 r2 s 0) (stringA2 r2 s 0) .onlyE =
      s.compareLoop (stride m1) (len - n) (stringA1 m1 r2 s n) (stringA2 r2 s n) .onlyE := by
  induction n with
  | zero => rfl
  | succ n ih =>
    obtain ⟨h1, h2⟩ := hp n (Nat.lt_succ_self n)
    rw [ih (Nat.le_of_succ_le hn) (fun k hk => hp k (Nat.lt_succ_of_lt hk)) (fun k hk => he k (Nat.lt_succ_of_lt hk)),
      show len - n = len - (n + 1) + 1 by omega, State.compareLoop_of_eq _ h1 h2 (he n (Nat.lt_succ_self n)),
      stringA1_succ, stringA2_succ]

/-- After n equal pairs the loop stops there, if they are all or if the next pair is unequal. -/
theorem State.compareLoop_firstDifference {len : Nat} (hn : n ≤ len)
    (hp : ∀ k, k < n ∨ (k = n ∧ n < len) →
      s.present (stringA1 m1 r2 s k) 1 = true ∧ s.present (stringA2 r2 s k) 1 = true)
    (he : ∀ k < n, s.byteAt (stringA1 m1 r2 s k) = s.byteAt (stringA2 r2 s k))
    (hne : n < len → s.byteAt (stringA1 m1 r2 s n) ≠ s.byteAt (stringA2 r2 s n)) :
    ∃ c : Ccr, s.compareLoop (stride m1) len (stringA1 m1 r2 s 0) (stringA2 r2 s 0) .onlyE =
        .ok ⟨stringA1 m1 r2 s n, len - n, stringA2 r2 s n, c⟩ ∧
      c.isSignOf (if n < len then
        ((s.byteAt (stringA1 m1 r2 s n)).toNat : Int) - (s.byteAt (stringA2 r2 s n)).toNat else 0) := by
  rw [State.compareLoop_equalPairs hn (fun k hk => hp k (.inl hk)) he]
  by_cases hlt : n < len
  · obtain ⟨h1, h2⟩ := hp n (.inr ⟨rfl, hlt⟩)
    obtain ⟨m, hm⟩ : ∃ m, len - n = m + 1 := ⟨len - n - 1, by omega⟩
    rw [hm, if_pos hlt]
    exact ⟨_, State.compareLoop_of_ne _ h1 h2 (hne hlt) m _, cmpU_isSignOf _ _⟩
  · rw [if_neg hlt, show len - n = 0 by omega]
    exact ⟨.onlyE, rfl, cmpU_zero_isSignOf 0⟩

theorem exec_ccs_eq (ign : Bool) (m1 : Mask) (r2 : Reg) (s : State) : exec (.ccs ign m1 r2) s = s.finish
    (s.compareLoop (stride m1) (stringLength r2 s) (stringA1 m1 r2 s 0) (stringA2 r2 s 0) .onlyE >>= fun d =>
      .ok ((s.putDescriptor r2 d.a1 (BitVec.ofNat 16 d.len) d.a2).setCcr d.ccr)) := by
  rw [stringA1_zero, stringA2_zero]
  rfl

/-- CCS puts what its loop ends with in the descriptor and the CCR. -/
theorem exec_ccs_completes (ign : Bool) {d : StringRegs}
    (h : s.compareLoop (stride m1) (stringLength r2 s) (stringA1 m1 r2 s 0) (stringA2 r2 s 0) .onlyE = .ok d) :
    exec (.ccs ign m1 r2) s = .next ((s.putDescriptor r2 d.a1 (BitVec.ofNat 16 d.len) d.a2).setCcr d.ccr) := by
  rw [exec_ccs_eq, h, ok_bind, State.finish_ok]

end

/-! ### MCS (R145, R45) -/

/-- The state after the first k characters of an MCS begun in state s: each is read after the one before it is written. -/
def State.moved (m1 : Mask) (r2 : Reg) (s : State) : Nat → State
  | 0 => s
  | k + 1 => (s.moved m1 r2 k).putByte (stringA2 r2 s k) ((s.moved m1 r2 k).byteAt (stringA1 m1 r2 s k))

theorem State.moveLoop_of_present (d : Addr) {a1 a2 : Addr} {s : State} (h1 : s.present a1 1 = true)
    (h2 : s.present a2 1 = true) (n : Nat) :
    State.moveLoop d (n + 1) a1 a2 s = State.moveLoop d n (a1 + d) (a2 + 1) (s.putByte a2 (s.byteAt a1)) := by
  rw [State.moveLoop, State.memRead1_ok.2 ⟨h1, rfl⟩, ok_bind, State.memWrite1_ok.2 ⟨h2, rfl⟩, ok_bind]

section
variable {s : State} {m1 : Mask} {r2 : Reg} {j k n : Nat}

theorem State.moved_params (m1 : Mask) (r2 : Reg) (s : State) (k : Nat) : (s.moved m1 r2 k).params = s.params := by
  induction k with
  | zero => rfl
  | succ k ih => rw [State.moved, State.putByte_params, ih]

theorem State.moved_wf (h : s.mem.wf = true) (k : Nat) : (s.moved m1 r2 k).mem.wf = true := by
  induction k with
  | zero => exact h
  | succ k ih => exact State.putByte_wf ih _ _

/-- After k steps the loop of MCS stands at `State.moved`. -/
theorem State.moveLoop_moved {len : Nat} (hk : k ≤ len)
    (hp : ∀ i < k, s.present (stringA1 m1 r2 s i) 1 = true ∧ s.present (stringA2 r2 s i) 1 = true) :
    State.moveLoop (stride m1) len (stringA1 m1 r2 s 0) (stringA2 r2 s 0) s =
      State.moveLoop (stride m1) (len - k) (stringA1 m1 r2 s k) (stringA2 r2 s k) (s.moved m1 r2 k) := by
  induction k with
  | zero => rfl
  | succ k ih =>
    obtain ⟨h1, h2⟩ := hp k (Nat.lt_succ_self k)
    rw [← State.present_congr (s.moved_params m1 r2 k)] at h1 h2
    rw [ih (Nat.le_of_succ_le hk) fun i hi => hp i (Nat.lt_succ_of_lt hi), show len - k = len - (k + 1) + 1 by omega,
      State.moveLoop_of_present _ h1 h2, stringA1_succ, stringA2_succ, State.moved]

/-- The loop of MCS gives `State.moved`. -/
theorem State.moveLoop_ok
    (hp : ∀ i < n, s.present (stringA1 m1 r2 s i) 1 = true ∧ s.present (stringA2 r2 s i) 1 = true) :
    State.moveLoop (stride m1) n (stringA1 m1 r2 s 0) (stringA2 r2 s 0) s = .ok (s.moved m1 r2 n) := by
  rw [State.moveLoop_moved (Nat.le_refl n) hp, Nat.sub_self, State.moveLoop]

theorem exec_mcs_eq (ign : Bool) (m1 : Mask) (r2 : Reg) (s : State) : exec (.mcs ign m1 r2) s = s.finish
    (State.moveLoop (stride m1) (stringLength r2 s) (stringA1 m1 r2 s 0) (stringA2 r2 s 0) s >>= fun t =>
      .ok (t.putDescriptor r2 (stringA1 m1 r2 s (stringLength r2 s)) 0 (stringA2 r2 s (stringLength r2 s)))) := by
  rw [stringA1_zero, stringA2_zero, stringA1, stringA2, ofNat_stringLength]
  rfl

/-- MCS leaves all its characters moved and the descriptor at the ends of the strings. -/
theorem exec_mcs_completes (ign : Bool) (hp : ∀ k < stringLength r2 s,
      s.present (stringA1 m1 r2 s k) 1 = true ∧ s.present (stringA2 r2 s k) 1 = true) :
    exec (.mcs ign m1 r2) s = .next ((s.moved m1 r2 (stringLength r2 s)).putDescriptor r2
      (stringA1 m1 r2 s (stringLength r2 s)) 0 (stringA2 r2 s (stringLength r2 s))) := by
  rw [exec_mcs_eq, State.moveLoop_ok hp, ok_bind, State.finish_ok]

theorem unchanged_moved (h : s.mem.wf = true) (k : Nat) :
    Unchanged [] ((List.range k).map (stringA2 r2 s)) s (s.moved m1 r2 k) := by
  induction k with
  | zero => exact Unchanged.refl s
  | succ k ih =>
    rw [List.range_succ, List.map_append]
    exact ih.trans (unchanged_putByte (State.moved_wf h k) _ _)

/-- A character that no step has written yet is as it was. -/
theorem State.byteAt_moved_of_ne (h : s.mem.wf = true) {a : Addr} (ha : ∀ j < k, stringA2 r2 s j ≠ a) :
    (s.moved m1 r2 k).byteAt a = s.byteAt a := by
  refine (unchanged_moved h k).bytes a ?_ (by simp)
  simpa using ha

/-- A character of the second string stays what its step made it, the source character as that step found it. -/
theorem State.byteAt_moved_stringA2 (h : s.mem.wf = true) (hn : n ≤ 2 ^ 16) (hk : k < n) :
    (s.moved m1 r2 n).byteAt (stringA2 r2 s k) = (s.moved m1 r2 k).byteAt (stringA1 m1 r2 s k) := by
  induction n with
  | zero => exact absurd hk (Nat.not_lt_zero k)
  | succ n ih =>
    rw [State.moved, State.byteAt_putByte (State.moved_wf h n)]
    by_cases hkn : k = n
    · rw [hkn, if_pos rfl]
    · have hlt : k < n := by omega
      rw [if_neg fun e => hkn (stringA2_inj (by omega) (by omega) e), ih (by omega) hlt]

/-- A destination character whose source no earlier step wrote is the source character as it was. -/
theorem State.byteAt_moved_of_fresh (h : s.mem.wf = true) (hn : n ≤ 2 ^ 16) (hk : k < n)
    (hf : ∀ j < k, stringA2 r2 s j ≠ stringA1 m1 r2 s k) :
    (s.moved m1 r2 n).byteAt (stringA2 r2 s k) = s.byteAt (stringA1 m1 r2 s k) := by
  rw [State.byteAt_moved_stringA2 h hn hk, State.byteAt_moved_of_ne h hf]

/-- A destination character whose source an earlier step wrote is that step's destination character (R45). -/
theorem State.byteAt_moved_of_overlap (h : s.mem.wf = true) (hn : n ≤ 2 ^ 16) (hk : k < n) (hj : j < k)
    (ho : stringA2 r2 s j = stringA1 m1 r2 s k) :
    (s.moved m1 r2 n).byteAt (stringA2 r2 s k) = (s.moved m1 r2 n).byteAt (stringA2 r2 s j) := by
  rw [State.byteAt_moved_stringA2 h hn hk, ← ho, State.byteAt_moved_stringA2 h (by omega) hj,
    State.byteAt_moved_stringA2 h hn (hj.trans hk)]

end

/-- Without register sharing a descriptor is in no character of memory. -/
theorem State.byteAt_putDescriptor_of_none {s : State} (h : s.params.regMemAlias = .none) (r2 : Reg)
    (a1 len a2 : BitVec 16) (a : Addr) : (s.putDescriptor r2 a1 len a2).byteAt a = s.byteAt a :=
  (unchanged_putDescriptor s r2 a1 len a2).bytes a (List.not_mem_nil) fun r _ => State.shares_of_none h a r

end Sys2Proof.Machine

open Sys2Proof Sys2Proof.Machine

/-- Settles O39: each compare is `State.setCcr` of `cmpS` or `cmpU`; the immediate keeps its value when extended. -/
theorem comparesSetOnlyTheCcr : Obligations.ComparesSetOnlyTheCcr := by
  unfold Obligations.ComparesSetOnlyTheCcr
  refine ⟨fun ind r1 r2 s w hw => ?_, fun r1 op s w hw => ?_, fun ign r1 imm s => ?_, fun r1 op s c hc => ?_⟩
  · exact ⟨_, State.withRR_of_ok hw _, cmpS_isSignOf _ w⟩
  · exact ⟨_, State.withRS_of_ok hw _, cmpS_isSignOf _ w⟩
  · have himm : (simm imm).toInt = imm.toInt := BitVec.toInt_signExtend_of_le (by decide)
    exact ⟨_, rfl, himm ▸ cmpS_isSignOf _ (simm imm)⟩
  · exact ⟨_, State.withCH_of_ok hc _, cmpU_isSignOf _ c⟩

/-- Settles O40: the loop passes over the equal pairs and stops at the first difference or at the end. -/
theorem compareStringFindsFirstDifference : Obligations.CompareStringFindsFirstDifference := by
  unfold Obligations.CompareStringFindsFirstDifference
  intro ign m1 r2 s n hn hp he hne
  obtain ⟨c, hloop, hc⟩ := State.compareLoop_firstDifference hn hp he hne
  refine ⟨_, exec_ccs_completes ign hloop, ?_, ?_, hc, rfl, ?_⟩
  · rw [State.setCcr_reg, State.putDescriptor_reg]
  · rw [State.setCcr_reg, State.putDescriptor_reg_pairSecond]
  · exact (unchanged_putDescriptor s r2 _ _ _).trans (unchanged_setCcr _ c)

/-- Settles O41: the state is `State.moved` with the descriptor put, and each destination character is its step's source. -/
theorem moveStringCopiesInOrder : Obligations.MoveStringCopiesInOrder := by
  unfold Obligations.MoveStringCopiesInOrder
  intro ign m1 r2 s hwf hp
  have hlen : stringLength r2 s ≤ 2 ^ 16 := (stringLength_lt r2 s).le
  obtain ⟨hpc, hccr, -⟩ := State.moveLoop_keeps (State.moveLoop_ok hp)
  refine ⟨_, exec_mcs_completes ign hp, State.putDescriptor_reg _ r2 _ _ _, State.putDescriptor_reg_pairSecond _ r2 _ _ _,
    hccr, hpc, ?_, fun halias k hk => ?_⟩
  · rw [byteRange_stringA2]
    exact ((unchanged_moved hwf _).trans (unchanged_putDescriptor _ r2 _ _ _)).mono (by simp) (by simp)
  · have hnone : (s.moved m1 r2 (stringLength r2 s)).params.regMemAlias = .none := by rw [s.moved_params m1 r2, halias]
    simp only [State.byteAt_putDescriptor_of_none hnone]
    exact ⟨State.byteAt_moved_of_fresh hwf hlen hk, fun j hj => State.byteAt_moved_of_overlap hwf hlen hk hj⟩

end

