-- ==== Sys2Proof/Proofs/ExecuteChain.lean ====
section
/-! SUPPORT. The subject of EX, and chains of EX: each link leads on to another EX or the chain is settled, and no chain is
settled after more links than there are even addresses (R147). -/

namespace Sys2Proof.Machine

/-! ### The subject of EX -/

/-- The characters of a well-formed instruction are fetched as that instruction, wherever they stand. -/
theorem State.fetchAt_encode {s : State} {a : Addr} {i : Instr} (hw : i.wf = true)
    (hp : s.present a (encode i).length = true) (hb : s.instrBytes a (encode i).length = encode i) :
    s.fetchAt a = .ok ⟨i, (encode i).length⟩ := by
  obtain ⟨hi, ha, hs⟩ := fieldsReadBack i hw
  have hl : (encode i).length = instrLength i.fields.opcode := Fields.toBytes_length i.fields
  rw [hl] at hp hb ⊢
  exact State.fetchAt_of_fields hi ha hs hp hb

section
variable {s : State} {op op' : MemOperand} {a : Addr} {j k n : Nat}

/-- At an odd effective address the chain ends in the exception. -/
theorem State.exSubject_odd (hea : s.ea op = .ok a) (he : isEven a = false) (n : Nat) :
    s.exSubject (n + 1) op = .error (.raise (.executeAddress a)) := by
  rw [State.exSubject_succ, hea, ok_bind, he]
  rfl

/-- What stops the fetch of the subject stops the chain. -/
theorem State.exSubject_of_fetchAt_error {e : Stop} (hea : s.ea op = .ok a) (he : isEven a = true)
    (hf : s.fetchAt a = .error e) (n : Nat) : s.exSubject (n + 1) op = .error e := by
  rw [State.exSubject_succ, hea, ok_bind, if_pos he, hf]
  rfl

/-- A subject that is not an EX ends the chain. -/
theorem State.exSubject_of_fetchAt {f : Fetched} (hea : s.ea op = .ok a) (he : isEven a = true)
    (hf : s.fetchAt a = .ok f) (hx : isEX f.instr = false) (n : Nat) : s.exSubject (n + 1) op = .ok f.instr := by
  rw [State.exSubject_succ, hea, ok_bind, if_pos he, hf, ok_bind]
  split
  · rename_i h
    rw [h] at hx
    cases hx
  · rfl

/-- The effective address alone decides where a chain leads. -/
theorem State.exSubject_congr (h : s.ea op = s.ea op') (n : Nat) : s.exSubject n op = s.exSubject n op' := by
  cases n with
  | zero => rfl
  | succ n => rw [State.exSubject_succ, State.exSubject_succ, h]

/-! ### Links -/

/-- The subject of an EX with the address fields `op` is another EX, with the address fields `op'`: a link of a chain. -/
def State.Links (s : State) (op op' : MemOperand) : Prop :=
  ∃ a q len, s.ea op = .ok a ∧ isEven a = true ∧ s.fetchAt a = .ok ⟨.ex q op', len⟩

theorem State.Links.exSubject (h : s.Links op op') (n : Nat) : s.exSubject (n + 1) op = s.exSubject n op' := by
  obtain ⟨a, q, len, hea, he, hf⟩ := h
  rw [State.exSubject_succ, hea, ok_bind, if_pos he, hf, ok_bind]

/-- An EX whose characters stand at the even effective address of another is linked to it. -/
theorem State.Links.of_encode {q : Reg} (hea : s.ea op = .ok a) (he : a.toNat % 2 = 0) (hw : op'.wf = true)
    (hp : s.present a 4 = true) (hb : s.instrBytes a 4 = encode (.ex q op')) : s.Links op op' :=
  ⟨a, q, 4, hea, (isEven_iff a).2 he, State.fetchAt_encode (i := .ex q op') hw hp hb⟩

/-- Every EX has a link to another, or an answer that no number of further links changes. -/
theorem State.links_or_settled (s : State) (op : MemOperand) :
    (∃ op', s.Links op op') ∨ ∃ r, r ≠ .error .endless ∧ ∀ n, s.exSubject (n + 1) op = r := by
  cases hea : s.ea op with
  | error e =>
    refine .inr ⟨.error e, ?_, fun n => by rw [State.exSubject_succ, hea]; rfl⟩
    obtain ⟨-, ⟨-, rfl⟩ | ⟨-, -, rfl⟩⟩ := State.ea_error.1 hea <;> simp
  | ok a =>
    cases he : isEven a with
    | false => exact .inr ⟨_, by simp, State.exSubject_odd hea he⟩
    | true =>
      cases hf : s.fetchAt a with
      | error e =>
        refine .inr ⟨.error e, ?_, State.exSubject_of_fetchAt_error hea he hf⟩
        rcases State.fetchAt_error hf with rfl | rfl <;> simp
      | ok f =>
        cases hx : isEX f.instr with
        | false => exact .inr ⟨_, by simp, State.exSubject_of_fetchAt hea he hf hx⟩
        | true =>
          obtain ⟨i, len⟩ := f
          obtain ⟨q, op', rfl⟩ : ∃ q op', i = .ex q op' := by cases i <;> simp [isEX] at hx ⊢
          exact .inl ⟨op', a, q, len, hea, he, hf⟩

/-- An answer of a chain stands, however many more links may be followed. -/
theorem State.exSubject_of_le (h : s.exSubject n op ≠ .error .endless) (hk : n ≤ k) :
    s.exSubject k op = s.exSubject n op := by
  induction n generalizing op k with
  | zero => exact absurd rfl h
  | succ n ih =>
    obtain ⟨k, rfl⟩ : ∃ m, k = m + 1 := ⟨k - 1, by omega⟩
    rcases s.links_or_settled op with ⟨op', hl⟩ | ⟨r, -, hr⟩
    · rw [hl.exSubject] at h ⊢
      rw [hl.exSubject, ih h (by omega)]
    · rw [hr, hr]

/-! ### Chains that are settled -/

/-- The chain of an EX is settled after exactly n links to another EX. -/
def State.SettledAfter (s : State) (n : Nat) (op : MemOperand) : Prop :=
  s.exSubject n op = .error .endless ∧ s.exSubject (n + 1) op ≠ .error .endless

/-- A chain with an answer is settled after fewer links than were allowed. -/
theorem State.exists_settledAfter (h : s.exSubject n op ≠ .error .endless) : ∃ m < n, s.SettledAfter m op := by
  induction n with
  | zero => exact absurd rfl h
  | succ n ih =>
    by_cases hn : s.exSubject n op = .error .endless
    · exact ⟨n, Nat.lt_succ_self n, hn, h⟩
    · obtain ⟨m, hm, hs⟩ := ih hn
      exact ⟨m, Nat.lt_succ_of_lt hm, hs⟩

/-- EX instructions with one effective address are settled after the same number of links. -/
theorem State.SettledAfter.le_of_ea (hj : s.SettledAfter j op) (hk : s.SettledAfter k op') (h : s.ea op = s.ea op') :
    k ≤ j := by
  obtain ⟨-, hj⟩ := hj
  obtain ⟨hk, -⟩ := hk
  by_contra hlt
  rw [← State.exSubject_congr h, State.exSubject_of_le hj (by omega)] at hk
  exact hj hk

theorem State.SettledAfter.link (h : s.SettledAfter (n + 1) op) : ∃ op', s.Links op op' ∧ s.SettledAfter n op' := by
  obtain ⟨he, hs⟩ := h
  rcases s.links_or_settled op with ⟨op', hl⟩ | ⟨r, hne, hr⟩
  · rw [hl.exSubject] at he hs
    exact ⟨op', hl, he, hs⟩
  · exact absurd ((hr n).symm.trans he) hne

/-- A chain settled after n links passes EX instructions settled after every smaller number of links. -/
theorem State.SettledAfter.exists_of_le (h : s.SettledAfter n op) (hk : k ≤ n) : ∃ op', s.SettledAfter k op' := by
  induction hk using Nat.decreasingInduction with
  | self => exact ⟨op, h⟩
  | of_succ m _ ih =>
    obtain ⟨op₁, h₁⟩ := ih
    obtain ⟨op₂, -, h₂⟩ := h₁.link
    exact ⟨op₂, h₂⟩

/-- The effective address of a link is one of the 32768 even addresses. -/
theorem State.Links.ea_eq (h : s.Links op op') : ∃ m : Fin 32768, s.ea op = .ok (BitVec.ofNat 16 (2 * m)) := by
  obtain ⟨a, -, -, hea, he, -⟩ := h
  have hlt := a.isLt
  have h2 := (isEven_iff a).1 he
  refine ⟨⟨a.toNat / 2, by omega⟩, hea.trans (congrArg _ (BitVec.eq_of_toNat_eq ?_))⟩
  simp only [BitVec.toNat_ofNat]
  omega

/-- A chain is settled after at most as many links as there are even addresses: the EX instructions it passes are settled
after different numbers of links, so no two have one effective address. -/
theorem State.SettledAfter.le (h : s.SettledAfter n op) : n ≤ 32768 := by
  have passed (k : Fin n) : ∃ m : Fin 32768, ∃ op', s.SettledAfter (k + 1) op' ∧
      s.ea op' = .ok (BitVec.ofNat 16 (2 * m)) := by
    obtain ⟨op', hs⟩ := h.exists_of_le k.isLt
    obtain ⟨_, hl, -⟩ := hs.link
    obtain ⟨m, hm⟩ := hl.ea_eq
    exact ⟨m, op', hs, hm⟩
  choose m p hs hm using passed
  have hinj : Function.Injective m := fun j k hjk => by
    have hea : s.ea (p j) = s.ea (p k) := by rw [hm, hm, hjk]
    have hkj := (hs j).le_of_ea (hs k) hea
    have hjk := (hs k).le_of_ea (hs j) hea.symm
    exact Fin.ext (by omega)
  simpa using Fintype.card_le_of_injective m hinj

/-- The bound on the links EX follows loses no answer (R147). -/
theorem State.exSubject_of_exLinks_le (s : State) (op : MemOperand) (hn : exLinks ≤ n) :
    s.exSubject n op = s.exSubject exLinks op := by
  by_cases h : s.exSubject n op = .error .endless
  · by_contra hne
    exact hne (State.exSubject_of_le (fun he => hne (h.trans he.symm)) hn)
  · obtain ⟨m, -, hm⟩ := State.exists_settledAfter h
    have hle : m + 1 ≤ exLinks := Nat.succ_le_succ hm.le
    rw [State.exSubject_of_le hm.2 hle, State.exSubject_of_le hm.2 (hle.trans hn)]

/-- A link of EX to itself settles nothing. -/
theorem State.Links.exSubject_self (h : s.Links op op) (n : Nat) : s.exSubject n op = .error .endless := by
  induction n with
  | zero => rfl
  | succ n ih => rw [h.exSubject, ih]

/-! ### EX (R147) -/

/-- A link changes nothing of what EX does, although the outer EX may follow one link less of the inner one's chain. -/
theorem exec_ex_of_links (h : s.Links op op') (r1 q : Reg) : exec (.ex r1 op) s = exec (.ex q op') s := by
  have hs : s.exSubject exLinks op = s.exSubject exLinks op' :=
    (s.exSubject_of_exLinks_le op (Nat.le_succ exLinks)).symm.trans (h.exSubject exLinks)
  rw [execEX_eq, execEX_eq, hs]

/-- EX of a subject that is not an EX is the subject. -/
theorem exec_ex_of_encode {i : Instr} (r1 : Reg) (hea : s.ea op = .ok a) (he : a.toNat % 2 = 0) (hw : i.wf = true)
    (hx : isEX i = false) (hp : s.present a (encode i).length = true)
    (hb : s.instrBytes a (encode i).length = encode i) : exec (.ex r1 op) s = exec i s := by
  rw [execEX_eq, exLinks,
    State.exSubject_of_fetchAt hea ((isEven_iff a).2 he) (State.fetchAt_encode hw hp hb) hx]

theorem exec_ex_odd (r1 : Reg) (hea : s.ea op = .ok a) (he : a.toNat % 2 = 1) :
    exec (.ex r1 op) s = .next (s.takeException (.executeAddress a)) := by
  rw [execEX_eq, exLinks, State.exSubject_odd hea ((isEven_eq_false_iff a).2 (by omega))]
  rfl

/-- EX of an EX of itself never completes. -/
theorem exec_ex_self (r1 : Reg) (h : s.Links op op') (hself : s.Links op' op') :
    exec (.ex r1 op) s = .fault .executeNeverCompletes := by
  rw [exec_ex_of_links h r1 r1, execEX_eq, hself.exSubject_self]
  rfl

end

end Sys2Proof.Machine
end

