-- ==== Sys2Proof/Proofs/SystemAndMultiple.lean ====
section
/-! SUPPORT. The statements about supervisor call, execute, load address, and load and store multiple
(44_system_and_multiple.md, R146 to R150). The loops of LM and STM are followed word by word. -/

namespace Sys2Proof.Machine

/-! ### SVC (R146) and LA (R148) -/

section
variable {s : State} {op : MemOperand} {a : Addr}

theorem exec_svc (r1 : Reg) (hea : s.ea op = .ok a) :
    exec (.svc r1 op) s = .next { s with outcome := .supervisorCall s.ia r1 a } :=
  State.withEA_of_ok hea _

/-- The whole cycle of an SVC (R64, R267). -/
theorem step_svc {r1 : Reg} (hr : s.outcome = .running) (he : s.pc.toNat % 2 = 0) (hp : s.present s.pc 4 = true)
    (hw : op.wf = true) (hb : s.instrBytes s.pc 4 = encode (.svc r1 op)) (hea : s.ea op = .ok a) :
    step s = .next { s with ia := s.pc, pc := s.pc + 4, outcome := .supervisorCall s.pc r1 a } := by
  rw [step_encode_four (i := .svc r1 op) hr ((isEven_iff _).2 he) hw rfl hp hb]
  exact exec_svc r1 hea

theorem exec_la (r1 : Reg) (hea : s.ea op = .ok a) : exec (.la r1 op) s = .next (s.setReg r1 (wordOfAddr a)) :=
  State.withEA_of_ok hea _

end

/-- The high half of an address in a register is zero (D8). -/
theorem wordOfAddr_eq_append (a : Addr) : wordOfAddr a = (0 : BitVec 16) ++ a :=
  BitVec.setWidth_eq_append (by decide)

/-! ### LI as the subject of EX -/

theorem exec_li (ign : Bool) (q : Reg) (v : Imm) (s : State) : exec (.li ign q v) s = .next (s.arith q v.toInt) :=
  congrArg _ (s.loadWord_wordOfInt q (fitsWord_imm v).1)

/-! ### The words and registers of a range -/

theorem byteRange_append (a : Addr) (m n : Nat) :
    byteRange a (m + n) = byteRange a m ++ byteRange (a + BitVec.ofNat 16 m) n := by
  simp only [byteRange, List.range_add, List.map_append, List.map_map, Function.comp_def, BitVec.ofNat_add,
    BitVec.add_assoc]

theorem byteRange_four (a : Addr) : byteRange a 4 = wordBytes a := by
  simp [byteRange, wordBytes, List.range_succ]

/-- A range of words is its first word and the range after it. -/
theorem byteRange_succ_words (a : Addr) (n : Nat) :
    byteRange a (4 * (n + 1)) = wordBytes a ++ byteRange (a + 4) (4 * n) := by
  rw [Nat.mul_succ, Nat.add_comm, byteRange_append, byteRange_four]
  rfl

theorem wordBytes_rangeWord_subset (a : Addr) {k n : Nat} (hk : k < n) :
    wordBytes (rangeWord a k) ⊆ byteRange a (4 * n) := by
  rw [show 4 * n = 4 * k + (4 + 4 * (n - k - 1)) by omega, byteRange_append, byteRange_append, byteRange_four]
  exact List.subset_append_of_subset_right _ (List.subset_append_left _ _)

/-- A word of at most sixteen has no character in the range of the words after it. -/
theorem not_mem_byteRange_of_mem_wordBytes {a b : Addr} {n : Nat} (hn : n + 1 ≤ 16) (hb : b ∈ wordBytes a) :
    b ∉ byteRange (a + 4) (4 * n) := by
  rw [← byteRange_four] at hb
  simp only [byteRange, List.mem_map, List.mem_range] at hb ⊢
  obtain ⟨j, hj, rfl⟩ := hb
  rintro ⟨k, hk, he⟩
  have h4 : (4 : Addr).toNat = 4 := rfl
  have h := congrArg BitVec.toNat he
  simp only [BitVec.toNat_add, BitVec.toNat_ofNat, h4] at h
  omega

theorem State.shares_of_not_inRegs {s : State} {a : Addr} (h : s.inRegs a = false) (r : Reg) : s.shares a r = false := by
  rw [State.shares, h, Bool.false_and]

/-- The first register of a range of at most sixteen is none of those after it. -/
theorem not_mem_rangeRegs_succ {r : Reg} {n : Nat} (hn : n + 1 ≤ 16) : r ∉ rangeRegs (r + 1) n := by
  simp only [rangeRegs, List.mem_map, List.mem_range, rangeReg_succ]
  rintro ⟨k, hk, he⟩
  have h0 := rangeReg_inj (by omega) (by decide) (he.trans (rangeReg_zero r).symm)
  omega

/-- A word none of whose characters is excepted from a frame is unchanged. -/
theorem Unchanged.wordAt {as : List Addr} {s t : State} {a : Addr} (h : Unchanged [] as s t)
    (ha : ∀ b ∈ wordBytes a, b ∉ as) : t.wordAt a = s.wordAt a := by
  have hb (b : Addr) (hm : b ∈ wordBytes a) : t.byteAt b = s.byteAt b := h.bytes b (ha b hm) (by simp)
  simp only [wordBytes, List.forall_mem_cons] at hb
  obtain ⟨h0, h1, h2, h3, -⟩ := hb
  rw [State.wordAt, State.wordAt, h0, h1, h2, h3]

theorem words_present_succ {s t : State} {n : Nat} {a : Addr} (ht : t.params = s.params)
    (hp : ∀ k < n + 1, s.present (rangeWord a k) 4 = true) : ∀ k < n, t.present (rangeWord (a + 4) k) 4 = true :=
  fun k hk => by rw [State.present_congr ht, rangeWord_succ, hp (k + 1) (by omega)]

/-! ### LM (R149) -/

theorem State.loadRange_succ (n : Nat) (r : Reg) {a : Addr} {s : State} (h : s.present a 4 = true) :
    State.loadRange (n + 1) r a s = State.loadRange n (r + 1) (a + 4) (s.setReg r (s.wordAt a)) := by
  rw [State.loadRange, State.memRead4_ok.2 ⟨h, rfl⟩, ok_bind]

/-- Each register of the range holds its word: the registers loaded before it are in no character of the word. -/
theorem State.loadRange_reg {n : Nat} {r : Reg} {a : Addr} {s t : State} (hn : n ≤ 16)
    (hp : ∀ k < n, s.present (rangeWord a k) 4 = true) (hout : ∀ b ∈ byteRange a (4 * n), s.inRegs b = false)
    (h : State.loadRange n r a s = .ok t) : ∀ k < n, t.reg (rangeReg r k) = s.wordAt (rangeWord a k) := by
  induction n generalizing r a s with
  | zero => exact fun k hk => absurd hk (Nat.not_lt_zero k)
  | succ n ih =>
    have h0 : s.present a 4 = true := by simpa using hp 0 (Nat.succ_pos n)
    have hp' := words_present_succ (s.setReg_params r (s.wordAt a)) hp
    rw [State.loadRange_succ n r h0] at h
    rw [byteRange_succ_words, List.forall_mem_append] at hout
    intro k hk
    cases k with
    | zero =>
      obtain ⟨t', ht', hu⟩ := State.loadRange_completes (r := r + 1) hp'
      cases h.symm.trans ht'
      rw [rangeReg_zero, rangeWord_zero, hu.regs r (not_mem_rangeRegs_succ hn) (by simp), State.reg_setReg_self]
    | succ k =>
      rw [← rangeReg_succ, ih (by omega) hp' hout.2 h k (by omega), ← rangeWord_succ]
      refine State.wordAt_setReg s r _ fun b hb => State.shares_of_not_inRegs (hout.2 b ?_) r
      exact wordBytes_rangeWord_subset (a + 4) (by omega) hb

/-! ### STM (R150) -/

theorem State.storeRange_succ (n : Nat) (r : Reg) {a : Addr} {s : State} (h : s.present a 4 = true) :
    State.storeRange (n + 1) r a s = State.storeRange n (r + 1) (a + 4) (s.putWord a (s.reg r)) := by
  rw [State.storeRange, State.memWrite4_ok.2 ⟨h, rfl⟩, ok_bind]

/-- A store of a range completes when every word exists, and changes their characters alone. -/
theorem State.storeRange_completes {n : Nat} {r : Reg} {a : Addr} {s : State} (hwf : s.mem.wf = true)
    (hp : ∀ k < n, s.present (rangeWord a k) 4 = true) :
    ∃ t, State.storeRange n r a s = .ok t ∧ Unchanged [] (byteRange a (4 * n)) s t := by
  induction n generalizing r a s with
  | zero => exact ⟨s, rfl, Unchanged.refl s⟩
  | succ n ih =>
    have h0 : s.present a 4 = true := by simpa using hp 0 (Nat.succ_pos n)
    obtain ⟨t, ht, hu⟩ := ih (r := r + 1) (State.putWord_wf hwf a (s.reg r))
      (words_present_succ (s.putWord_params a (s.reg r)) hp)
    rw [State.storeRange_succ n r h0, byteRange_succ_words]
    exact ⟨t, ht, (unchanged_putWord hwf a (s.reg r)).trans hu⟩

/-- Each word holds its register of the range: no register is in a character of the words stored before it. -/
theorem State.storeRange_wordAt {n : Nat} {r : Reg} {a : Addr} {s t : State} (hwf : s.mem.wf = true) (hn : n ≤ 16)
    (hp : ∀ k < n, s.present (rangeWord a k) 4 = true) (hout : ∀ b ∈ byteRange a (4 * n), s.inRegs b = false)
    (h : State.storeRange n r a s = .ok t) : ∀ k < n, t.wordAt (rangeWord a k) = s.reg (rangeReg r k) := by
  induction n generalizing r a s with
  | zero => exact fun k hk => absurd hk (Nat.not_lt_zero k)
  | succ n ih =>
    have h0 : s.present a 4 = true := by simpa using hp 0 (Nat.succ_pos n)
    have hwf' := State.putWord_wf hwf a (s.reg r)
    have hp' := words_present_succ (s.putWord_params a (s.reg r)) hp
    rw [State.storeRange_succ n r h0] at h
    rw [byteRange_succ_words, List.forall_mem_append] at hout
    intro k hk
    cases k with
    | zero =>
      obtain ⟨t', ht', hu⟩ := State.storeRange_completes (r := r + 1) hwf' hp'
      cases h.symm.trans ht'
      rw [rangeReg_zero, rangeWord_zero, hu.wordAt fun b => not_mem_byteRange_of_mem_wordBytes hn, State.wordAt_putWord hwf]
    | succ k =>
      have hout' : ∀ b ∈ byteRange (a + 4) (4 * n), (s.putWord a (s.reg r)).inRegs b = false := fun b hb => by
        rw [State.inRegs_putWord, hout.2 b hb]
      rw [← rangeWord_succ, ih hwf' (by omega) hp' hout' h k (by omega), rangeReg_succ]
      exact State.reg_putWord s _ fun b hb => State.shares_of_not_inRegs (hout.1 b hb) _

/-! ### LM and STM at an aligned address -/

/-- The work of LM and STM at an aligned address begins without an exception (R149). -/
theorem eaNoIndex_checked {s : State} {ind : Bool} {addr a : Addr} (hea : s.eaNoIndex ind addr = .ok a)
    (hal : a.toNat % 4 = 0) : (s.eaNoIndex ind addr >>= checkWordBoundary) = .ok a :=
  bind_ok.2 ⟨a, hea, if_pos ((onWordBoundary_iff a).2 hal)⟩

section
variable {s : State} {addr a : Addr} (ind : Bool) (r1 r2 : Reg)

theorem exec_lm_eq (hea : s.eaNoIndex ind addr = .ok a) (hal : a.toNat % 4 = 0) :
    exec (.lm ind r1 r2 addr) s = s.finish (State.loadRange (rangeLength r1 r2) r1 a s) := by
  rw [← rangeCount_eq]
  show s.finish _ = _
  rw [eaNoIndex_checked hea hal, ok_bind]

theorem exec_stm_eq (hea : s.eaNoIndex ind addr = .ok a) (hal : a.toNat % 4 = 0) :
    exec (.stm ind r1 r2 addr) s = s.finish (State.storeRange (rangeLength r1 r2) r1 a s) := by
  rw [← rangeCount_eq]
  show s.finish _ = _
  rw [eaNoIndex_checked hea hal, ok_bind]

end

end Sys2Proof.Machine

open Sys2Proof Sys2Proof.Machine

/-- Settles O42: SVC at its effective address, in the state of a cycle too. -/
theorem supervisorCallEndsTheRun : Obligations.SupervisorCallEndsTheRun := by
  unfold Obligations.SupervisorCallEndsTheRun
  exact ⟨fun r1 op s a => exec_svc r1, fun r1 op s a => step_svc⟩

/-- Settles O43: the subject is fetched as the instruction that was encoded, and LI is one such subject. -/
theorem executeRunsTheSubject : Obligations.ExecuteRunsTheSubject := by
  unfold Obligations.ExecuteRunsTheSubject
  refine ⟨fun r1 op s a i => exec_ex_of_encode r1, fun r1 q op s a v hea he hp hb => ?_⟩
  rw [exec_ex_of_encode (i := .li false q v) r1 hea he rfl rfl hp hb, exec_li]
  exact ⟨_, rfl, s.putsInRegister_arith q v.toInt, arithCcr_isSignOf (fitsWord_imm v).1⟩

/-- Settles O44: the subject of the outer EX links it to the inner one. -/
theorem executeNests : Obligations.ExecuteNests := by
  unfold Obligations.ExecuteNests
  exact fun r1 q op op' s a hea he hw hp hb => exec_ex_of_links (.of_encode hea he hw hp hb) r1 q

/-- Settles O45: the odd address ends the chain; the inner EX is linked to itself, so the chain has no end. -/
theorem executeStopsAreNamed : Obligations.ExecuteStopsAreNamed := by
  unfold Obligations.ExecuteStopsAreNamed
  exact ⟨fun r1 op s a => exec_ex_odd r1, fun r1 q op op' s a hea he hw hp hb hea' =>
    exec_ex_self r1 (.of_encode hea he hw hp hb) (.of_encode hea' he hw hp hb)⟩

/-- Settles O46: LA writes one register, with an address. -/
theorem loadAddressKeepsTheCcr : Obligations.LoadAddressKeepsTheCcr := by
  unfold Obligations.LoadAddressKeepsTheCcr
  intro r1 op s a hea
  rw [exec_la r1 hea, wordOfAddr_eq_append]
  exact ⟨_, rfl, s.putsInRegister_setReg r1 _, rfl⟩

/-- Settles O47: the loop of LM, its frame and its values. -/
theorem loadMultipleFillsTheRange : Obligations.LoadMultipleFillsTheRange := by
  unfold Obligations.LoadMultipleFillsTheRange
  intro ind r1 r2 addr a s hea hal hp
  obtain ⟨t, ht, hu⟩ := State.loadRange_completes (r := r1) hp
  obtain ⟨hpc, hccr, hmem, -⟩ := State.loadRange_keeps ht
  refine ⟨t, ?_, hccr, hpc, hmem, hu, fun hout => State.loadRange_reg (rangeLength_le r1 r2) hp hout ht⟩
  rw [exec_lm_eq ind r1 r2 hea hal, ht, State.finish_ok]

/-- Settles O48: the loop of STM, its frame and its values. -/
theorem storeMultipleWritesTheRange : Obligations.StoreMultipleWritesTheRange := by
  unfold Obligations.StoreMultipleWritesTheRange
  intro ind r1 r2 addr a s hwf hea hal hp
  obtain ⟨t, ht, hu⟩ := State.storeRange_completes (r := r1) hwf hp
  obtain ⟨hpc, hccr, -⟩ := State.storeRange_keeps ht
  refine ⟨t, ?_, hccr, hpc, hu, fun hout => State.storeRange_wordAt hwf (rangeLength_le r1 r2) hp hout ht⟩
  rw [exec_stm_eq ind r1 r2 hea hal, ht, State.finish_ok]

end

