-- ==== Sys2Proof/Proofs/IntegerArithmetic.lean ====
section
/-! SUPPORT. The statements about integer add, subtract, reverse subtract and multiply (45_integer_arithmetic.md, R151 to R166):
every form is `State.arith` of the exact integer. -/

namespace Sys2Proof.Machine

/-! ### Overflow (R221) -/

/-- An integer outside the word's range sets O alone. -/
theorem arithCcr_overflow {n : Int} (h : n < -2 ^ 31 ∨ n > 2 ^ 31 - 1) : arithCcr n = .onlyO :=
  if_neg fun hfits => by
    obtain ⟨hlo, hhi⟩ := (fitsWord_iff n).1 hfits
    omega

theorem State.arith_ccr (s : State) (r1 : Reg) (n : Int) : (s.arith r1 n).ccr = arithCcr n := rfl

/-! ### AR (R151) -/

theorem exec_ar {s : State} {ind : Bool} {r2 : Reg} {w : Word} (r1 : Reg) (h : s.wordRR ind r2 = .ok w) :
    exec (.ar ind r1 r2) s = .next (s.arith r1 ((s.reg r1).toInt + w.toInt)) :=
  State.withRR_of_ok h _

end Sys2Proof.Machine

open Sys2Proof Sys2Proof.Machine

/-- Settles O49: what `State.arith` puts in the register and in the CCR, within the word's range and outside it; AR is an
instruction that completes with it. -/
theorem arithmeticHelper : Obligations.ArithmeticHelper := by
  unfold Obligations.ArithmeticHelper
  intro s r1 n
  have hput := s.putsInRegister_arith r1 n
  refine ⟨hput, fun hout => ?_, fun hlo hhi => ?_, hput.frame.outcome, fun ind r2 w => exec_ar r1⟩
  · rw [State.arith_ccr, arithCcr_overflow hout]
    rfl
  · exact arithCcr_isSignOf ((fitsWord_iff n).2 ⟨hlo, hhi⟩)

/-- Settles O50: each form of the four families is `State.arith` of the family's exact integer of R1 and the operand. -/
theorem addSubtractMultiply : Obligations.AddSubtractMultiply := by
  unfold Obligations.AddSubtractMultiply
  refine ⟨?add, ?subtract, ?reverseSubtract, ?multiply⟩
  case add =>
    exact fourForms_of_arith (fun x n => x + n) (fun _ _ _ _ => rfl) (fun _ _ _ => rfl) (fun _ _ _ _ => rfl) fun _ _ _ => rfl
  case subtract =>
    exact fourForms_of_arith (fun x n => x - n) (fun _ _ _ _ => rfl) (fun _ _ _ => rfl) (fun _ _ _ _ => rfl) fun _ _ _ => rfl
  case reverseSubtract =>
    exact fourForms_of_arith (fun x n => n - x) (fun _ _ _ _ => rfl) (fun _ _ _ => rfl) (fun _ _ _ _ => rfl) fun _ _ _ => rfl
  case multiply =>
    exact fourForms_of_arith (fun x n => x * n) (fun _ _ _ _ => rfl) (fun _ _ _ => rfl) (fun _ _ _ _ => rfl) fun _ _ _ => rfl

end

