-- ==== Sys2Proof/Proofs/IntegerDivide.lean ====
section
/-! SUPPORT. The statements about integer divide and remainder (46_integer_divide.md, R167 to R182): every form tests its
divisor and then is `State.arith` of the quotient or of the remainder; where no overflow is possible, that fits in a word. -/

namespace Sys2Proof.Machine

/-! ### The quotient and the remainder (R222) -/

theorem ediv_emod_spec (a : Int) {d : Int} (hd : d ≠ 0) :
    a = ediv a d * d + emod a d ∧ 0 ≤ emod a d ∧ emod a d < |d| :=
  ⟨(Int.ediv_mul_add_emod a d).symm, Int.emod_nonneg a hd, Int.emod_lt_abs a hd⟩

/-- A remainder is less than its divisor, so it fits if the divisor does: "0 <= r <= 2^31 - 1" (R222). -/
theorem fitsWord_emod (a : Int) {d : Int} (hd : d ≠ 0) (hfits : fitsWord d = true) : fitsWord (emod a d) = true := by
  obtain ⟨-, hnonneg, hlt⟩ := ediv_emod_spec a hd
  obtain ⟨hlo, hhi⟩ := (fitsWord_iff d).1 hfits
  have habs : |d| ≤ 2 ^ 31 := abs_le.2 ⟨hlo, by omega⟩
  rw [fitsWord_iff]
  omega

/-- A quotient is no larger than its dividend, so a dividend whose negative fits too cannot overflow (R173, R174). -/
theorem fitsWord_ediv_of_dividend {a : Int} (d : Int) (hfits : fitsWord a = true ∧ fitsWord (-a) = true) :
    fitsWord (ediv a d) = true := by
  have hle : (ediv a d).natAbs ≤ a.natAbs := Int.natAbs_ediv_le_natAbs a d
  rw [fitsWord_iff, fitsWord_iff] at hfits
  rw [fitsWord_iff]
  omega

/-- Only a negative divisor makes a quotient overflow (R170). -/
theorem fitsWord_ediv_of_divisor_pos {a d : Int} (hfits : fitsWord a = true) (hd : 0 < d) : fitsWord (ediv a d) = true := by
  obtain ⟨hlo, hhi⟩ := (fitsWord_iff a).1 hfits
  rw [fitsWord_iff]
  constructor
  · exact (Int.le_ediv_iff_mul_le hd).2 (by omega)
  · have hlt : ediv a d < 2 ^ 31 := (Int.ediv_lt_iff_lt_mul hd).2 (by omega)
    omega

/-! ### The test of the divisor (R167, R222) -/

theorem checkDivisor_of_ne {d : Int} (hd : d ≠ 0) (t : State) : checkDivisor d t = .ok t := if_neg hd

theorem checkDivisor_zero (t : State) : checkDivisor 0 t = .error (.raise .zeroDivisor) := if_pos rfl

theorem checkDivisor_congr {d : Int} {t t' : State} (h : d ≠ 0 → t = t') : checkDivisor d t = checkDivisor d t' := by
  by_cases hd : d = 0
  · rw [hd, checkDivisor_zero, checkDivisor_zero]
  · rw [h hd]

section
variable {i : Instr} {s : State} {r1 : Reg} {a d n : Int}

theorem State.putInt_eq_arith (h : fitsWord n = true) : s.putInt r1 n = s.arith r1 n :=
  s.loadWord_wordOfInt r1 h

/-- The divides for which "Overflow is not possible" are divides like the others. -/
theorem State.divideFits_eq_divide (h : d ≠ 0 → fitsWord (ediv a d) = true) : s.divideFits r1 a d = s.divide r1 a d :=
  checkDivisor_congr fun hd => State.putInt_eq_arith (h hd)

theorem State.remainder_eq_arith (hfits : fitsWord d = true) :
    s.remainder r1 a d = checkDivisor d (s.arith r1 (emod a d)) :=
  checkDivisor_congr fun hd => State.putInt_eq_arith (fitsWord_emod a hd hfits)

/-- What tests its divisor completes if it is not zero, and otherwise takes the zero divisor exception. -/
theorem exec_checkDivisor {t : State} (h : exec i s = s.finish (checkDivisor d t)) :
    (d ≠ 0 → exec i s = .next t) ∧ (d = 0 → exec i s = .next (s.takeException .zeroDivisor)) := by
  constructor
  · intro hd
    rw [h, checkDivisor_of_ne hd, State.finish_ok]
  · rintro rfl
    rw [h, checkDivisor_zero, State.finish_error, State.stop_raise]

/-- An instruction that is `State.divide` gives the quotient of R222, or raises. -/
theorem gives_quotient_of_divide (h : exec i s = s.finish (s.divide r1 a d)) :
    (d ≠ 0 → ∃ q r : Int, a = q * d + r ∧ 0 ≤ r ∧ r < |d| ∧ GivesInteger i s r1 q) ∧
    (d = 0 → exec i s = .next (s.takeException .zeroDivisor)) := by
  obtain ⟨hcompletes, hraises⟩ := exec_checkDivisor h
  refine ⟨fun hd => ?_, hraises⟩
  obtain ⟨heq, hnonneg, hlt⟩ := ediv_emod_spec a hd
  exact ⟨ediv a d, emod a d, heq, hnonneg, hlt, .of_arith (hcompletes hd)⟩

/-- An instruction that is `State.remainder` with a divisor of a word gives the remainder of R222, or raises. -/
theorem gives_remainder_of_remainder (hfits : fitsWord d = true) (h : exec i s = s.finish (s.remainder r1 a d)) :
    (d ≠ 0 → ∃ q r : Int, a = q * d + r ∧ 0 ≤ r ∧ r < |d| ∧
      ∃ t, exec i s = .next t ∧ PutsInRegister r1 (BitVec.ofInt 32 r) s t ∧ (t.reg r1).toInt = r ∧ t.ccr.isSignOf r) ∧
    (d = 0 → exec i s = .next (s.takeException .zeroDivisor)) := by
  rw [State.remainder_eq_arith hfits] at h
  obtain ⟨hcompletes, hraises⟩ := exec_checkDivisor h
  refine ⟨fun hd => ?_, hraises⟩
  obtain ⟨heq, hnonneg, hlt⟩ := ediv_emod_spec a hd
  have hr : fitsWord (emod a d) = true := fitsWord_emod a hd hfits
  have hput := s.putsInRegister_arith r1 (emod a d)
  refine ⟨ediv a d, emod a d, heq, hnonneg, hlt, _, hcompletes hd, hput, ?_, arithCcr_isSignOf hr⟩
  rw [hput.value]
  exact toInt_wordOfInt_of_fits hr

end

/-- An operation in its four forms, each of which is one work on R1 and the operand as an integer that fits in a word. -/
theorem fourForms_of_work {rr : Bool → Reg → Reg → Instr} {rs : Reg → MemOperand → Instr}
    {im : Bool → Reg → Imm → Instr} {ch : Reg → MemOperand → Instr} {claim : Instr → State → Reg → Int → Prop}
    (work : State → Reg → Int → Except Stop State)
    (hclaim : ∀ i s r1 n, fitsWord n = true → exec i s = s.finish (work s r1 n) → claim i s r1 n)
    (hrr : ∀ ind r1 r2 s, exec (rr ind r1 r2) s = s.withRR ind r2 fun w => work s r1 w.toInt)
    (hrs : ∀ r1 op s, exec (rs r1 op) s = s.withRS op fun w => work s r1 w.toInt)
    (him : ∀ ign r1 imm s, exec (im ign r1 imm) s = s.finish (work s r1 imm.toInt))
    (hch : ∀ r1 op s, exec (ch r1 op) s = s.withCH op fun c => work s r1 c.toNat) :
    FourForms rr rs im ch claim := by
  refine ⟨fun ind r1 r2 s w h => hclaim _ s r1 _ (fitsWord_toInt w) ?_,
    fun r1 op s w h => hclaim _ s r1 _ (fitsWord_toInt w) ?_,
    fun ign r1 imm s => hclaim _ s r1 _ (fitsWord_imm imm).1 (him ign r1 imm s),
    fun r1 op s c h => hclaim _ s r1 _ (fitsWord_char c).1 ?_⟩
  · rw [hrr, State.withRR_of_ok h]
  · rw [hrs, State.withRS_of_ok h]
  · rw [hch, State.withCH_of_ok h]

/-! ### The divides without overflow (R170, R173, R174) -/

/-- DC divides by a character, which is not negative. -/
theorem exec_dc (r1 : Reg) (op : MemOperand) (s : State) :
    exec (.dc r1 op) s = s.withCH op fun c => s.divide r1 (s.reg r1).toInt c.toNat :=
  congrArg (s.withCH op) (funext fun c => State.divideFits_eq_divide fun hd =>
    fitsWord_ediv_of_divisor_pos (fitsWord_toInt _) (by omega))

/-- RDI divides an immediate. -/
theorem exec_rdi (ign : Bool) (r1 : Reg) (imm : Imm) (s : State) :
    exec (.rdi ign r1 imm) s = s.finish (s.divide r1 imm.toInt (s.reg r1).toInt) :=
  congrArg s.finish (State.divideFits_eq_divide fun _ => fitsWord_ediv_of_dividend _ (fitsWord_imm imm))

/-- RDC divides a character. -/
theorem exec_rdc (r1 : Reg) (op : MemOperand) (s : State) :
    exec (.rdc r1 op) s = s.withCH op fun c => s.divide r1 c.toNat (s.reg r1).toInt :=
  congrArg (s.withCH op) (funext fun c => State.divideFits_eq_divide fun _ =>
    fitsWord_ediv_of_dividend _ (fitsWord_char c))

end Sys2Proof.Machine

open Sys2Proof Sys2Proof.Machine

/-- Settles O51: each form of the two families is `State.divide` of R1 and the operand, in the family's order. -/
theorem divideGivesTheQuotient : Obligations.DivideGivesTheQuotient := by
  unfold Obligations.DivideGivesTheQuotient
  refine ⟨?divide, ?reverseDivide⟩
  case divide =>
    exact fourForms_of_work (fun s r1 n => s.divide r1 (s.reg r1).toInt n) (fun _ _ _ _ _ => gives_quotient_of_divide)
      (fun _ _ _ _ => rfl) (fun _ _ _ => rfl) (fun _ _ _ _ => rfl) exec_dc
  case reverseDivide =>
    exact fourForms_of_work (fun s r1 n => s.divide r1 n (s.reg r1).toInt) (fun _ _ _ _ _ => gives_quotient_of_divide)
      (fun _ _ _ _ => rfl) (fun _ _ _ => rfl) exec_rdi exec_rdc

/-- Settles O52: each form of the two families is `State.remainder` of R1 and the operand, in the family's order; the divisor
is the operand or R1, and both fit in a word. -/
theorem remainderIsNonNegative : Obligations.RemainderIsNonNegative := by
  unfold Obligations.RemainderIsNonNegative
  refine ⟨?remainder, ?reverseRemainder⟩
  case remainder =>
    exact fourForms_of_work (fun s r1 n => s.remainder r1 (s.reg r1).toInt n)
      (fun _ _ _ _ hn => gives_remainder_of_remainder hn)
      (fun _ _ _ _ => rfl) (fun _ _ _ => rfl) (fun _ _ _ _ => rfl) fun _ _ _ => rfl
  case reverseRemainder =>
    exact fourForms_of_work (fun s r1 n => s.remainder r1 n (s.reg r1).toInt)
      (fun _ s r1 _ _ => gives_remainder_of_remainder (fitsWord_toInt (s.reg r1)))
      (fun _ _ _ _ => rfl) (fun _ _ _ => rfl) (fun _ _ _ _ => rfl) fun _ _ _ => rfl

end

