-- ==== Sys2Proof/Proofs/RealArithmetic.lean ====
section
/-! SUPPORT. The statements about real arithmetic and the conversions (47_real_arithmetic.md, R183 to R208): every form is one
work on R1 and its word operand, `State.realset`, `State.putReal` or `State.fixset` of what `REAL` answers. -/

namespace Sys2Proof

theorem RealSign.ofInt_iff (n : Int) :
    (RealSign.ofInt n = .positive ↔ 0 < n) ∧ (RealSign.ofInt n = .negative ↔ n < 0) ∧
      (RealSign.ofInt n = .zero ↔ n = 0) := by
  unfold RealSign.ofInt
  split_ifs <;> simp <;> omega

end Sys2Proof

namespace Sys2Proof.Machine

/-! ### The CCR of a real (R225, R224) -/

theorem rcmp0_isRealSign (w : Word) : (rcmp0 w).isRealSign w := by
  unfold rcmp0 Ccr.isRealSign
  cases Config.real.sign w <;> simp [Ccr.onlyG, Ccr.onlyL, Ccr.onlyE]

/-- "`REAL.sign(REAL.float(n))` is the sign of n" (R224), so the CCR of the real is that of the integer. -/
theorem rcmp0_float_isSignOf (w : Word) : (rcmp0 (Config.real.float w)).isSignOf w.toInt := by
  obtain ⟨ho, hg, hl, he⟩ := rcmp0_isRealSign (Config.real.float w)
  rw [Config.real.sign_float] at hg hl he
  obtain ⟨hpos, hneg, hzero⟩ := RealSign.ofInt_iff w.toInt
  exact ⟨ho, hg.trans hpos, hl.trans hneg, he.trans hzero⟩

/-! ### Storing a real, or the integer of one (R225, R228) -/

section
variable {i : Instr} {s : State} {r1 : Reg} {a b w : Word} {res : RealResult}

theorem State.putsInRegister_putReal (s : State) (r1 : Reg) (w : Word) : PutsInRegister r1 w s (s.putReal r1 w) :=
  ⟨State.reg_setReg_self s r1 w, rfl, unchanged_setReg_setCcr s r1 w _⟩

/-- An integer portion that fits is put as any exact integer is (R228). -/
theorem State.fixset_of_fits (h : fitsWord (Config.real.fix w) = true) :
    s.fixset r1 w = s.arith r1 (Config.real.fix w) :=
  (if_pos h).trans (State.putInt_eq_arith h)

theorem State.fixset_of_overflow (h : ¬fitsWord (Config.real.fix w) = true) :
    s.fixset r1 w = (s.setReg r1 0).setCcr ⟨true, false, false, true⟩ :=
  if_neg h

/-- What FIX stores: the integer portion where it is a 32-bit integer, else zero with O and E (R228). -/
theorem State.fixset_spec (s : State) (r1 : Reg) (w : Word) :
    if -2 ^ 31 ≤ Config.real.fix w ∧ Config.real.fix w ≤ 2 ^ 31 - 1 then
      PutsInRegister r1 (BitVec.ofInt 32 (Config.real.fix w)) s (s.fixset r1 w) ∧
        (s.fixset r1 w).ccr.isSignOf (Config.real.fix w)
    else PutsInRegister r1 0 s (s.fixset r1 w) ∧ (s.fixset r1 w).ccr = ⟨true, false, false, true⟩ := by
  split_ifs with h
  · have hfits := (fitsWord_iff _).2 h
    rw [State.fixset_of_fits hfits]
    exact ⟨s.putsInRegister_arith r1 _, arithCcr_isSignOf hfits⟩
  · rw [State.fixset_of_overflow (mt (fitsWord_iff _).1 h)]
    exact ⟨⟨State.reg_setReg_self s r1 0, rfl, unchanged_setReg_setCcr s r1 0 _⟩, rfl⟩

/-! ### Instructions that give what `REAL` answers (R225) -/

/-- An instruction that is `State.realset` gives the word, or takes the exception `REAL` answers. -/
theorem GivesReal.of_realset (h : exec i s = s.finish (s.realset r1 res)) : GivesReal i s r1 res := by
  cases res with
  | ok w => exact ⟨s.putReal r1 w, h, s.putsInRegister_putReal r1 w, rcmp0_isRealSign w⟩
  | realFormat | zeroDivisor => exact ⟨_, h, rfl⟩

/-- An instruction that is `State.realset` of a real divide gives the quotient, or tells the divisor from an operand that is
badly formed (R195, R264). -/
theorem GivesQuotient.of_realset (h : exec i s = s.finish (s.realset r1 (realDiv a b))) : GivesQuotient i s r1 a b := by
  refine ⟨.of_realset h, fun hz => ?_, fun hb hd => hb (Config.real.div_zeroDivisor a b hd)⟩
  rw [h, realDiv_of_sign_zero a hz]
  split_ifs <;> rfl

end

/-- An operation in its three word forms, each of which is one work on R1 and the operand. -/
theorem threeForms_of_work {rr : Bool → Reg → Reg → Instr} {rs : Reg → MemOperand → Instr}
    {im : Bool → Reg → Imm → Instr} {extend : Imm → Word} {claim : Instr → State → Reg → Word → Prop}
    (work : State → Reg → Word → Except Stop State)
    (hclaim : ∀ i s r1 w, exec i s = s.finish (work s r1 w) → claim i s r1 w)
    (hrr : ∀ ind r1 r2 s, exec (rr ind r1 r2) s = s.withRR ind r2 (work s r1))
    (hrs : ∀ r1 op s, exec (rs r1 op) s = s.withRS op (work s r1))
    (him : ∀ ign r1 imm s, exec (im ign r1 imm) s = s.finish (work s r1 (extend imm))) :
    ThreeForms rr rs im extend claim := by
  refine ⟨fun ind r1 r2 s w h => hclaim _ s r1 w ?_, fun r1 op s w h => hclaim _ s r1 w ?_,
    fun ign r1 imm s => hclaim _ s r1 _ (him ign r1 imm s)⟩
  · rw [hrr, State.withRR_of_ok h]
  · rw [hrs, State.withRS_of_ok h]

/-- A real operation in its three forms gives what `REAL` answers for R1 and the operand, a short real if immediate (R227). -/
theorem threeForms_of_realset {rr : Bool → Reg → Reg → Instr} {rs : Reg → MemOperand → Instr}
    {im : Bool → Reg → Imm → Instr} (f : Word → Word → RealResult)
    (hrr : ∀ ind r1 r2 s, exec (rr ind r1 r2) s = s.withRR ind r2 fun w => s.realset r1 (f (s.reg r1) w))
    (hrs : ∀ r1 op s, exec (rs r1 op) s = s.withRS op fun w => s.realset r1 (f (s.reg r1) w))
    (him : ∀ ign r1 imm s, exec (im ign r1 imm) s = s.finish (s.realset r1 (f (s.reg r1) (rimm imm)))) :
    ThreeForms rr rs im Config.real.short fun i s r1 w => GivesReal i s r1 (f (s.reg r1) w) :=
  threeForms_of_work (fun s r1 w => s.realset r1 (f (s.reg r1) w)) (fun _ _ _ _ => .of_realset) hrr hrs him

/-! ### FLOOR and CEIL (R207, R208) -/

section
variable {s : State} {op : MemOperand} {w : Word} (r1 : Reg)

theorem exec_floor (h : s.wordRS op = .ok w) : exec (.floor r1 op) s = .next (s.putReal r1 (Config.real.floor w)) :=
  State.withRS_of_ok h _

theorem exec_ceil (h : s.wordRS op = .ok w) : exec (.ceil r1 op) s = .next (s.putReal r1 (Config.real.ceil w)) :=
  State.withRS_of_ok h _

end

end Sys2Proof.Machine

open Sys2Proof Sys2Proof.Machine

/-- Settles O53: each form is `State.realset` of its `REAL` member, in the order of its rule; the divides are so with the
divisor their rule names. -/
theorem realArithmetic : Obligations.RealArithmetic := by
  unfold Obligations.RealArithmetic
  refine ⟨?add, ?subtract, ?reverseSubtract, ?multiply, ?divide, ?reverseDivide⟩
  case add =>
    exact threeForms_of_realset realAdd (fun _ _ _ _ => rfl) (fun _ _ _ => rfl) fun _ _ _ _ => rfl
  case subtract =>
    exact threeForms_of_realset realSub (fun _ _ _ _ => rfl) (fun _ _ _ => rfl) fun _ _ _ _ => rfl
  case reverseSubtract =>
    exact threeForms_of_realset (fun x w => realSub w x) (fun _ _ _ _ => rfl) (fun _ _ _ => rfl) fun _ _ _ _ => rfl
  case multiply =>
    exact threeForms_of_realset realMul (fun _ _ _ _ => rfl) (fun _ _ _ => rfl) fun _ _ _ _ => rfl
  case divide =>
    exact threeForms_of_work (fun s r1 w => s.realset r1 (realDiv (s.reg r1) w)) (fun _ _ _ _ => .of_realset)
      (fun _ _ _ _ => rfl) (fun _ _ _ => rfl) fun _ _ _ _ => rfl
  case reverseDivide =>
    exact threeForms_of_work (fun s r1 w => s.realset r1 (realDiv w (s.reg r1))) (fun _ _ _ _ => .of_realset)
      (fun _ _ _ _ => rfl) (fun _ _ _ => rfl) fun _ _ _ _ => rfl

/-- Settles O54: each FLOAT form is `State.putReal` of the converted integer, each FIX form `State.fixset` of the real. -/
theorem realConversions : Obligations.RealConversions := by
  unfold Obligations.RealConversions
  refine ⟨?float, ?fix⟩
  case float =>
    exact threeForms_of_work (fun s r1 w => .ok (s.putReal r1 (Config.real.float w)))
      (fun _ s r1 w h => ⟨_, h, s.putsInRegister_putReal r1 _, rcmp0_float_isSignOf w⟩)
      (fun _ _ _ _ => rfl) (fun _ _ _ => rfl) fun _ _ _ _ => rfl
  case fix =>
    exact threeForms_of_work (fun s r1 w => .ok (s.fixset r1 w))
      (fun _ s r1 w h => ⟨_, h, s.fixset_spec r1 w, Config.real.fix_value w⟩)
      (fun _ _ _ _ => rfl) (fun _ _ _ => rfl) fun _ _ _ _ => rfl

/-- Settles O55: each instruction is `State.putReal` of its `REAL` member, whose value R207 and R208 demand. -/
theorem floorAndCeiling : Obligations.FloorAndCeiling := by
  unfold Obligations.FloorAndCeiling
  refine ⟨fun r1 op s w h => ?floor, fun r1 op s w h => ?ceil⟩
  case floor =>
    exact ⟨_, exec_floor r1 h, s.putsInRegister_putReal r1 _, rcmp0_isRealSign _, Config.real.floor_value w⟩
  case ceil =>
    exact ⟨_, exec_ceil r1 h, s.putsInRegister_putReal r1 _, rcmp0_isRealSign _, Config.real.ceil_value w⟩

end

