-- ==== Sys2Proof/Proofs/Exceptions.lean ====
section
/-! SUPPORT. Which exceptions each instruction raises (R260, R226), by the kind of its work, and what a fault shows and records
(R261 to R263). -/

namespace Sys2Proof.Machine

/-- Every exception the result may raise is one that p admits. -/
def RaisesOnly {α : Type} (p : Exception → Bool) (r : Except Stop α) : Prop := ∀ e, r = .error (.raise e) → p e = true

/-- The run has not ended in a fault. -/
def State.NoFault (s : State) : Prop := ∀ e a, s.outcome ≠ .fault e a

/-- The work of an instruction succeeds without a fault and raises only exceptions that p admits. -/
structure FaultsOnly (p : Exception → Bool) (r : Except Stop State) : Prop where
  completes : ∀ t, r = .ok t → t.NoFault
  raises : RaisesOnly p r

/-- Whatever fault the answer of an instruction shows is an exception that p admits. -/
def AnswersFaultsOnly (p : Exception → Bool) (res : Result) : Prop :=
  ∀ t e a, res = .next t → t.outcome = .fault e a → p e = true

theorem State.noFault_of_running {s : State} (h : s.outcome = .running) : s.NoFault := by
  intro e a
  simp [h]

theorem KeepsControl.noFault {s t : State} (h : KeepsControl s t) (hs : s.NoFault) : t.NoFault := by
  intro e a
  rw [h.outcome]
  exact hs e a

/-! ### Exceptions of operands and addresses (R34, R59) -/

section
variable {α β : Type} {p : Exception → Bool}

theorem RaisesOnly.of_ok (x : α) : RaisesOnly p (.ok x) := fun _ h => by cases h

/-- A result that fails only for want of memory raises nothing. -/
theorem RaisesOnly.of_absent {r : Except Stop α} (h : ∀ e, r = .error e → ∃ a, e = .absent a) : RaisesOnly p r := by
  intro e he
  obtain ⟨a, ha⟩ := h _ he
  cases ha

theorem RaisesOnly.bind {r : Except Stop α} {f : α → Except Stop β} (hr : RaisesOnly p r)
    (hf : ∀ a, r = .ok a → RaisesOnly p (f a)) : RaisesOnly p (r >>= f) := by
  intro e he
  rcases bind_error.1 he with he | ⟨a, ha, he⟩
  · exact hr e he
  · exact hf a ha e he

variable (s : State)

theorem State.memRead1_raisesOnly (a : Addr) : RaisesOnly p (s.memRead1 a) :=
  .of_absent fun _ h => ⟨a, (State.memRead1_error.1 h).2⟩

theorem State.memWrite1_raisesOnly (a : Addr) (c : Byte) : RaisesOnly p (s.memWrite1 a c) :=
  .of_absent fun _ h => ⟨a, (State.memWrite1_error.1 h).2⟩

/-- A word operand raises the word-addressing exception alone, and only in memory (R58). -/
theorem State.readW_raisesOnly {loc : WordLoc} (hw : ∀ a, loc = .mem a → p (.wordAddressing a) = true) :
    RaisesOnly p (s.readW loc) := by
  cases loc with
  | reg r => exact .of_ok _
  | mem a =>
    intro e h
    rcases State.readW_mem_error.1 h with ⟨-, he⟩ | ⟨-, -, he⟩ <;> cases he
    exact hw a rfl

theorem State.writeW_raisesOnly {loc : WordLoc} (v : Word) (hw : ∀ a, loc = .mem a → p (.wordAddressing a) = true) :
    RaisesOnly p (s.writeW loc v) := by
  cases loc with
  | reg r => exact .of_ok _
  | mem a =>
    intro e h
    rcases State.writeW_mem_error.1 h with ⟨-, he⟩ | ⟨-, -, he⟩ <;> cases he
    exact hw a rfl

/-- An effective address raises the indirect address exception alone (R59). -/
theorem State.ea_raisesOnly (op : MemOperand) (hi : ∀ a, p (.indirectAddress a) = true) : RaisesOnly p (s.ea op) := by
  intro e h
  obtain ⟨-, ⟨-, he⟩ | ⟨-, -, he⟩⟩ := State.ea_error.1 h <;> cases he
  exact hi op.addr

theorem checkWordBoundary_raisesOnly (ea : Addr) (hw : ∀ a, p (.wordAddressing a) = true) :
    RaisesOnly p (checkWordBoundary ea) := by
  intro e h
  obtain ⟨-, he⟩ := check_error.1 h
  cases he
  exact hw ea

/-- The operand of an RR instruction is in memory only if the indirect bit is 1 (R57). -/
theorem State.ind_of_rrLoc_eq_mem {s : State} {ind : Bool} {r2 : Reg} {a : Addr} (h : s.rrLoc ind r2 = .mem a) :
    ind = true := by
  cases ind with
  | false => cases h
  | true => rfl

end

/-! ### Exceptions of each kind of work -/

section
variable {p : Exception → Bool} {s : State}

theorem FaultsOnly.of_ok {t : State} (h : t.NoFault) : FaultsOnly p (.ok t) :=
  ⟨fun _ ht => by cases ht; exact h, .of_ok t⟩

theorem FaultsOnly.of_raise {e : Exception} (h : p e = true) : FaultsOnly p (.error (.raise e)) :=
  ⟨fun _ ht => by (cases ht), fun _ he => by cases he; exact h⟩

theorem FaultsOnly.bind {α : Type} {r : Except Stop α} {f : α → Except Stop State} (hr : RaisesOnly p r)
    (hf : ∀ a, r = .ok a → FaultsOnly p (f a)) : FaultsOnly p (r >>= f) := by
  refine ⟨fun t ht => ?_, hr.bind fun a ha => (hf a ha).raises⟩
  obtain ⟨a, ha, ht⟩ := bind_ok.1 ht
  exact (hf a ha).completes t ht

/-- Every divide and every remainder raises the zero divisor exception alone (R222). -/
theorem FaultsOnly.checkDivisor {d : Int} {t : State} (hz : p .zeroDivisor = true) (ht : t.NoFault) :
    FaultsOnly p (checkDivisor d t) := by
  unfold Machine.checkDivisor
  split_ifs
  · exact .of_raise hz
  · exact .of_ok ht

/-- A real divide may raise either exception of `REAL` (R225). -/
theorem FaultsOnly.realset {r1 : Reg} {res : RealResult} (hf : p .realFormat = true) (hz : p .zeroDivisor = true)
    (hs : s.NoFault) : FaultsOnly p (s.realset r1 res) := by
  cases res with
  | ok w => exact .of_ok hs
  | realFormat => exact .of_raise hf
  | zeroDivisor => exact .of_raise hz

/-- Any other real operation raises the real-format exception alone (R224). -/
theorem FaultsOnly.realset_ofOption {r1 : Reg} {w : Option Word} (hf : p .realFormat = true) (hs : s.NoFault) :
    FaultsOnly p (s.realset r1 (.ofOption w)) := by
  cases w with
  | some w => exact .of_ok hs
  | none => exact .of_raise hf

theorem FaultsOnly.writeW {loc : WordLoc} {v : Word} (hw : ∀ a, loc = .mem a → p (.wordAddressing a) = true)
    (hs : s.NoFault) : FaultsOnly p (s.writeW loc v) :=
  ⟨fun _ ht => (KeepsControl.writeW ht).1.noFault hs, s.writeW_raisesOnly v hw⟩

theorem FaultsOnly.memWrite1 {a : Addr} {c : Byte} (hs : s.NoFault) : FaultsOnly p (s.memWrite1 a c) :=
  ⟨fun _ ht => (KeepsControl.memWrite1 ht).1.noFault hs, s.memWrite1_raisesOnly a c⟩

theorem FaultsOnly.storeWord {r1 : Reg} {loc : WordLoc} (hw : ∀ a, loc = .mem a → p (.wordAddressing a) = true)
    (hs : s.NoFault) : FaultsOnly p (s.storeWord r1 loc) :=
  .bind (s.writeW_raisesOnly _ hw) fun _ ht => .of_ok ((KeepsControl.writeW ht).1.noFault hs)

theorem FaultsOnly.swapWord {r1 : Reg} {loc : WordLoc} (hw : ∀ a, loc = .mem a → p (.wordAddressing a) = true)
    (hs : s.NoFault) : FaultsOnly p (s.swapWord r1 loc) :=
  .bind (s.readW_raisesOnly hw) fun _ _ =>
    .bind (s.writeW_raisesOnly _ hw) fun _ ht => .of_ok ((KeepsControl.writeW ht).1.noFault hs)

theorem FaultsOnly.loadRange {n : Nat} {r : Reg} {a : Addr} (hs : s.NoFault) : FaultsOnly p (State.loadRange n r a s) :=
  ⟨fun _ ht => (KeepsControl.loadRange ht).1.noFault hs, .of_absent fun _ h => State.loadRange_error h⟩

theorem FaultsOnly.storeRange {n : Nat} {r : Reg} {a : Addr} (hs : s.NoFault) : FaultsOnly p (State.storeRange n r a s) :=
  ⟨fun _ ht => (KeepsControl.storeRange ht).1.noFault hs, .of_absent fun _ h => State.storeRange_error h⟩

theorem State.fixset_noFault (r1 : Reg) (w : Word) (hs : s.NoFault) : (s.fixset r1 w).NoFault := by
  unfold State.fixset
  split_ifs <;> exact hs

theorem State.branchIf_noFault (b : Bool) (a : Addr) (hs : s.NoFault) : (s.branchIf b a).NoFault := by
  cases b <;> exact hs

theorem State.supervisorCall_noFault (r1 : Reg) (ea : Addr) :
    State.NoFault { s with outcome := .supervisorCall s.ia r1 ea } := fun _ _ h => by cases h

/-! ### Exceptions of an instruction -/

theorem AnswersFaultsOnly.finish {r : Except Stop State} (h : FaultsOnly p r) : AnswersFaultsOnly p (s.finish r) := by
  intro t e a ht ho
  rcases State.finish_next.1 ht with ht | ⟨x, hx, rfl⟩
  · exact absurd ho (h.completes t ht e a)
  · cases ho
    exact h.raises e hx

theorem AnswersFaultsOnly.next {t : State} (h : t.NoFault) : AnswersFaultsOnly p (.next t) :=
  .finish (s := t) (.of_ok h)

theorem AnswersFaultsOnly.withRR {ind : Bool} {r2 : Reg} {work : Word → Except Stop State}
    (hw : ind = true → ∀ a, p (.wordAddressing a) = true) (h : ∀ w, FaultsOnly p (work w)) :
    AnswersFaultsOnly p (s.withRR ind r2 work) :=
  .finish (.bind (s.readW_raisesOnly fun a ha => hw (State.ind_of_rrLoc_eq_mem ha) a) fun w _ => h w)

theorem AnswersFaultsOnly.withRS {op : MemOperand} {work : Word → Except Stop State}
    (hi : ∀ a, p (.indirectAddress a) = true) (hw : ∀ a, p (.wordAddressing a) = true)
    (h : ∀ w, FaultsOnly p (work w)) : AnswersFaultsOnly p (s.withRS op work) :=
  .finish (.bind ((s.ea_raisesOnly op hi).bind fun _ _ => s.readW_raisesOnly fun a _ => hw a) fun w _ => h w)

theorem AnswersFaultsOnly.withCH {op : MemOperand} {work : Byte → Except Stop State}
    (hi : ∀ a, p (.indirectAddress a) = true) (h : ∀ c, FaultsOnly p (work c)) :
    AnswersFaultsOnly p (s.withCH op work) :=
  .finish (.bind ((s.ea_raisesOnly op hi).bind fun a _ => s.memRead1_raisesOnly a) fun c _ => h c)

theorem AnswersFaultsOnly.withEA {op : MemOperand} {work : Addr → Except Stop State}
    (hi : ∀ a, p (.indirectAddress a) = true) (h : ∀ a, FaultsOnly p (work a)) :
    AnswersFaultsOnly p (s.withEA op work) :=
  .finish (.bind (s.ea_raisesOnly op hi) fun a _ => h a)

/-- LM and STM check their effective address once, then work on the range (R149, R150). -/
theorem AnswersFaultsOnly.range {ind : Bool} {addr : Addr} {work : Addr → Except Stop State}
    (hi : ∀ a, p (.indirectAddress a) = true) (hw : ∀ a, p (.wordAddressing a) = true)
    (h : ∀ a, FaultsOnly p (work a)) :
    AnswersFaultsOnly p (s.finish (s.eaNoIndex ind addr >>= checkWordBoundary >>= work)) :=
  .finish (.bind ((s.ea_raisesOnly _ hi).bind fun ea _ => checkWordBoundary_raisesOnly ea hw) fun a _ => h a)

/-- CCS and MCS raise nothing (R144, R145). -/
theorem AnswersFaultsOnly.ccs (ign : Bool) (m1 : Mask) (r2 : Reg) (hs : s.NoFault) :
    AnswersFaultsOnly p (execCCS ign m1 r2 s) :=
  .finish (.bind (.of_absent fun _ h => State.compareLoop_error h) fun _ _ => .of_ok hs)

theorem AnswersFaultsOnly.mcs (ign : Bool) (m1 : Mask) (r2 : Reg) (hs : s.NoFault) :
    AnswersFaultsOnly p (execMCS ign m1 r2 s) :=
  .finish (.bind (.of_absent fun _ h => State.moveLoop_error h) fun _ ht =>
    .of_ok ((KeepsControl.moveLoop ht).1.noFault hs))

end

/-- An RR instruction with a word operand may raise the word-addressing exception when the indirect bit is 1 (R260). -/
theorem isSome_addressRegister {ind : Bool} (h : ind = true) (r2 : Reg) :
    ((if ind then some r2 else none).isSome || false) = true := by
  rw [h]
  rfl

/-- An instruction other than EX faults only as the table of exceptions says: by the kind of its work (R260). -/
theorem exec_faultsOnly {i : Instr} (hi : isEX i = false) {s : State} (hs : s.NoFault) :
    AnswersFaultsOnly (raises i) (exec i s) := by
  have ind {b : Bool} {r2 : Reg} (h : b = true) (_ : Addr) := isSome_addressRegister h r2
  cases i
  case ex => exact absurd hi (by simp [isEX])
  case lr | lnr | andr | orr | xorr | notr | cr | ar | sr | rsr | mr | floatr => exact .withRR ind fun _ => .of_ok hs
  case fixr => exact .withRR ind fun _ => .of_ok (State.fixset_noFault _ _ hs)
  case dr | rdr | remr | rremr => exact .withRR ind fun _ => .checkDivisor rfl hs
  case far | fsr | rfsr | fmr => exact .withRR ind fun _ => .realset_ofOption rfl hs
  case fdr | rfdr => exact .withRR ind fun _ => .realset rfl rfl hs
  case str => exact .finish (.storeWord (fun a h => ind (State.ind_of_rrLoc_eq_mem h) a) hs)
  case swapr => exact .finish (.swapWord (fun a h => ind (State.ind_of_rrLoc_eq_mem h) a) hs)
  case sacr => exact .finish (.writeW (fun a h => ind (State.ind_of_rrLoc_eq_mem h) a) hs)
  case l | ln | and | or | xor | not | c | a | s | rs | m | float | floor | ceil | min | max =>
    exact .withRS (fun _ => rfl) (fun _ => rfl) fun _ => .of_ok hs
  case fix => exact .withRS (fun _ => rfl) (fun _ => rfl) fun _ => .of_ok (State.fixset_noFault _ _ hs)
  case d | rd | rem | rrem => exact .withRS (fun _ => rfl) (fun _ => rfl) fun _ => .checkDivisor rfl hs
  case fa | fs | rfs | fm => exact .withRS (fun _ => rfl) (fun _ => rfl) fun _ => .realset_ofOption rfl hs
  case fd | rfd => exact .withRS (fun _ => rfl) (fun _ => rfl) fun _ => .realset rfl rfl hs
  case st => exact .withEA (fun _ => rfl) fun _ => .storeWord (fun _ _ => rfl) hs
  case swap => exact .withEA (fun _ => rfl) fun _ => .swapWord (fun _ _ => rfl) hs
  case sac => exact .withEA (fun _ => rfl) fun _ => .writeW (fun _ _ => rfl) hs
  case lm => exact .range (fun _ => rfl) (fun _ => rfl) fun _ => .loadRange hs
  case stm => exact .range (fun _ => rfl) (fun _ => rfl) fun _ => .storeRange hs
  case lc | lnc | andc | orc | xorc | notc | cc | ac | sc | rsc | mc =>
    exact .withCH (fun _ => rfl) fun _ => .of_ok hs
  case dc | rdc | remc | rremc => exact .withCH (fun _ => rfl) fun _ => .checkDivisor rfl hs
  case stc =>
    exact .withEA (fun _ => rfl) fun _ => .bind (s.memWrite1_raisesOnly _ _) fun _ ht =>
      .of_ok ((KeepsControl.memWrite1 ht).1.noFault hs)
  case swapc =>
    exact .withEA (fun _ => rfl) fun _ => .bind (s.memRead1_raisesOnly _) fun _ _ =>
      .bind (s.memWrite1_raisesOnly _ _) fun _ ht => .of_ok ((KeepsControl.memWrite1 ht).1.noFault hs)
  case sacc => exact .withEA (fun _ => rfl) fun _ => .memWrite1 hs
  case bcs | bcr => exact .withEA (fun _ => rfl) fun _ => .of_ok (State.branchIf_noFault _ _ hs)
  case bal | la | shiftl | shiftc | shifta => exact .withEA (fun _ => rfl) fun _ => .of_ok hs
  case svc => exact .withEA (fun _ => rfl) fun _ => .of_ok (State.supervisorCall_noFault _ _)
  case shiftr => exact .withEA (fun _ => rfl) fun _ => .realset_ofOption rfl hs
  case li | lni | andi | ori | xori | noti | ci | ai | si | rsi | mi | floati | balr => exact .next hs
  case fixi => exact .next (State.fixset_noFault _ _ hs)
  case bcsr | bcrr => exact .next (State.branchIf_noFault _ _ hs)
  case ccs ign m1 r2 => exact .ccs ign m1 r2 hs
  case mcs ign m1 r2 => exact .mcs ign m1 r2 hs
  case di | rdi | remi | rremi => exact .finish (.checkDivisor rfl hs)
  case fai | fsi | rfsi | fmi => exact .finish (.realset_ofOption rfl hs)
  case fdi | rfdi => exact .finish (.realset rfl rfl hs)

/-- A fault of any instruction, executed from a running state, is the state with that exception taken, and nothing else (R261). -/
theorem exec_fault {i : Instr} {s t : State} {e : Exception} {a : Addr} (hs : s.outcome = .running)
    (h : exec i s = .next t) (ho : t.outcome = .fault e a) : e.detailOk ∧ t = s.takeException e ∧ a = s.ia := by
  rcases exec_next h with ⟨j, -, -, hc⟩ | ⟨x, hx, rfl⟩
  · exact absurd ho (hc.outcome_ne_fault hs e a)
  · cases ho
    exact ⟨hx, rfl, rfl⟩

end Sys2Proof.Machine

open Sys2Proof Sys2Proof.Machine

/-- Settles O25: the exception is taken from the state of the cycle, whose ia is the old pc, by the fetch or by the instruction. -/
theorem exceptionsArePrecise : Obligations.ExceptionsArePrecise := by
  unfold Obligations.ExceptionsArePrecise
  intro s t e a hr h ho
  obtain ⟨-, ⟨x, -, rfl⟩ | ⟨f, -, -, hexec⟩⟩ := step_next h
  · cases ho
    exact ⟨rfl, rfl⟩
  · obtain ⟨-, rfl, rfl⟩ := exec_fault (s := s.beginCycle.advance f.length) hr hexec ho
    exact ⟨rfl, rfl⟩

/-- Settles O26: `exec_faultsOnly` is the table, row by row; no instruction's exception is the fetch's (`Exception.detailOk`). -/
theorem exceptionsByInstruction : Obligations.ExceptionsByInstruction := by
  unfold Obligations.ExceptionsByInstruction
  intro i s t e a hr h ho
  obtain ⟨hd, -, ha⟩ := exec_fault hr h ho
  refine ⟨fun hi => exec_faultsOnly hi (State.noFault_of_running hr) t e a h ho, fun p he => ?_, ha⟩
  rw [he] at hd
  exact hd

/-- Settles O20: the cycle looks at the outcome first. -/
theorem endedRunTakesNoStep : Obligations.EndedRunTakesNoStep := by
  unfold Obligations.EndedRunTakesNoStep
  intro s h
  unfold step
  cases ho : s.outcome with
  | running => exact absurd ho h
  | fault e a => rfl
  | supervisorCall a r ea => rfl

end

