-- ==== Sys2Proof/Proofs/OperandChecks.lean ====
section
/-! SUPPORT. The two checks an instruction makes before anything else: that of its indirect field (R59) and that of its word
operand's address (R34, R58). What they raise is what the instruction takes, whatever it would have done then (R264). -/

namespace Sys2Proof.Machine

section
variable {s : State} {op : MemOperand} {ea : Addr} {e : Stop}

/-! ### The indirect field (R59, R61) -/

/-- LM and STM stop where their effective address does. -/
theorem State.range_of_ea_error {ind : Bool} {addr : Addr} (h : s.ea ⟨ind, none, addr⟩ = .error e)
    (work : Addr → Except Stop State) :
    s.finish (s.eaNoIndex ind addr >>= checkWordBoundary >>= work) = s.stop e := by
  rw [State.eaNoIndex, h]
  rfl

/-- EX stops where its effective address does (R147). -/
theorem exec_ex_of_ea_error (r1 : Reg) (h : s.ea op = .error e) : exec (.ex r1 op) s = s.stop e := by
  rw [execEX_eq, exLinks, State.exSubject_succ, h]
  rfl

/-- Every instruction with RS or CH address fields stops where its effective address does: by how it uses the address. -/
theorem exec_of_ea_error {i : Instr} (hop : addressFields i = some op) (h : s.ea op = .error e) :
    exec i s = s.stop e := by
  have rs : s.wordRS op = .error e := State.wordRS_error.2 (.inl h)
  have ch : s.charCH op = .error e := State.charCH_error.2 (.inl h)
  cases i <;> cases hop
  case l | ln | and | or | xor | not | c | a | s | rs | m | d | rd | rem | rrem | fa | fs | rfs | fm | fd | rfd | float |
      fix | floor | ceil | min | max =>
    exact State.withRS_of_error rs _
  case lc | lnc | andc | orc | xorc | notc | cc | ac | sc | rsc | mc | dc | rdc | remc | rremc =>
    exact State.withCH_of_error ch _
  case st | stc | swap | swapc | sac | sacc | bcs | bcr | bal | svc | la | shiftl | shiftc | shifta | shiftr =>
    exact State.withEA_of_error h _
  case lm | stm => exact State.range_of_ea_error h _
  case ex r1 => exact exec_ex_of_ea_error r1 h

/-! ### The word boundary (R34, R58) -/

theorem State.storeWord_misaligned (h : onWordBoundary ea = false) (r1 : Reg) :
    s.storeWord r1 (.mem ea) = .error (.raise (.wordAddressing ea)) := by
  rw [State.storeWord, (s.wordAccess_misaligned h _).2]
  rfl

/-- A swap reads before it writes, so a misaligned operand is never written (R112). -/
theorem State.swapWord_misaligned (h : onWordBoundary ea = false) (r1 : Reg) :
    s.swapWord r1 (.mem ea) = .error (.raise (.wordAddressing ea)) := by
  rw [State.swapWord, (s.wordAccess_misaligned h 0).1]
  rfl

/-- LM and STM check the boundary before the first transfer (R149, R150). -/
theorem State.range_misaligned {ind : Bool} {addr : Addr} (hea : s.ea ⟨ind, none, addr⟩ = .ok ea)
    (h : onWordBoundary ea = false) (work : Addr → Except Stop State) :
    s.finish (s.eaNoIndex ind addr >>= checkWordBoundary >>= work) = .next (s.takeException (.wordAddressing ea)) := by
  have hc : checkWordBoundary ea = .error (.raise (.wordAddressing ea)) := check_error.2 ⟨h, rfl⟩
  have hb : (s.eaNoIndex ind addr >>= checkWordBoundary) = .error (.raise (.wordAddressing ea)) :=
    bind_error.2 (.inr ⟨ea, hea, hc⟩)
  rw [hb]
  rfl

/-- With the indirect bit 1 the operand of an RR instruction is at the address its register holds (R57). -/
theorem State.rrLoc_of_ite {ind : Bool} {q r2 : Reg} (h : (if ind then some q else none) = some r2) :
    s.rrLoc ind q = .mem (lowHalf (s.reg r2)) := by
  obtain ⟨rfl, hq⟩ := Option.ite_none_right_eq_some.1 h
  cases hq
  rfl

/-- An RR instruction whose register holds a misaligned operand address takes the exception: by how it uses the operand. -/
theorem exec_rr_misaligned {i : Instr} {r2 : Reg} (hr : addressRegister i = some r2)
    (h : onWordBoundary (lowHalf (s.reg r2)) = false) :
    exec i s = .next (s.takeException (.wordAddressing (lowHalf (s.reg r2)))) := by
  have withRR {ind : Bool} {q : Reg} (hq : (if ind then some q else none) = some r2) (work : Word → Except Stop State) :
      s.withRR ind q work = .next (s.takeException (.wordAddressing (lowHalf (s.reg r2)))) := by
    have rr : s.wordRR ind q = .error (.raise (.wordAddressing (lowHalf (s.reg r2)))) := by
      rw [State.wordRR, State.rrLoc_of_ite hq, (s.wordAccess_misaligned h 0).1]
    exact State.withRR_of_error rr work
  have finish {r : Except Stop State} (hr : r = .error (.raise (.wordAddressing (lowHalf (s.reg r2))))) :
      s.finish r = .next (s.takeException (.wordAddressing (lowHalf (s.reg r2)))) := by rw [hr]; rfl
  cases i
  case lr | lnr | andr | orr | xorr | notr | cr | ar | sr | rsr | mr | dr | rdr | remr | rremr | far | fsr | rfsr | fmr |
      fdr | rfdr | floatr | fixr =>
    exact withRR hr _
  case str => exact finish (by rw [State.rrLoc_of_ite hr, State.storeWord_misaligned h])
  case swapr => exact finish (by rw [State.rrLoc_of_ite hr, State.swapWord_misaligned h])
  case sacr => exact finish (by rw [State.rrLoc_of_ite hr, (s.wordAccess_misaligned h _).2])
  all_goals cases hr

/-- An instruction that accesses a word at a misaligned effective address takes the exception: by how it uses the address. -/
theorem exec_rs_misaligned {i : Instr} (hw : accessesWord i = true) (hop : addressFields i = some op)
    (hea : s.ea op = .ok ea) (h : onWordBoundary ea = false) :
    exec i s = .next (s.takeException (.wordAddressing ea)) := by
  have rs : s.wordRS op = .error (.raise (.wordAddressing ea)) :=
    State.wordRS_error.2 (.inr ⟨ea, hea, .inl ⟨h, rfl⟩⟩)
  have atEA {work : Addr → Except Stop State} (hwork : work ea = .error (.raise (.wordAddressing ea))) :
      s.withEA op work = .next (s.takeException (.wordAddressing ea)) := by
    rw [State.withEA_of_ok hea, hwork]
    rfl
  cases i <;> cases hop
  case l | ln | and | or | xor | not | c | a | s | rs | m | d | rd | rem | rrem | fa | fs | rfs | fm | fd | rfd | float |
      fix | floor | ceil | min | max =>
    exact State.withRS_of_error rs _
  case st r1 => exact atEA (State.storeWord_misaligned h r1)
  case swap r1 => exact atEA (State.swapWord_misaligned h r1)
  case sac => exact atEA (s.wordAccess_misaligned h _).2
  case lm | stm => exact State.range_misaligned hea h _
  all_goals cases hw

theorem effectiveAddress_eq_some {i : Instr} (h : effectiveAddress i s = some ea) :
    ∃ op, addressFields i = some op ∧ s.ea op = .ok ea := by
  unfold effectiveAddress at h
  split at h
  · cases h
  · rename_i op hop
    split at h <;> cases h
    exact ⟨op, hop, by assumption⟩

/-- Where the word operand of an instruction is, if it is in memory. -/
theorem wordOperandAddress_eq_some {i : Instr} (h : wordOperandAddress i s = some ea) :
    (∃ r2, addressRegister i = some r2 ∧ lowHalf (s.reg r2) = ea) ∨
      ∃ op, accessesWord i = true ∧ addressFields i = some op ∧ s.ea op = .ok ea := by
  unfold wordOperandAddress at h
  split at h
  · rename_i r2 hr
    exact .inl ⟨r2, hr, Option.some.inj h⟩
  · split_ifs at h with hw
    obtain ⟨op, hop, hea⟩ := effectiveAddress_eq_some h
    exact .inr ⟨op, hw, hop, hea⟩

end

end Sys2Proof.Machine

open Sys2Proof Sys2Proof.Machine

/-- Settles O27: the effective address raises the exception (`State.ea_odd_field`), and the instruction stops with it. -/
theorem oddIndirectFieldRaises : Obligations.OddIndirectFieldRaises := by
  unfold Obligations.OddIndirectFieldRaises
  intro i s op hop hi ha
  have he : isEven op.addr = false := (isEven_eq_false_iff op.addr).2 (by omega)
  exact exec_of_ea_error hop (s.ea_odd_field hi he)

/-- Settles O28: the operand is at the address an RR register holds or at the effective address; each is checked first. -/
theorem misalignedWordRaises : Obligations.MisalignedWordRaises := by
  unfold Obligations.MisalignedWordRaises
  intro i s a h ha
  have hb : onWordBoundary a = false := (onWordBoundary_eq_false_iff a).2 ha
  rcases wordOperandAddress_eq_some h with ⟨r2, hr, rfl⟩ | ⟨op, hw, hop, hea⟩
  · exact exec_rr_misaligned hr hb
  · exact exec_rs_misaligned hw hop hea hb

end

