-- ==== Sys2Proof/Proofs/MinMaxShift.lean ====
section
/-! SUPPORT. The statements about minimum, maximum and the shifts (48_minmax_shift.md, R209 to R214): MIN and MAX are
`State.choose`, the integer shifts `State.putShifted` of the bits they move, SHIFTR is `State.realset`. -/

namespace Sys2Proof.Machine

/-! ### MIN and MAX (R209, R210) -/

section
variable {s : State} {op : MemOperand} {w : Word} (r1 : Reg)

theorem exec_min (h : s.wordRS op = .ok w) :
    exec (.min r1 op) s = .next (s.choose r1 (if w.toInt < (s.reg r1).toInt then w else s.reg r1)) :=
  State.withRS_of_ok h _

theorem exec_max (h : s.wordRS op = .ok w) :
    exec (.max r1 op) s = .next (s.choose r1 (if (s.reg r1).toInt < w.toInt then w else s.reg r1)) :=
  State.withRS_of_ok h _

variable (s) (v : Word)

theorem State.choose_reg : (s.choose r1 v).reg r1 = v := State.reg_setReg_self s r1 v

/-- The CCR compares the final value with the original (R209). -/
theorem State.choose_isSignOf :
    (s.choose r1 v).ccr.isSignOf (((s.choose r1 v).reg r1).toInt - (s.reg r1).toInt) := by
  rw [State.choose_reg]
  exact cmpS_isSignOf v (s.reg r1)

theorem unchanged_choose : Unchanged [r1] [] s (s.choose r1 v) := unchanged_setReg_setCcr s r1 v _

end

theorem toInt_ite_eq_min (v w : Word) : (if w.toInt < v.toInt then w else v).toInt = min v.toInt w.toInt := by
  split_ifs <;> omega

theorem toInt_ite_eq_max (v w : Word) : (if v.toInt < w.toInt then w else v).toInt = max v.toInt w.toInt := by
  split_ifs <;> omega

/-! ### The integer shifts: one register and the CCR (R230) -/

section
variable {s : State} {op : MemOperand} {a : Addr} (r1 : Reg)

theorem exec_shiftl (h : s.ea op = .ok a) :
    exec (.shiftl r1 op) s = .next (s.putShifted r1 (shiftLogical (s.reg r1) a.toInt)) :=
  State.withEA_of_ok h _

theorem exec_shiftc (h : s.ea op = .ok a) :
    exec (.shiftc r1 op) s = .next (s.putShifted r1 (shiftCircular (s.reg r1) a.toInt)) :=
  State.withEA_of_ok h _

theorem exec_shifta (h : s.ea op = .ok a) :
    exec (.shifta r1 op) s = .next (s.putShifted r1 (shiftArithmetic (s.reg r1) a.toInt)) :=
  State.withEA_of_ok h _

theorem exec_shiftr (h : s.ea op = .ok a) :
    exec (.shiftr r1 op) s = s.finish (s.realset r1 (realShift (s.reg r1) a.toInt)) :=
  State.withEA_of_ok h _

variable (s) (x : Shifted)

theorem State.putShifted_reg : (s.putShifted r1 x).reg r1 = x.value := State.reg_setReg_self s r1 _

theorem unchanged_putShifted : Unchanged [r1] [] s (s.putShifted r1 x) := unchanged_setReg_setCcr s r1 _ _

/-- The CCR of a shift: O as the shift says, the rest the sign of the result. -/
theorem State.putShifted_isShiftOf {ovf : Prop} (h : x.ovf = true ↔ ovf) :
    (s.putShifted r1 x).ccr.isShiftOf ovf ((s.putShifted r1 x).reg r1) := by
  rw [State.putShifted_reg]
  obtain ⟨-, hg, hl, he⟩ := cmpS_zero_isSignOf x.value
  exact ⟨h, hg, hl, he⟩

end

/-- A shift that loses nothing leaves the sign of its result alone. -/
theorem Ccr.isSignOf_of_isShiftOf {c : Ccr} {v : Word} (h : c.isShiftOf False v) : c.isSignOf v.toInt := by
  obtain ⟨ho, hg, hl, he⟩ := h
  exact ⟨Bool.eq_false_iff.2 ho.1, hg, hl, he⟩

/-! ### SHIFTL: bits of the result, and bits lost (R211) -/

/-- A word is not zero if it has a 1 bit. -/
theorem ne_zero_iff_getMsbD (v : Word) : v ≠ 0 ↔ ∃ i < 32, v.getMsbD i = true := by
  refine ⟨fun h => ?_, fun ⟨i, _, hi⟩ h => by simp [h] at hi⟩
  by_contra hne
  refine h (BitVec.eq_of_getMsbD_eq fun i hi => ?_)
  simpa using fun hb => hne ⟨i, hi, hb⟩

theorem getMsbD_shiftLogical (v : Word) (n : Int) {i : Nat} (hi : i < 32) :
    (shiftLogical v n).value.getMsbD i = (decide (0 ≤ (i : Int) + n) && v.getMsbD ((i : Int) + n).toNat) := by
  unfold shiftLogical
  split_ifs with hn
  · have h0 : 0 ≤ (i : Int) + n := by omega
    have hk : i + n.toNat = ((i : Int) + n).toNat := by omega
    simp [shiftLeftLogical, BitVec.getMsbD_shiftLeft, h0, hk]
  · have hk : i - (-n).toNat = ((i : Int) + n).toNat := by omega
    have h0 : (!decide (i < (-n).toNat)) = decide (0 ≤ (i : Int) + n) := by
      rw [← decide_not]
      exact decide_eq_decide.2 (by omega)
    simp only [shiftRightLogical, BitVec.getMsbD_ushiftRight, hi, decide_true, Bool.true_and, h0, hk]

/-- Left, the 1 bits lost are among the first k. -/
theorem ovf_shiftLeftLogical (v : Word) (k : Nat) :
    (shiftLeftLogical v k).ovf = true ↔ ∃ j < 32, v.getMsbD j = true ∧ j < k := by
  rw [shiftLeftLogical, bne_iff_ne, ne_zero_iff_getMsbD]
  constructor
  · rintro ⟨i, hi, hb⟩
    simp only [BitVec.getMsbD_ushiftRight, Bool.and_eq_true, Bool.not_eq_true', decide_eq_false_iff_not] at hb
    exact ⟨i - (32 - min k 32), by omega, hb.2.2, by omega⟩
  · rintro ⟨j, hj, hb, hk⟩
    refine ⟨j + (32 - min k 32), by omega, ?_⟩
    have hlt : j + (32 - min k 32) < 32 := by omega
    simp [BitVec.getMsbD_ushiftRight, hlt, hb]

/-- Right, the 1 bits lost are among the last m. -/
theorem ovf_shiftRightLogical (v : Word) (m : Nat) :
    (shiftRightLogical v m).ovf = true ↔ ∃ j < 32, v.getMsbD j = true ∧ 32 ≤ j + m := by
  rw [shiftRightLogical, bne_iff_ne, ne_zero_iff_getMsbD]
  simp only [BitVec.getMsbD_shiftLeft]
  constructor
  · rintro ⟨i, -, hb⟩
    have hlt : i + (32 - min m 32) < 32 := by
      by_contra hge
      rw [BitVec.getMsbD_of_ge v _ (by omega)] at hb
      cases hb
    exact ⟨_, hlt, hb, by omega⟩
  · rintro ⟨j, hj, hb, hm⟩
    have he : j - (32 - min m 32) + (32 - min m 32) = j := by omega
    exact ⟨j - (32 - min m 32), by omega, by rwa [he]⟩

/-- O is set exactly if some 1 bit of the original falls outside (R211). -/
theorem ovf_shiftLogical (v : Word) (n : Int) :
    (shiftLogical v n).ovf = true ↔
      ∃ j : Nat, j < 32 ∧ v.getMsbD j = true ∧ ((j : Int) < n ∨ 32 ≤ (j : Int) - n) := by
  unfold shiftLogical
  split_ifs with hn
  · rw [ovf_shiftLeftLogical]
    refine exists_congr fun j => and_congr_right fun hj => and_congr_right fun _ => ?_
    omega
  · rw [ovf_shiftRightLogical]
    refine exists_congr fun j => and_congr_right fun hj => and_congr_right fun _ => ?_
    omega

/-! ### SHIFTC (R212) -/

theorem getMsbD_shiftCircular (v : Word) (n : Int) {i : Nat} (hi : i < 32) :
    (shiftCircular v n).value.getMsbD i = v.getMsbD (((i : Int) + n) % 32).toNat := by
  have hk : ((n % 32).toNat + i) % 32 = (((i : Int) + n) % 32).toNat := by omega
  simp only [shiftCircular, BitVec.getMsbD_rotateLeft, hi, decide_true, Bool.true_and, hk]

/-- "Overflow is not possible" (R212). -/
theorem ovf_shiftCircular (v : Word) (n : Int) : (shiftCircular v n).ovf = true ↔ False := by
  simp [shiftCircular]

/-! ### SHIFTA (R213) -/

/-- A shift to the left is a product modulo 2^32. -/
theorem shiftLeft_eq_wordOfInt (v : Word) (n : Nat) : v <<< n = wordOfInt (v.toInt * 2 ^ n) := by
  have h2 : BitVec.ofInt 32 (2 ^ n) = BitVec.twoPow 32 n := by
    have hcast : ((2 ^ n : Nat) : Int) = 2 ^ n := by push_cast; rfl
    rw [← hcast, BitVec.ofInt_natCast]
    exact BitVec.eq_of_toNat_eq (by simp [BitVec.toNat_twoPow])
  rw [BitVec.shiftLeft_eq_mul_twoPow, wordOfInt, BitVec.ofInt_mul, BitVec.ofInt_toInt, h2]

/-- Twice a word is a word exactly if bits 0 and 1 are equal. -/
theorem fitsWord_double (v : Word) : fitsWord (v.toInt * 2) = true ↔ v.getMsbD 1 = v.getMsbD 0 := by
  have h0 : v.getMsbD 0 = decide (2 ^ 31 ≤ v.toNat) := by
    rw [← BitVec.msb_eq_getMsbD_zero, BitVec.msb_eq_decide]
  have h1 : v.getMsbD 1 = decide (2 ^ 31 ≤ v.toNat * 2 % 2 ^ 32) := by
    have hs := BitVec.getMsbD_shiftLeft (k := 0) v 1
    rw [← BitVec.msb_eq_getMsbD_zero, BitVec.msb_eq_decide, BitVec.toNat_shiftLeft, Nat.shiftLeft_eq] at hs
    exact hs.symm
  have hv := v.isLt
  have hi := BitVec.toInt_eq_toNat_cond v
  rw [fitsWord_iff, h0, h1, decide_eq_decide]
  split_ifs at hi <;> omega

/-- One place further left: the product still fits if the next bit equals bit 0 too. -/
theorem fitsWord_shiftLeft_succ (v : Word) (n : Nat) :
    fitsWord (v.toInt * 2 ^ (n + 1)) = true ↔
      fitsWord (v.toInt * 2 ^ n) = true ∧ v.getMsbD (n + 1) = v.getMsbD n := by
  have hpow : v.toInt * 2 ^ (n + 1) = v.toInt * 2 ^ n * 2 := by rw [pow_succ, mul_assoc]
  by_cases hf : fitsWord (v.toInt * 2 ^ n) = true
  · have hu : (v <<< n).toInt = v.toInt * 2 ^ n := by
      rw [shiftLeft_eq_wordOfInt, toInt_wordOfInt_of_fits hf]
    rw [hpow, ← hu, fitsWord_double, BitVec.getMsbD_shiftLeft, BitVec.getMsbD_shiftLeft, hu, Nat.add_comm 1 n, Nat.zero_add]
    exact (and_iff_right hf).symm
  · refine iff_of_false (fun h => hf ?_) fun h => hf h.1
    rw [hpow, fitsWord_iff] at h
    rw [fitsWord_iff]
    omega

/-- The product fits in a word exactly as long as bits 0 to n are all equal (R213). -/
theorem fitsWord_shiftLeft_iff (v : Word) (n : Nat) :
    fitsWord (v.toInt * 2 ^ n) = true ↔ ∀ j ≤ n, v.getMsbD j = v.getMsbD 0 := by
  induction n with
  | zero => simp [fitsWord_toInt]
  | succ n ih =>
    rw [fitsWord_shiftLeft_succ, ih]
    refine ⟨fun ⟨hle, hnext⟩ j hj => ?_, fun h => ⟨fun j hj => h j (by omega), (h _ le_rfl).trans (h n (by omega)).symm⟩⟩
    rcases Nat.le_succ_iff.1 hj with hj | rfl
    · exact hle j hj
    · exact hnext.trans (hle n le_rfl)

/-- O is set exactly if a bit shifted into bit 0 differs from it. -/
theorem not_fitsWord_shiftLeft_iff (v : Word) (n : Nat) :
    (!fitsWord (v.toInt * 2 ^ n)) = true ↔ ∃ j ≤ n, v.getMsbD j ≠ v.getMsbD 0 := by
  rw [Bool.not_eq_true', Bool.eq_false_iff, Ne, fitsWord_shiftLeft_iff]
  push Not
  rfl

/-- Dividing a word by 2^32 or more leaves its sign, so the count need not go beyond 32. -/
theorem toInt_ediv_two_pow_min (v : Word) (m : Nat) : v.toInt / 2 ^ min m 32 = v.toInt / 2 ^ m := by
  obtain hm | hm := Nat.le_total m 32
  · rw [min_eq_left hm]
  · have hv := word_toInt_bounds v
    have hpow : (2 : Int) ^ 32 ≤ 2 ^ m := pow_le_pow_right₀ (by decide) hm
    rw [min_eq_right hm]
    obtain hs | hs := lt_or_ge v.toInt 0
    · rw [Int.ediv_eq_neg_one_of_neg_of_le hs (by omega), Int.ediv_eq_neg_one_of_neg_of_le hs (by omega)]
    · rw [Int.ediv_eq_zero_of_lt hs (by omega), Int.ediv_eq_zero_of_lt hs (by omega)]

/-- Divided by a power of two and rounded down, a word is a word. -/
theorem fitsWord_ediv_two_pow (v : Word) (m : Nat) : fitsWord (v.toInt / 2 ^ m) = true := by
  obtain ⟨hlo, hhi⟩ := (fitsWord_iff _).1 (fitsWord_toInt v)
  have hpow : (0 : Int) < 2 ^ m := by positivity
  refine (fitsWord_iff _).2 ⟨?_, ?_⟩
  · exact (Int.le_ediv_iff_mul_le hpow).2 (by nlinarith)
  · exact Int.ediv_le_of_le_mul hpow (by nlinarith)

section
variable (v : Word) {n : Int}

/-- Left, the result is the product modulo 2^32. -/
theorem shiftArithmetic_left (hn : 0 ≤ n) :
    shiftArithmetic v n = ⟨wordOfInt (v.toInt * 2 ^ n.toNat), !fitsWord (v.toInt * 2 ^ n.toNat)⟩ := by
  rw [shiftArithmetic, if_pos hn, shiftLeft_eq_wordOfInt]

/-- Right, the result is the quotient rounded down. -/
theorem shiftArithmetic_right (hn : n < 0) :
    shiftArithmetic v n = ⟨wordOfInt (v.toInt / 2 ^ (-n).toNat), false⟩ := by
  rw [shiftArithmetic, if_neg (not_le.2 hn), toInt_ediv_two_pow_min]

end

end Sys2Proof.Machine

open Sys2Proof Sys2Proof.Machine

/-- Settles O56: each instruction is `State.choose` of the smaller or the greater word. -/
theorem minimumAndMaximum : Obligations.MinimumAndMaximum := by
  unfold Obligations.MinimumAndMaximum
  refine ⟨fun r1 op s w h => ⟨_, exec_min r1 h, ?_, s.choose_isSignOf r1 _, rfl, unchanged_choose s r1 _⟩,
    fun r1 op s w h => ⟨_, exec_max r1 h, ?_, s.choose_isSignOf r1 _, rfl, unchanged_choose s r1 _⟩⟩
  · rw [State.choose_reg, toInt_ite_eq_min]
  · rw [State.choose_reg, toInt_ite_eq_max]

/-- Settles O57: the bits of the shifted word, and which of the original's are lost. -/
theorem shiftLogical : Obligations.ShiftLogical := by
  unfold Obligations.ShiftLogical
  intro r1 op s a h
  refine ⟨_, exec_shiftl r1 h, rfl, unchanged_putShifted s r1 _, fun i hi => ?_,
    s.putShifted_isShiftOf r1 _ (ovf_shiftLogical (s.reg r1) a.toInt)⟩
  rw [State.putShifted_reg, getMsbD_shiftLogical _ _ hi]

/-- Settles O58: the bits of the rotated word; a rotation loses none. -/
theorem shiftCircular : Obligations.ShiftCircular := by
  unfold Obligations.ShiftCircular
  intro r1 op s a h
  refine ⟨_, exec_shiftc r1 h, rfl, unchanged_putShifted s r1 _, fun i hi => ?_, ?_⟩
  · rw [State.putShifted_reg, getMsbD_shiftCircular _ _ hi]
  · exact Ccr.isSignOf_of_isShiftOf (s.putShifted_isShiftOf r1 _ (ovf_shiftCircular (s.reg r1) a.toInt))

/-- Settles O59: left, the product and when it fits; right, the quotient, which always fits. -/
theorem shiftArithmetic : Obligations.ShiftArithmetic := by
  unfold Obligations.ShiftArithmetic
  intro r1 op s a h
  refine ⟨_, exec_shifta r1 h, rfl, unchanged_putShifted s r1 _, fun hn => ?left, fun hn => ?right⟩
  case left =>
    rw [shiftArithmetic_left _ hn]
    refine ⟨s.putShifted_reg r1 _, s.putShifted_isShiftOf r1 _ ?_, not_fitsWord_shiftLeft_iff _ _⟩
    rw [Bool.not_eq_true', Bool.eq_false_iff, Ne, fitsWord_iff]
  case right =>
    rw [shiftArithmetic_right _ hn]
    refine ⟨?_, s.putShifted_isShiftOf r1 _ (by simp)⟩
    rw [State.putShifted_reg]
    exact toInt_wordOfInt_of_fits (fitsWord_ediv_two_pow _ _)

/-- Settles O60: SHIFTR is `State.realset` of its `REAL` member, of which R214 demands the three clauses. -/
theorem shiftReal : Obligations.ShiftReal := by
  unfold Obligations.ShiftReal
  intro R r1 op s a h
  refine ⟨.of_realset (exec_shiftr r1 h), fun v hv => ⟨R.shiftr_zero _ _ v hv, R.shiftr_parts _ _ v hv, fun hn hf => ?_⟩⟩
  rw [hn] at hv
  exact R.shiftr_same _ v hv hf

end

