-- ==== Sys2Proof/Proofs/PlacedWord.lean ====
section
/-! SUPPORT. A word of the opcode table placed at pc (R291): its characters are those of the instruction it decodes to, and the
next cycle fetches them. -/

namespace Sys2Proof

/-- A word of 16 or 32 bits is laid out in four characters. -/
theorem tableBytes_eq_four {nbits : Nat} (h : nbits = 16 ∨ nbits = 32) (w : Nat) :
    ∃ c0 c1 c2 c3, tableBytes nbits w = [c0, c1, c2, c3] := by
  rcases h with rfl | rfl <;> exact ⟨_, _, _, _, rfl⟩

/-- What a word of the opcode table decodes to is well formed, and the word's characters begin with its encoding. -/
theorem wf_and_encode_of_decodeTableWord {nbits w : Nat} {i : Instr} (h : decodeTableWord nbits w = some i) :
    i.wf = true ∧ ∃ rest, encode i ++ rest = tableBytes nbits w := by
  unfold decodeTableWord at h
  split at h <;> cases h
  rename_i rest hd
  obtain ⟨hw, he⟩ := encodeInvertsDecode _ _ _ hd
  exact ⟨hw, rest, he⟩

end Sys2Proof

namespace Sys2Proof.Machine

/-- Four characters stored at ascending addresses are a word stored. -/
theorem State.putBytes_four (s : State) (a : Addr) (c0 c1 c2 c3 : Byte) :
    s.putBytes a [c0, c1, c2, c3] = s.putWord a (wordOfChars c0 c1 c2 c3) := by
  obtain ⟨h0, h1, h2, h3⟩ := charOfWord_wordOfChars c0 c1 c2 c3
  have ha2 : a + 1 + 1 = a + 2 := by bv_omega
  have ha3 : a + 2 + 1 = a + 3 := by bv_omega
  simp only [State.putBytes, State.putWord, h0, h1, h2, h3, ha2, ha3]

/-- Four characters stored are the characters an instruction fetched there has. -/
theorem State.instrBytes_putBytes {s : State} (h : s.mem.wf = true) (a : Addr) {cs : List Byte}
    (hcs : ∃ c0 c1 c2 c3, cs = [c0, c1, c2, c3]) : (s.putBytes a cs).instrBytes a 4 = cs := by
  obtain ⟨c0, c1, c2, c3, rfl⟩ := hcs
  obtain ⟨h0, h1, h2, h3⟩ := charOfWord_wordOfChars c0 c1 c2 c3
  rw [State.putBytes_four, State.instrBytes_putWord h, h0, h1, h2, h3]

/-- An instruction of fewer characters has the first of them. -/
theorem State.instrBytes_take (s : State) (a : Addr) {m n : Nat} (h : m ≤ n) :
    (s.instrBytes a n).take m = s.instrBytes a m := by
  rw [State.instrBytes, ← List.map_take, List.take_range, Nat.min_eq_left h, State.instrBytes]

/-- The characters of an instruction stand where a list that begins with its encoding does. -/
theorem State.instrBytes_of_append {s : State} {a : Addr} {n : Nat} {cs rest : List Byte}
    (h : cs ++ rest = s.instrBytes a n) : s.instrBytes a cs.length = cs := by
  have hle : cs.length ≤ n := by
    have hlen := congrArg List.length h
    simp only [List.length_append, State.instrBytes, List.length_map, List.length_range] at hlen
    omega
  rw [← s.instrBytes_take a hle, ← h, List.take_left]

/-- Characters stored change neither pc, nor the outcome, nor the parameters. -/
theorem State.putBytes_control (s : State) (a : Addr) (cs : List Byte) :
    (s.putBytes a cs).pc = s.pc ∧ (s.putBytes a cs).outcome = s.outcome ∧ (s.putBytes a cs).params = s.params := by
  induction cs generalizing s a with
  | nil => exact ⟨rfl, rfl, rfl⟩
  | cons c cs ih => simpa [State.putBytes] using ih (s.putByte a c) (a + 1)

section
variable (s : State) (nbits w : Nat)

@[simp] theorem State.withFetchWord_pc : (s.withFetchWord nbits w).pc = s.pc :=
  (State.putBytes_control _ _ _).1

@[simp] theorem State.withFetchWord_outcome : (s.withFetchWord nbits w).outcome = .running :=
  (State.putBytes_control _ _ _).2.1

@[simp] theorem State.withFetchWord_params : (s.withFetchWord nbits w).params = s.params :=
  (State.putBytes_control _ _ _).2.2

end

/-- The characters of the placed instruction stand at pc. -/
theorem State.instrBytes_withFetchWord {s : State} {nbits w : Nat} {i : Instr} (hm : s.mem.wf = true)
    (hn : nbits = 16 ∨ nbits = 32) {rest : List Byte} (hi : encode i ++ rest = tableBytes nbits w) :
    (s.withFetchWord nbits w).instrBytes s.pc (encode i).length = encode i := by
  have hb : (s.withFetchWord nbits w).instrBytes s.pc 4 = tableBytes nbits w :=
    State.instrBytes_putBytes (s := { s with outcome := .running }) hm s.pc (tableBytes_eq_four hn w)
  exact State.instrBytes_of_append (hi.trans hb.symm)

end Sys2Proof.Machine

open Sys2Proof Sys2Proof.Machine

/-- Settles O17: the characters of the placed instruction stand at pc, and `step_encode` is the cycle that executes it. -/
theorem placedWordIsExecuted : Obligations.PlacedWordIsExecuted := by
  unfold Obligations.PlacedWordIsExecuted
  intro s nbits w i hm hpar hpc hn hd
  obtain ⟨hw, rest, hrest⟩ := wf_and_encode_of_decodeTableWord hd
  have hb := State.instrBytes_withFetchWord hm hn hrest
  have full : (s.withFetchWord nbits w).present s.pc (encode i).length = true :=
    State.present_of_full (by rw [State.withFetchWord_params, hpar]) _ _
  rw [step_encode (i := i) (by simp) (by simpa [isEven_iff] using hpc) hw (by simpa using full) (by simpa using hb)]
  simp only [State.beginCycle, State.advance, State.withFetchWord_pc]

end
